-- ==== Sys2Proof/Word.lean ====
section
/-! DEFINITION. The two word types of the block (`00_scope.md` R7): a byte is 8 bits, `u16` is a 16-bit
unsigned value. -/

namespace Sys2Proof

/-- `u8` of `00_scope.md` R7. -/
abbrev Byte := BitVec 8

/-- `u16` of `00_scope.md` R7. -/
abbrev Word := BitVec 16

end Sys2Proof
end

