-- ==== Sys2Proof/Machine/Operands.lean ====
section
/-! DEFINITION. Operand forms: byte order (`20_memory.md` R37), assembly of operands from frame bytes
(`30_encoding.md` R59), packing and unpacking of bits (`20_memory.md` R38) and of registers. -/

namespace Sys2Proof.Machine

/-- `HI(v) = v[15:8]` (`00_scope.md` R7). -/
def hi (v : Word) : Byte := v.extractLsb' 8 8

/-- `LO(v) = v[7:0]` (`00_scope.md` R7). -/
def lo (v : Word) : Byte := v.extractLsb' 0 8

/-- `BE16(h, l)` (`00_scope.md` R7): the first byte is the more significant. -/
def be16 (h l : Byte) : Word := h ++ l

/-- A 16-bit value on the wire, `[HI(v), LO(v)]` (`20_memory.md` R37). -/
def beBytes (v : Word) : List Byte := [hi v, lo v]

/-- `frame[i]`. Every caller reads inside the frame; a byte beyond the end would read 0. -/
def byteAt (frame : List Byte) (i : Nat) : Byte := frame.getD i 0

/-- The 16-bit field at frame bytes `i` and `i+1` (`20_memory.md` R37). -/
def wordAt (frame : List Byte) (i : Nat) : Word := be16 (byteAt frame i) (byteAt frame (i + 1))

/-- One byte of `PackBits`: for each of the eight bit numbers in turn, set the bit when `f` says so. -/
def packByte (f : Nat → Bool) : Byte :=
  (List.range 8).foldl (fun acc b => if f b then acc ||| (1#8 <<< b) else acc) 0#8

/-- `PackBits` (`43_read_functions.md` R113): element `k` is bit `k mod 8` of byte `k div 8`, the unused high bits of
the last byte are 0. -/
def packBits (bits : List Bool) : List Byte :=
  (List.range ((bits.length + 7) / 8)).map fun j => packByte fun b => bits.getD (8 * j + b) false

/-- `UnpackBit` (`44_write_functions.md` R119), as a Boolean. -/
def unpackBit (data : List Byte) (k : Nat) : Bool := (byteAt data (k / 8)).getLsbD (k % 8)

/-- The first `n` elements of a packed payload (`44_write_functions.md` R122). -/
def unpackBits (data : List Byte) (n : Nat) : List Bool := (List.range n).map (unpackBit data)

/-- `RegBytes` (`43_read_functions.md` R114). -/
def regBytes (regs : List Word) : List Byte := regs.flatMap beBytes

/-- The first `n` registers of a payload of big-endian pairs (`44_write_functions.md` R123). -/
def unpackRegs (data : List Byte) (n : Nat) : List Word := (List.range n).map fun k => wordAt data (2 * k)

end Sys2Proof.Machine
end

