-- ==== Sys2Proof/Machine/Checksum.lean ====
section
/-! DEFINITION. The Checksum unit (`40_checksum.md`): `crc_std`, `crc16`, `Validate`, `AppendCrc`. It has no state. -/

namespace Sys2Proof.Machine

/-- One of the eight shift steps of `crc_std` (`40_checksum.md` R73). -/
def crcShift (c : Word) : Word := if c.getLsbD 0 then (c >>> 1) ^^^ 0xA001#16 else c >>> 1

/-- One byte of `crc_std`: the byte enters at the low end, then eight shift steps (`40_checksum.md` R73). -/
def crcByte (c : Word) (d : Byte) : Word := Nat.repeat crcShift 8 (c ^^^ d.zeroExtend 16)

/-- `crc_std` (`40_checksum.md` R73): initial value 0xFFFF, no final xor. -/
def crcStd (data : List Byte) : Word := data.foldl crcByte 0xFFFF#16

/-- `crc16` (`40_checksum.md` R73): `crc_std` with its two bytes exchanged. -/
def crc16 (data : List Byte) : Word := be16 (lo (crcStd data)) (hi (crcStd data))

/-- `Validate` (`40_checksum.md` R75); `none` is `Invalid`. -/
def validate (frame : List Byte) : Option Nat :=
  if frame.length < 2 then none
  else if byteAt frame (frame.length - 2) = hi (crc16 (frame.take (frame.length - 2)))
      ∧ byteAt frame (frame.length - 1) = lo (crc16 (frame.take (frame.length - 2)))
    then some frame.length
  else none

/-- `AppendCrc` (`40_checksum.md` R76). -/
def appendCrc (body : List Byte) : List Byte := body ++ beBytes (crc16 body)

end Sys2Proof.Machine
end

