-- ==== Sys2Proof/Machine/Codes.lean ====
section
/-! DEFINITION. The named numbers of the protocol: function codes (`30_encoding.md` R61) and the bit an exception
response sets in the function byte (`42_reply_engine.md` R106). -/

namespace Sys2Proof.Machine

/-- `FC_READ_COILS` (`30_encoding.md` R61). -/
def fcReadCoils : Byte := 0x01

/-- `FC_READ_DISCRETE_INPUTS` (`30_encoding.md` R61). -/
def fcReadDiscreteInputs : Byte := 0x02

/-- `FC_READ_HOLDING_REGISTERS` (`30_encoding.md` R61). -/
def fcReadHoldingRegisters : Byte := 0x03

/-- `FC_READ_INPUT_REGISTERS` (`30_encoding.md` R61). -/
def fcReadInputRegisters : Byte := 0x04

/-- `FC_WRITE_SINGLE_COIL` (`30_encoding.md` R61). -/
def fcWriteSingleCoil : Byte := 0x05

/-- `FC_WRITE_SINGLE_REGISTER` (`30_encoding.md` R61). -/
def fcWriteSingleRegister : Byte := 0x06

/-- `FC_WRITE_MULTIPLE_COILS` (`30_encoding.md` R61). -/
def fcWriteMultipleCoils : Byte := 0x0F

/-- `FC_WRITE_MULTIPLE_REGISTERS` (`30_encoding.md` R61). -/
def fcWriteMultipleRegisters : Byte := 0x10

/-- `FC_MASK_WRITE_REGISTER` (`30_encoding.md` R61). -/
def fcMaskWriteRegister : Byte := 0x16

/-- `FC_WRITE_AND_READ_REGISTERS` (`30_encoding.md` R61). -/
def fcWriteAndReadRegisters : Byte := 0x17

/-- The codes of the first ten rows of `30_encoding.md` R62; every other code is `OTHER`. -/
def listedCodes : List Byte :=
  [fcReadCoils, fcReadDiscreteInputs, fcReadHoldingRegisters, fcReadInputRegisters, fcWriteSingleCoil,
    fcWriteSingleRegister, fcWriteMultipleCoils, fcWriteMultipleRegisters, fcMaskWriteRegister,
    fcWriteAndReadRegisters]

/-- Bit 7, set in the function byte of an exception response (`42_reply_engine.md` R106). -/
def exceptionBit : Byte := 0x80

end Sys2Proof.Machine
end

