-- ==== Sys2Proof/Config.lean ====
section
/-! DEFINITION. What an implementation fixes: the configuration registers of `10_state.md` R17, the named constants
of `00_scope.md` R6, and the one free value of the model, the side of a tick's iteration on which the output mapper
samples the coils when nothing else says (`46_session_loop.md` R133). -/

namespace Sys2Proof

/-- The configuration registers of `10_state.md` R17, written once by the host before the first tick. -/
structure Cfg where
  /-- `SLAVE_ID`, legal 1..246 (`10_state.md` R18). -/
  slaveId : Byte
  /-- `COIL_START`, the protocol address of `coils[0]`. -/
  coilStart : Word
  /-- `COIL_COUNT`, the number of coils; 0 is legal. -/
  coilCount : Nat
  /-- `DINPUT_START`, the protocol address of `dinputs[0]`. -/
  dinputStart : Word
  /-- `DINPUT_COUNT`, the number of discrete inputs; 0 is legal. -/
  dinputCount : Nat
  /-- `HOLD_START`, the protocol address of `hold[0]`. -/
  holdStart : Word
  /-- `HOLD_COUNT`, the number of holding registers; 0 is legal. -/
  holdCount : Nat
  /-- `INREG_START`, the protocol address of `inregs[0]`. -/
  inregStart : Word
  /-- `INREG_COUNT`, the number of input registers; 0 is legal. -/
  inregCount : Nat
  /-- `RX_RETRIES`, the number of delays spent on one byte before it is given up. -/
  rxRetries : Nat
  /-- `RX_QUANTUM_MS`, the milliseconds of one delay. -/
  rxQuantumMs : Nat
  /-- `BROADCAST_REPLY`, whether a broadcast request is answered (`42_reply_engine.md` R108). -/
  broadcastReply : Bool
  /-- `BAUD_RATE`, opaque: no rule of the block reads it. -/
  baudRate : Nat
  deriving DecidableEq, Repr

/-- A configuration of this hardware (`00_scope.md` R6, `93_implementation_defined.md` U2): the slave identity is in
1..246. The bases are 16-bit by their type and the counts are unconstrained. -/
abbrev Cfg.Legal (c : Cfg) : Prop := 1 ≤ c.slaveId.toNat ∧ c.slaveId.toNat ≤ 246

/-- `MAX_ADU` (`00_scope.md` R6): 260, the only legal value of that register (`10_state.md` R17). -/
def Config.maxAdu : Nat := 260

/-- `BROADCAST_ADDR` (`00_scope.md` R6), hard-wired to 0 (`10_state.md` R17). -/
def Config.broadcastAddr : Byte := 0

/-- `QTY_MAX_READ_BITS` (`00_scope.md` R6). -/
def Config.qtyMaxReadBits : Nat := 2000

/-- `QTY_MAX_READ_REGS` (`00_scope.md` R6). -/
def Config.qtyMaxReadRegs : Nat := 125

/-- `QTY_MAX_WRITE_BITS` (`00_scope.md` R6). -/
def Config.qtyMaxWriteBits : Nat := 1968

/-- `QTY_MAX_WRITE_REGS` (`00_scope.md` R6). -/
def Config.qtyMaxWriteRegs : Nat := 123

/-- `EXPECTED_RSP_LEN` of `42_reply_engine.md` R110: six body bytes and two CRC bytes. -/
def Config.expectedRspLen : Nat := 8

/-- The side of a tick's iteration on which its coil snapshot is taken; the spec leaves it open
(`46_session_loop.md` R133, `92_eei_decisions.md` D18). -/
inductive SnapTime where
  | before
  | after
  deriving DecidableEq, Repr, Inhabited

/-- FREE VALUE (log 9): the side of the coming tick on which the output mapper samples the coils, where the agenda names
no move and no sample is early or late. It has no body, so nothing can be proved of it; `State.freeIdx` is its
argument. -/
opaque Config.snapshotTime : Nat → SnapTime

/-- The configuration of `State.reset`. The parameters are OPEN in the spec (`00_scope.md` R6); DESIGN CHOICE (log 4),
unsafe: the identity, bases, counts and BROADCAST_REPLY are those of the conventions of `95_test_vectors.md`, the baud
rate is 9600. -/
def Config.default : Cfg where
  slaveId := 5
  coilStart := 0
  coilCount := 16
  dinputStart := 0
  dinputCount := 16
  holdStart := 0
  holdCount := 16
  inregStart := 0
  inregCount := 16
  rxRetries := 10
  rxQuantumMs := 1
  broadcastReply := true
  baudRate := 9600

end Sys2Proof
end

