-- ==== Sys2Proof/Machine/State.lean ====
section
/-! DEFINITION. The state of the block (`10_state.md` R13 to R24), its configuration registers (R17), what stands at
its boundary (R26, R27), the reasons a step can stop, and the state after reset (R29). -/

namespace Sys2Proof.Machine

/-- An array of the Register Map: the elements that differ from the array's zero, by index, indices strictly rising.
Every element not listed reads as zero, the reset contents (`10_state.md` R16). -/
abbrev Cells (α : Type) := List (Nat × α)

/-- The two spaces whose elements are single bits (`20_memory.md` R32). -/
inductive BitSpace where
  /-- `COILS` -/
  | coils
  /-- `DINPUTS` -/
  | dinputs
  deriving DecidableEq, Repr

/-- The two spaces whose elements are 16-bit registers (`20_memory.md` R32). -/
inductive RegSpace where
  /-- `HOLD` -/
  | hold
  /-- `INREGS` -/
  | inregs
  deriving DecidableEq, Repr

/-- The four protocol address spaces (`20_memory.md` R31). -/
inductive Space where
  | bits (b : BitSpace)
  | regs (r : RegSpace)
  deriving DecidableEq, Repr

/-- The Register Map (`10_state.md` R14). -/
structure RegMap where
  /-- `coils`, 1 bit each. -/
  coils : Cells Bool
  /-- `discreteInputs`, 1 bit each. -/
  dinputs : Cells Bool
  /-- `holdingRegisters`, 16 bits each. -/
  hold : Cells Word
  /-- `inputRegisters`, 16 bits each. -/
  inregs : Cells Word
  deriving DecidableEq, Repr

/-- The zero-initialised map (`10_state.md` R16, R29). -/
def RegMap.zero : RegMap := ⟨[], [], [], []⟩

/-- The receiver's phase (`10_state.md` R19). -/
inductive Phase where
  /-- `HEADER` -/
  | header
  /-- `META` -/
  | metadata
  /-- `DATA` -/
  | data
  deriving DecidableEq, Repr

/-- The top-level control state (`10_state.md` R24). -/
inductive Ctrl where
  /-- `IDLE` -/
  | idle
  /-- `RECEIVING` -/
  | receiving
  /-- `REPLYING` -/
  | replying
  deriving DecidableEq, Repr

/-- The three exceptions the Reply Engine raises (`30_encoding.md` R66). -/
inductive ProtocolException where
  /-- `ILLEGAL_FUNCTION` -/
  | illegalFunction
  /-- `ILLEGAL_DATA_ADDRESS` -/
  | illegalDataAddress
  /-- `ILLEGAL_DATA_VALUE` -/
  | illegalDataValue
  deriving DecidableEq, Repr

/-- A move of the environment while the block is idle (`70_reset_and_hazards.md` R162; log 3). -/
inductive HostMove where
  /-- `TICK` (`46_session_loop.md` R129). -/
  | tick
  /-- `COIL_SNAPSHOT`: the output mapper samples `coils[0..3)` (`46_session_loop.md` R133). -/
  | sample
  /-- `INPUT_LOAD` of an element of `dinputs` (`10_state.md` R27). -/
  | loadDinput (index : Nat) (value : Bool)
  /-- `INPUT_LOAD` of an element of `inregs` (`10_state.md` R27). -/
  | loadInreg (index : Nat) (value : Word)
  /-- `RESET` (`70_reset_and_hazards.md` R157). -/
  | reset
  deriving DecidableEq, Repr

/-- Where the output mapper stands in its contract of one sample a tick, on either side of the tick's iteration
(`46_session_loop.md` R133; log 24). -/
inductive Mapper where
  /-- Every tick so far has had its sample, and no coming one has. -/
  | even
  /-- The coming tick has had its sample already. -/
  | early
  /-- The last tick has not had its sample yet. -/
  | late
  deriving DecidableEq, Repr

/-- Everything the block holds, and what stands at its boundary. -/
structure State where
  /-- The configuration registers (`10_state.md` R17). -/
  cfg : Cfg
  /-- The Register Map (`10_state.md` R14). -/
  map : RegMap
  /-- `phase` (`10_state.md` R19). -/
  phase : Phase
  /-- `rxlen`, the bytes received so far in this frame (`10_state.md` R19). -/
  rxlen : Nat
  /-- `need`, the bytes remaining to read (`10_state.md` R19). -/
  need : Nat
  /-- `rxbuf`, `MAX_ADU` bytes; `rxbuf[0..rxlen)` are written (`10_state.md` R20). -/
  rxbuf : List Byte
  /-- `tries`, the delays spent on the current byte (`10_state.md` R21). -/
  tries : Nat
  /-- `rx_status`, 16-bit two's complement (`10_state.md` R22). -/
  rxStatus : Word
  /-- `rsp`, `MAX_ADU` bytes; `rsp[0..rsplen)` are written (`10_state.md` R23). -/
  rsp : List Byte
  /-- `rsplen` (`10_state.md` R23). -/
  rsplen : Nat
  /-- `ctrl` (`10_state.md` R24). -/
  ctrl : Ctrl
  /-- The transport's receive queue, oldest byte first (`10_state.md` R26). -/
  queue : List Byte
  /-- The arrival process (`10_state.md` R26): the bytes that arrive before each coming poll of `available`; when the
  list is used up, nothing arrives any more (log 2). -/
  arrivals : List (List Byte)
  /-- The environment's coming moves; when the list is used up, the tick source keeps
  ticking and the output mapper keeps sampling (log 3). -/
  agenda : List HostMove
  /-- Where the output mapper stands in its contract; the model's own record of the environment (log 24). -/
  mapper : Mapper
  /-- The `Transport.write` calls so far, oldest first (`46_session_loop.md` R134; log 10). -/
  txLog : List (List Byte)
  /-- The `Timing.delay` calls so far, in milliseconds, oldest first (`60_exceptions.md` R152; log 10). -/
  delayLog : List Nat
  /-- The last coil snapshot delivered to the output mapper (`46_session_loop.md` R133; log 10). -/
  snapshot : List Bool
  /-- The baud rate last given to `Transport.configure` (`70_reset_and_hazards.md` R159; log 10). -/
  linkBaud : Option Nat
  /-- The model's own counter of free choices, the argument of `Config.snapshotTime` (log 9). -/
  freeIdx : Nat
  deriving DecidableEq, Repr

/-- Why the machine stops with a fault. The spec knows no such stop (`00_scope.md` R11). -/
inductive Fault where
  /-- Raised by a host move, `INPUT_LOAD` with an index at or beyond the array's count: the spec says no such element
  exists (`10_state.md` R14). Safe (log 16). -/
  | noSuchElement (space : Space) (index : Nat)
  deriving DecidableEq, Repr

/-- Why the machine refuses a step. -/
inductive Refusal where
  /-- Raised by an arm of `exec` whose instruction has no meaning yet. Safe. -/
  | notModelled (mnemonic : String)
  /-- Raised by a step whose configuration is none of this hardware: the spec's own treatment is to refuse it
  (`93_implementation_defined.md` U2). Safe (log 14). -/
  | illegalConfiguration
  /-- Raised by a step while `ctrl` is not `IDLE`: ticks and the environment's moves are accepted only there
  (`46_session_loop.md` R129, `93_implementation_defined.md` U4, U11). Safe (log 15). -/
  | busy
  /-- Raised when the Reply Engine is given something other than a frame the receiver accepts
  (`93_implementation_defined.md` U1); no step from a state with `ctrl = IDLE` does so. Safe (log 17). -/
  | engineMisuse
  deriving DecidableEq, Repr

/-- The state after start-up with configuration `c` (`70_reset_and_hazards.md` R157 to R159): the map zeroed, `ctrl`
idle, the transport configured. DESIGN CHOICE (log 6, log 10, log 11, log 24), unsafe: the transients, which the spec
leaves unspecified (`10_state.md` R29), are zero, the environment's queue, script and agenda are empty, and the mapper
owes no sample and is ahead by none. -/
def State.startup (c : Cfg) : State where
  cfg := c
  map := RegMap.zero
  phase := .header
  rxlen := 0
  need := 0
  rxbuf := List.replicate Config.maxAdu 0
  tries := 0
  rxStatus := 0
  rsp := List.replicate Config.maxAdu 0
  rsplen := 0
  ctrl := .idle
  queue := []
  arrivals := []
  agenda := []
  mapper := .even
  txLog := []
  delayLog := []
  snapshot := []
  linkBaud := some c.baudRate
  freeIdx := 0

/-- The machine right after reset, with the configuration of log 4. -/
def State.reset : State := State.startup Config.default

end Sys2Proof.Machine
end

