-- ==== Sys2Proof/Machine/Flags.lean ====
section
/-! DEFINITION. The block has no status flags (`10_state.md` R25): no operation of it computes a carry, zero or
overflow bit. The nearest thing is the receive status; this file holds its encodings (`10_state.md` R22). -/

namespace Sys2Proof.Machine

/-- `RX_NOT_ADDRESSED` = 0 (`10_state.md` R22). -/
def rxNotAddressed : Word := 0

/-- `RX_INVALID` = -1 (`10_state.md` R22). -/
def rxInvalid : Word := -1

/-- `RX_TIMEOUT` = -2 (`10_state.md` R22). -/
def rxTimeout : Word := -2

/-- The status of an accepted frame: its length, CRC bytes included (`10_state.md` R22). -/
def rxAccepted (n : Nat) : Word := BitVec.ofNat 16 n

/-- The sign test of the Session Loop, `rx_status > 0` in two's complement (`46_session_loop.md` R130). -/
def rxPositive (status : Word) : Bool := decide (0 < status.toInt)

end Sys2Proof.Machine
end

