-- ==== Sys2Proof/Machine/Ops.lean ====
section
/-! DEFINITION. The operations the meanings share: the Register Map's elements (`10_state.md` R14), address
translation (`20_memory.md` R34), the buffers, the sender (`42_reply_engine.md` R107, R108), taking a protocol exception
(R106) and returning from it (`60_exceptions.md` R147), the common frame of the Reply Engine (R112), and the polls of
the transport (`60_exceptions.md` R151). -/

namespace Sys2Proof.Machine

/-! ### Arrays in canonical form (log 8) -/

/-- Element `i` of an array; `d` is what an unlisted element reads as. -/
def Cells.read {α : Type} (d : α) : Cells α → Nat → α
  | [], _ => d
  | (j, v) :: rest, i => if j = i then v else Cells.read d rest i

/-- List element `i` with value `v`, before the first entry of a higher index. -/
def Cells.insert {α : Type} (i : Nat) (v : α) : Cells α → Cells α
  | [] => [(i, v)]
  | (j, w) :: rest => if i < j then (i, v) :: (j, w) :: rest else (j, w) :: Cells.insert i v rest

/-- Write element `i`, keeping the canonical form: the old entry goes, and a new one comes unless `v` is `d`. -/
def Cells.write {α : Type} [DecidableEq α] (d : α) (c : Cells α) (i : Nat) (v : α) : Cells α :=
  if v = d then c.filter fun p => p.1 ≠ i else Cells.insert i v (c.filter fun p => p.1 ≠ i)

/-- The canonical form: indices strictly rising, no entry equal to `d`, every index below the array's count. -/
abbrev Cells.wf {α : Type} [DecidableEq α] (d : α) (count : Nat) (c : Cells α) : Prop :=
  (c.map Prod.fst).Pairwise (· < ·) ∧ ∀ p ∈ c, p.2 ≠ d ∧ p.1 < count

/-- The Register Map is in canonical form and within its extents. -/
abbrev Memory.wf (c : Cfg) (m : RegMap) : Prop :=
  Cells.wf false c.coilCount m.coils ∧ Cells.wf false c.dinputCount m.dinputs
    ∧ Cells.wf 0#16 c.holdCount m.hold ∧ Cells.wf 0#16 c.inregCount m.inregs

/-- `coils[i]` or `dinputs[i]` (`00_scope.md` R10). -/
def readBit (m : RegMap) : BitSpace → Nat → Bool
  | .coils, i => Cells.read false m.coils i
  | .dinputs, i => Cells.read false m.dinputs i

/-- `hold[i]` or `inregs[i]` (`00_scope.md` R10). -/
def readReg (m : RegMap) : RegSpace → Nat → Word
  | .hold, i => Cells.read 0#16 m.hold i
  | .inregs, i => Cells.read 0#16 m.inregs i

/-- `coils[i] <- v` or `dinputs[i] <- v` (`00_scope.md` R10). -/
def writeBit (m : RegMap) : BitSpace → Nat → Bool → RegMap
  | .coils, i, v => { m with coils := Cells.write false m.coils i v }
  | .dinputs, i, v => { m with dinputs := Cells.write false m.dinputs i v }

/-- `hold[i] <- v` or `inregs[i] <- v` (`00_scope.md` R10). -/
def writeReg (m : RegMap) : RegSpace → Nat → Word → RegMap
  | .hold, i, v => { m with hold := Cells.write 0#16 m.hold i v }
  | .inregs, i, v => { m with inregs := Cells.write 0#16 m.inregs i v }

/-- `MemRead` of a bit space (`00_scope.md` R10). -/
def readBits (m : RegMap) (sp : BitSpace) (i n : Nat) : List Bool :=
  (List.range n).map fun k => readBit m sp (i + k)

/-- `MemRead` of a register space (`00_scope.md` R10). -/
def readRegs (m : RegMap) (sp : RegSpace) (i n : Nat) : List Word :=
  (List.range n).map fun k => readReg m sp (i + k)

/-- `MemWrite` of a bit space (`00_scope.md` R10), element by element in rising order. -/
def writeBits (m : RegMap) (sp : BitSpace) (i : Nat) : List Bool → RegMap
  | [] => m
  | v :: vs => writeBits (writeBit m sp i v) sp (i + 1) vs

/-- `MemWrite` of a register space (`00_scope.md` R10), element by element in rising order. -/
def writeRegs (m : RegMap) (sp : RegSpace) (i : Nat) : List Word → RegMap
  | [] => m
  | v :: vs => writeRegs (writeReg m sp i v) sp (i + 1) vs

/-! ### Address translation -/

/-- The base of a space (`20_memory.md` R32). -/
def base (c : Cfg) : Space → Nat
  | .bits .coils => c.coilStart.toNat
  | .bits .dinputs => c.dinputStart.toNat
  | .regs .hold => c.holdStart.toNat
  | .regs .inregs => c.inregStart.toNat

/-- The extent of a space (`20_memory.md` R32). -/
def extent (c : Cfg) : Space → Nat
  | .bits .coils => c.coilCount
  | .bits .dinputs => c.dinputCount
  | .regs .hold => c.holdCount
  | .regs .inregs => c.inregCount

/-- `mappingIndex`, a mathematical integer that may be negative (`20_memory.md` R34). -/
def mappingIndex (c : Cfg) (sp : Space) (addr : Word) : Int := (addr.toNat : Int) - (base c sp : Int)

/-- `Translate` (`20_memory.md` R34): the mapping index, or illegal-data-address. -/
def translate (c : Cfg) (sp : Space) (addr : Word) (count : Nat) : Except ProtocolException Nat :=
  if 0 ≤ mappingIndex c sp addr ∧ mappingIndex c sp addr + (count : Int) ≤ (extent c sp : Int) then
    .ok (mappingIndex c sp addr).toNat
  else .error .illegalDataAddress

/-! ### Buffers -/

/-- `buf[i] <- b`, the other bytes unchanged. -/
def bufSet (buf : List Byte) (i : Nat) (b : Byte) : List Byte := buf.take i ++ b :: buf.drop (i + 1)

/-- `buf[0..len(bs)) <- bs`, the other bytes unchanged. -/
def bufLoad (buf bs : List Byte) : List Byte := bs ++ buf.drop bs.length

/-! ### Responses -/

/-- Put bytes into the response buffer (`42_reply_engine.md` R105). -/
def setResponse (bytes : List Byte) (s : State) : State :=
  { s with rsp := bufLoad s.rsp bytes, rsplen := bytes.length }

/-- `Send` (`42_reply_engine.md` R107): append the CRC to the body and write the whole ADU in one call. -/
def send (body : List Byte) (s : State) : State :=
  { setResponse (appendCrc body) s with txLog := s.txLog ++ [appendCrc body] }

/-- The end of `Reply` (`42_reply_engine.md` R112): the body goes to the response buffer and is sent, but for a
broadcast request while `BROADCAST_REPLY` is false (R108). -/
def respond (slave : Byte) (body : List Byte) (s : State) : State :=
  if slave = Config.broadcastAddr ∧ s.cfg.broadcastReply = false then setResponse body s
  else send body (setResponse body s)

/-! ### Taking a protocol exception, and returning from it -/

/-- The exception codes (`30_encoding.md` R66). -/
def exceptionCode : ProtocolException → Byte
  | .illegalFunction => 0x01
  | .illegalDataAddress => 0x02
  | .illegalDataValue => 0x03

/-- The body of an exception response, format RSX (`42_reply_engine.md` R106). -/
def exceptionBody (slave fc : Byte) (e : ProtocolException) : List Byte :=
  [slave, fc ||| exceptionBit, exceptionCode e]

/-- `raise ProtocolException` (`42_reply_engine.md` R106, `60_exceptions.md` R145): nothing is saved and the Register
Map is not written; the exception response is built and sent like any other. -/
def takeException (slave fc : Byte) (e : ProtocolException) (s : State) : State :=
  respond slave (exceptionBody slave fc e) s

/-- The end of a tick, after an exchange of any outcome (`60_exceptions.md` R147): there is no return instruction; the
block is idle again. -/
def endTick (s : State) : State := { s with ctrl := .idle }

/-! ### The Reply Engine's common frame -/

/-- What a handler answers: the Register Map and the response body, or the exception it raises. -/
abbrev Handled := Except ProtocolException (RegMap × List Byte)

/-- `slave` is neither the configured identity nor the broadcast address (`30_encoding.md` R65). -/
abbrev Foreign (c : Cfg) (slave : Byte) : Prop := slave ≠ c.slaveId ∧ slave ≠ Config.broadcastAddr

/-- `Reply` (`42_reply_engine.md` R112) around a handler: the defensive re-check (R101), then the handler's effect on
the map and its response, or its exception. -/
def engine (slave fc : Byte) (handled : Handled) (s : State) : Host.Outcome State Fault Refusal :=
  if Foreign s.cfg slave then .next s
  else match handled with
    | .ok (m, body) => .next (respond slave body { s with map := m })
    | .error e => .next (takeException slave fc e s)

/-! ### The transport -/

/-- One poll `Transport.available()`: what has arrived since the last poll joins the queue; the count reported is the
queue's length afterwards (`60_exceptions.md` R151; log 2). -/
def poll (s : State) : State :=
  match s.arrivals with
  | [] => s
  | batch :: rest => { s with queue := s.queue ++ batch, arrivals := rest }

/-- One `Timing.delay(RX_QUANTUM_MS)` (`60_exceptions.md` R152). -/
def delay (s : State) : State := { s with delayLog := s.delayLog ++ [s.cfg.rxQuantumMs] }

/-! ### The host's ports -/

/-- What `COIL_SNAPSHOT` carries (`46_session_loop.md` R133): `coils[0..3)`, existing elements only
(`93_implementation_defined.md` U9). -/
def coilSnapshot (s : State) : List Bool := readBits s.map .coils 0 (min 3 s.cfg.coilCount)

/-- `COIL_SNAPSHOT` (`46_session_loop.md` R133): the mapper is given the coils as they stand; nothing else changes. -/
def sampleCoils (s : State) : State := { s with snapshot := coilSnapshot s }

/-- `INPUT_LOAD` of a discrete input (`10_state.md` R27); an index without an element faults (log 16). -/
def loadDinput (index : Nat) (value : Bool) (s : State) : Host.Outcome State Fault Refusal :=
  if index < s.cfg.dinputCount then .next { s with map := writeBit s.map .dinputs index value }
  else .fault (.noSuchElement (.bits .dinputs) index)

/-- `INPUT_LOAD` of an input register (`10_state.md` R27); an index without an element faults (log 16). -/
def loadInreg (index : Nat) (value : Word) (s : State) : Host.Outcome State Fault Refusal :=
  if index < s.cfg.inregCount then .next { s with map := writeReg s.map .inregs index value }
  else .fault (.noSuchElement (.regs .inregs) index)

/-- `RESET` during operation (`70_reset_and_hazards.md` R157): the map is zeroed and `ctrl` is idle; the configuration
is untouched, and the transients, which the spec leaves unspecified, keep their contents (log 7). -/
def resetMove (s : State) : State := { s with map := RegMap.zero, ctrl := .idle }

end Sys2Proof.Machine
end

