-- ==== Sys2Proof/Machine/Reads.lean ====
section
/-! DEFINITION. The read functions (`43_read_functions.md`): RDCOILS, RDDISC, RDHOLD, RDINREG. None writes the map. -/

namespace Sys2Proof.Machine

/-- `ReadBits` (`43_read_functions.md` R115, R116): the quantity check, then `Translate`, then format RSB. -/
def readBitsHandler (sp : BitSpace) (slave fc : Byte) (addr qty : Word) (s : State) : Handled :=
  if qty.toNat < 1 ∨ qty.toNat > Config.qtyMaxReadBits then .error .illegalDataValue
  else match translate s.cfg (.bits sp) addr qty.toNat with
    | .error e => .error e
    | .ok i =>
      let packed := packBits (readBits s.map sp i qty.toNat)
      .ok (s.map, [slave, fc, BitVec.ofNat 8 packed.length] ++ packed)

/-- `ReadRegs` (`43_read_functions.md` R117, R118): the quantity check, then `Translate`, then format RSR. -/
def readRegsHandler (sp : RegSpace) (slave fc : Byte) (addr qty : Word) (s : State) : Handled :=
  if qty.toNat < 1 ∨ qty.toNat > Config.qtyMaxReadRegs then .error .illegalDataValue
  else match translate s.cfg (.regs sp) addr qty.toNat with
    | .error e => .error e
    | .ok i =>
      .ok (s.map, [slave, fc, BitVec.ofNat 8 (2 * qty.toNat)] ++ regBytes (readRegs s.map sp i qty.toNat))

/-- `RDCOILS` (`43_read_functions.md` R115). -/
def execRdcoils (slave : Byte) (addr qty : Word) (s : State) : Host.Outcome State Fault Refusal :=
  engine slave fcReadCoils (readBitsHandler .coils slave fcReadCoils addr qty s) s

/-- `RDDISC` (`43_read_functions.md` R116). -/
def execRddisc (slave : Byte) (addr qty : Word) (s : State) : Host.Outcome State Fault Refusal :=
  engine slave fcReadDiscreteInputs (readBitsHandler .dinputs slave fcReadDiscreteInputs addr qty s) s

/-- `RDHOLD` (`43_read_functions.md` R117). -/
def execRdhold (slave : Byte) (addr qty : Word) (s : State) : Host.Outcome State Fault Refusal :=
  engine slave fcReadHoldingRegisters (readRegsHandler .hold slave fcReadHoldingRegisters addr qty s) s

/-- `RDINREG` (`43_read_functions.md` R118). -/
def execRdinreg (slave : Byte) (addr qty : Word) (s : State) : Host.Outcome State Fault Refusal :=
  engine slave fcReadInputRegisters (readRegsHandler .inregs slave fcReadInputRegisters addr qty s) s

end Sys2Proof.Machine
end

