-- ==== Sys2Proof/Machine/Unsupported.lean ====
section
/-! DEFINITION. The unsupported function codes (`45_unsupported_functions.md`): MASKWR, WRRDREGS, OTHER. The effect
the spec gives each is to take the illegal-function exception; no operand is looked at. -/

namespace Sys2Proof.Machine

/-- `MASKWR` (`45_unsupported_functions.md` R125): the metadata is not interpreted. -/
def execMaskwr (slave : Byte) (_mdata : List Byte) (s : State) : Host.Outcome State Fault Refusal :=
  engine slave fcMaskWriteRegister (.error .illegalFunction) s

/-- `WRRDREGS` (`45_unsupported_functions.md` R126): nothing is written and nothing is read. -/
def execWrrdregs (slave : Byte) (_mdata _data : List Byte) (s : State) : Host.Outcome State Fault Refusal :=
  engine slave fcWriteAndReadRegisters (.error .illegalFunction) s

/-- `OTHER` (`45_unsupported_functions.md` R127). -/
def execOther (slave fc : Byte) (s : State) : Host.Outcome State Fault Refusal :=
  engine slave fc (.error .illegalFunction) s

end Sys2Proof.Machine
end

