-- ==== Sys2Proof/Machine/Writes.lean ====
section
/-! DEFINITION. The write functions (`44_write_functions.md`): WRCOIL, WRREG, WRMCOILS, WRMREGS. Every check comes
before the first write (`42_reply_engine.md` R103, R111). -/

namespace Sys2Proof.Machine

/-- Format RSE (`30_encoding.md` R60): the request's first six bytes. -/
def echoBody (slave fc : Byte) (addr val : Word) : List Byte := [slave, fc] ++ beBytes addr ++ beBytes val

/-- The length cross-check (`42_reply_engine.md` R110): `n` is the positive `rx_status`. -/
abbrev lengthMismatch (s : State) : Prop := s.rxStatus ≠ BitVec.ofNat 16 Config.expectedRspLen

/-- `WriteSingleCoil` (`44_write_functions.md` R120). -/
def writeSingleCoil (slave : Byte) (addr val : Word) (s : State) : Handled :=
  if val ≠ 0x0000#16 ∧ val ≠ 0xFF00#16 then .error .illegalDataValue
  else match translate s.cfg (.bits .coils) addr 1 with
    | .error e => .error e
    | .ok i =>
      if lengthMismatch s then .error .illegalDataValue
      else .ok (writeBit s.map .coils i (decide (val = 0xFF00#16)), echoBody slave fcWriteSingleCoil addr val)

/-- `WriteSingleRegister` (`44_write_functions.md` R121). -/
def writeSingleRegister (slave : Byte) (addr val : Word) (s : State) : Handled :=
  match translate s.cfg (.regs .hold) addr 1 with
  | .error e => .error e
  | .ok i =>
    if lengthMismatch s then .error .illegalDataValue
    else .ok (writeReg s.map .hold i val, echoBody slave fcWriteSingleRegister addr val)

/-- `WriteMultipleCoils` (`44_write_functions.md` R122). -/
def writeMultipleCoils (slave : Byte) (addr qty : Word) (bytecount : Byte) (data : List Byte) (s : State) : Handled :=
  if qty.toNat < 1 ∨ qty.toNat > Config.qtyMaxWriteBits then .error .illegalDataValue
  else if bytecount.toNat * 8 < qty.toNat then .error .illegalDataValue
  else match translate s.cfg (.bits .coils) addr qty.toNat with
    | .error e => .error e
    | .ok i => .ok (writeBits s.map .coils i (unpackBits data qty.toNat), echoBody slave fcWriteMultipleCoils addr qty)

/-- `WriteMultipleRegisters` (`44_write_functions.md` R123). -/
def writeMultipleRegisters (slave : Byte) (addr qty : Word) (bytecount : Byte) (data : List Byte) (s : State) :
    Handled :=
  if qty.toNat < 1 ∨ qty.toNat > Config.qtyMaxWriteRegs then .error .illegalDataValue
  else if bytecount.toNat ≠ 2 * qty.toNat then .error .illegalDataValue
  else match translate s.cfg (.regs .hold) addr qty.toNat with
    | .error e => .error e
    | .ok i =>
      .ok (writeRegs s.map .hold i (unpackRegs data qty.toNat), echoBody slave fcWriteMultipleRegisters addr qty)

/-- `WRCOIL` (`44_write_functions.md` R120). -/
def execWrcoil (slave : Byte) (addr val : Word) (s : State) : Host.Outcome State Fault Refusal :=
  engine slave fcWriteSingleCoil (writeSingleCoil slave addr val s) s

/-- `WRREG` (`44_write_functions.md` R121). -/
def execWrreg (slave : Byte) (addr val : Word) (s : State) : Host.Outcome State Fault Refusal :=
  engine slave fcWriteSingleRegister (writeSingleRegister slave addr val s) s

/-- `WRMCOILS` (`44_write_functions.md` R122). -/
def execWrmcoils (slave : Byte) (addr qty : Word) (bytecount : Byte) (data : List Byte) (s : State) :
    Host.Outcome State Fault Refusal :=
  engine slave fcWriteMultipleCoils (writeMultipleCoils slave addr qty bytecount data s) s

/-- `WRMREGS` (`44_write_functions.md` R123). -/
def execWrmregs (slave : Byte) (addr qty : Word) (bytecount : Byte) (data : List Byte) (s : State) :
    Host.Outcome State Fault Refusal :=
  engine slave fcWriteMultipleRegisters (writeMultipleRegisters slave addr qty bytecount data s) s

end Sys2Proof.Machine
end

