-- ==== Sys2Proof/Syntax.lean ====
section
/-! DEFINITION. The instructions of the block: request frames, one constructor for each row of the function-code map
(`30_encoding.md` R62), with the operands of `30_encoding.md` R53 to R58 and R68. The CRC field is no operand: it is a
function of the bytes before it. -/

namespace Sys2Proof

/-- One request frame (`00_scope.md` R8); `slave` is the address byte `frame[0]`. -/
inductive Instr where
  /-- Read Coils, function code 0x01, format RQ4. -/
  | rdcoils (slave : Byte) (addr qty : Word)
  /-- Read Discrete Inputs, function code 0x02, format RQ4. -/
  | rddisc (slave : Byte) (addr qty : Word)
  /-- Read Holding Registers, function code 0x03, format RQ4. -/
  | rdhold (slave : Byte) (addr qty : Word)
  /-- Read Input Registers, function code 0x04, format RQ4. -/
  | rdinreg (slave : Byte) (addr qty : Word)
  /-- Write Single Coil, function code 0x05, format RQ4. -/
  | wrcoil (slave : Byte) (addr val : Word)
  /-- Write Single Register, function code 0x06, format RQ4. -/
  | wrreg (slave : Byte) (addr val : Word)
  /-- Write Multiple Coils, function code 0x0F, format RQM: `bytecount` is the declared byte count. -/
  | wrmcoils (slave : Byte) (addr qty : Word) (bytecount : Byte) (data : List Byte)
  /-- Write Multiple Registers, function code 0x10, format RQM. -/
  | wrmregs (slave : Byte) (addr qty : Word) (bytecount : Byte) (data : List Byte)
  /-- mask-write, function code 0x16, format RQK: six metadata bytes. -/
  | maskwr (slave : Byte) (mdata : List Byte)
  /-- write-and-read-registers, function code 0x17, format RQW: nine metadata bytes, the last the byte count. -/
  | wrrdregs (slave : Byte) (mdata : List Byte) (data : List Byte)
  /-- Every other function code, format RQ0. -/
  | other (slave : Byte) (fc : Byte)
  deriving DecidableEq, Repr

end Sys2Proof
end

