-- ==== Sys2Proof/Machine/Dispatch.lean ====
section
/-! DEFINITION. The dispatch of the Reply Engine (`42_reply_engine.md` R102, R112): one arm for each request. -/

namespace Sys2Proof.Machine

def exec (i : Instr) (s : State) : Host.Outcome State Fault Refusal :=
  match i with
  | .rdcoils slave addr qty => Sys2Proof.Machine.execRdcoils slave addr qty s
  | .rddisc slave addr qty => Sys2Proof.Machine.execRddisc slave addr qty s
  | .rdhold slave addr qty => Sys2Proof.Machine.execRdhold slave addr qty s
  | .rdinreg slave addr qty => Sys2Proof.Machine.execRdinreg slave addr qty s
  | .wrcoil slave addr val => Sys2Proof.Machine.execWrcoil slave addr val s
  | .wrreg slave addr val => Sys2Proof.Machine.execWrreg slave addr val s
  | .wrmcoils slave addr qty bytecount data => Sys2Proof.Machine.execWrmcoils slave addr qty bytecount data s
  | .wrmregs slave addr qty bytecount data => Sys2Proof.Machine.execWrmregs slave addr qty bytecount data s
  | .maskwr slave mdata => Sys2Proof.Machine.execMaskwr slave mdata s
  | .wrrdregs slave mdata data => Sys2Proof.Machine.execWrrdregs slave mdata data s
  | .other slave fc => Sys2Proof.Machine.execOther slave fc s

end Sys2Proof.Machine
end

