-- ==== Sys2Proof/WellFormed.lean ====
section
/-! DEFINITION. Which terms of `Instr` are request frames: the byte counts agree with the data they count and stay
within what the receiver accepts, and `other` stands for an unlisted function code only. -/

namespace Sys2Proof

/-- Format RQM (`30_encoding.md` R55): `bytecount` data bytes, at most 251 of them. -/
def Instr.wellFormedRqm (bytecount : Byte) (data : List Byte) : Bool :=
  data.length == bytecount.toNat && bytecount.toNat ≤ 251

/-- Format RQK (`30_encoding.md` R56): six metadata bytes. -/
def Instr.wellFormedRqk (mdata : List Byte) : Bool := mdata.length == 6

/-- Format RQW (`30_encoding.md` R57): nine metadata bytes, the last of which counts the data bytes, at most 247. -/
def Instr.wellFormedRqw (mdata data : List Byte) : Bool :=
  mdata.length == 9 && data.length == (mdata.getD 8 0).toNat && data.length ≤ 247

/-- Format RQ0 (`30_encoding.md` R58): a function code in none of the other rows. -/
def Instr.wellFormedRq0 (fc : Byte) : Bool := !Machine.listedCodes.contains fc

/-- A term that is the reading of some request frame (`30_encoding.md` R53 to R58). -/
def Instr.wellFormed : Instr → Bool
  | .rdcoils _ _ _ => true
  | .rddisc _ _ _ => true
  | .rdhold _ _ _ => true
  | .rdinreg _ _ _ => true
  | .wrcoil _ _ _ => true
  | .wrreg _ _ _ => true
  | .wrmcoils _ _ _ bytecount data => Instr.wellFormedRqm bytecount data
  | .wrmregs _ _ _ bytecount data => Instr.wellFormedRqm bytecount data
  | .maskwr _ mdata => Instr.wellFormedRqk mdata
  | .wrrdregs _ mdata data => Instr.wellFormedRqw mdata data
  | .other _ fc => Instr.wellFormedRq0 fc

/-- The address byte `frame[0]` of a request (`30_encoding.md` R65). -/
def Instr.slave : Instr → Byte
  | .rdcoils slave _ _ => slave
  | .rddisc slave _ _ => slave
  | .rdhold slave _ _ => slave
  | .rdinreg slave _ _ => slave
  | .wrcoil slave _ _ => slave
  | .wrreg slave _ _ => slave
  | .wrmcoils slave _ _ _ _ => slave
  | .wrmregs slave _ _ _ _ => slave
  | .maskwr slave _ => slave
  | .wrrdregs slave _ _ => slave
  | .other slave _ => slave

/-- The function code `frame[1]` of a request (`30_encoding.md` R62). -/
def Instr.code : Instr → Byte
  | .rdcoils _ _ _ => Machine.fcReadCoils
  | .rddisc _ _ _ => Machine.fcReadDiscreteInputs
  | .rdhold _ _ _ => Machine.fcReadHoldingRegisters
  | .rdinreg _ _ _ => Machine.fcReadInputRegisters
  | .wrcoil _ _ _ => Machine.fcWriteSingleCoil
  | .wrreg _ _ _ => Machine.fcWriteSingleRegister
  | .wrmcoils _ _ _ _ _ => Machine.fcWriteMultipleCoils
  | .wrmregs _ _ _ _ _ => Machine.fcWriteMultipleRegisters
  | .maskwr _ _ => Machine.fcMaskWriteRegister
  | .wrrdregs _ _ _ => Machine.fcWriteAndReadRegisters
  | .other _ fc => fc

end Sys2Proof
end

