-- ==== Sys2Proof/Decode.lean ====
section
/-! DEFINITION. The decoder of request frames (length inference `41_receiver.md` R86, R90, R91, fields
`30_encoding.md` R53 to R59), total on any bytes; the encoder, written from the same tables (`30_encoding.md` R68);
and the reading of an opcode-table word. -/

namespace Sys2Proof

/-- Why a byte sequence does not begin with a request frame. -/
inductive DecodeError where
  /-- The bytes end before the frame does. -/
  | truncated
  /-- The projected length exceeds `MAX_ADU` (`41_receiver.md` R91). -/
  | oversize
  /-- The CRC field does not match (`41_receiver.md` R92). -/
  | badCrc
  deriving DecidableEq, Repr

/-- `MetaLen` (`41_receiver.md` R86). -/
def metaLen (fc : Byte) : Nat :=
  if fc = Machine.fcReadCoils ∨ fc = Machine.fcReadDiscreteInputs ∨ fc = Machine.fcReadHoldingRegisters
      ∨ fc = Machine.fcReadInputRegisters ∨ fc = Machine.fcWriteSingleCoil ∨ fc = Machine.fcWriteSingleRegister
    then 4
  else if fc = Machine.fcWriteMultipleCoils ∨ fc = Machine.fcWriteMultipleRegisters then 5
  else if fc = Machine.fcMaskWriteRegister then 6
  else if fc = Machine.fcWriteAndReadRegisters then 9
  else 0

/-- `DataLen` (`41_receiver.md` R90), on the bytes received so far. -/
def dataLen (frame : List Byte) : Nat :=
  if Machine.byteAt frame 1 = Machine.fcWriteMultipleCoils
      ∨ Machine.byteAt frame 1 = Machine.fcWriteMultipleRegisters
    then (Machine.byteAt frame 6).toNat
  else if Machine.byteAt frame 1 = Machine.fcWriteAndReadRegisters then (Machine.byteAt frame 10).toNat
  else 0

/-- The inferred total length, column 5 of `30_encoding.md` R53: header, metadata, data, CRC. -/
def totalLen (frame : List Byte) : Nat := 2 + metaLen (Machine.byteAt frame 1) + dataLen frame + 2

/-- The operands of a complete frame, by its function code (`30_encoding.md` R54 to R58, R62). -/
def parse (frame : List Byte) : Instr :=
  let slave := Machine.byteAt frame 0
  let fc := Machine.byteAt frame 1
  let addr := Machine.wordAt frame 2
  let val := Machine.wordAt frame 4
  let bytecount := Machine.byteAt frame 6
  if fc = Machine.fcReadCoils then .rdcoils slave addr val
  else if fc = Machine.fcReadDiscreteInputs then .rddisc slave addr val
  else if fc = Machine.fcReadHoldingRegisters then .rdhold slave addr val
  else if fc = Machine.fcReadInputRegisters then .rdinreg slave addr val
  else if fc = Machine.fcWriteSingleCoil then .wrcoil slave addr val
  else if fc = Machine.fcWriteSingleRegister then .wrreg slave addr val
  else if fc = Machine.fcWriteMultipleCoils then
    .wrmcoils slave addr val bytecount ((frame.drop 7).take bytecount.toNat)
  else if fc = Machine.fcWriteMultipleRegisters then
    .wrmregs slave addr val bytecount ((frame.drop 7).take bytecount.toNat)
  else if fc = Machine.fcMaskWriteRegister then .maskwr slave ((frame.drop 2).take 6)
  else if fc = Machine.fcWriteAndReadRegisters then
    .wrrdregs slave ((frame.drop 2).take 9) ((frame.drop 11).take (Machine.byteAt frame 10).toNat)
  else .other slave fc

/-- The request frame at the head of a byte sequence, and the bytes after it. The checks stand in the receiver's
order: header, metadata, oversize, the rest of the frame, CRC (`41_receiver.md` R94). -/
def decode (bytes : List Byte) : Except DecodeError (Instr × List Byte) :=
  if bytes.length < 2 then .error .truncated
  else if bytes.length < 2 + metaLen (Machine.byteAt bytes 1) then .error .truncated
  else if totalLen bytes > Config.maxAdu then .error .oversize
  else if bytes.length < totalLen bytes then .error .truncated
  else if Machine.validate (bytes.take (totalLen bytes)) = none then .error .badCrc
  else .ok (parse (bytes.take (totalLen bytes)), bytes.drop (totalLen bytes))

/-- The bytes of a request before its CRC field (`30_encoding.md` R68). -/
def encodeBody : Instr → List Byte
  | .rdcoils slave addr qty =>
    [slave, Machine.fcReadCoils] ++ Machine.beBytes addr ++ Machine.beBytes qty
  | .rddisc slave addr qty =>
    [slave, Machine.fcReadDiscreteInputs] ++ Machine.beBytes addr ++ Machine.beBytes qty
  | .rdhold slave addr qty =>
    [slave, Machine.fcReadHoldingRegisters] ++ Machine.beBytes addr ++ Machine.beBytes qty
  | .rdinreg slave addr qty =>
    [slave, Machine.fcReadInputRegisters] ++ Machine.beBytes addr ++ Machine.beBytes qty
  | .wrcoil slave addr val =>
    [slave, Machine.fcWriteSingleCoil] ++ Machine.beBytes addr ++ Machine.beBytes val
  | .wrreg slave addr val =>
    [slave, Machine.fcWriteSingleRegister] ++ Machine.beBytes addr ++ Machine.beBytes val
  | .wrmcoils slave addr qty bytecount data =>
    [slave, Machine.fcWriteMultipleCoils] ++ Machine.beBytes addr ++ Machine.beBytes qty ++ [bytecount] ++ data
  | .wrmregs slave addr qty bytecount data =>
    [slave, Machine.fcWriteMultipleRegisters] ++ Machine.beBytes addr ++ Machine.beBytes qty ++ [bytecount] ++ data
  | .maskwr slave mdata => [slave, Machine.fcMaskWriteRegister] ++ mdata
  | .wrrdregs slave mdata data => [slave, Machine.fcWriteAndReadRegisters] ++ mdata ++ data
  | .other slave fc => [slave, fc]

/-- The request frame of an instruction, CRC included (`30_encoding.md` R68). -/
def encode (i : Instr) : List Byte := Machine.appendCrc (encodeBody i)

/-- The bytes an opcode-table word stands for, in the table's numbering: byte `j` is bits `8j+7..8j`. -/
def tableBytes (nbits w : Nat) : List Byte :=
  (List.range (nbits / 8)).map fun j => BitVec.ofNat 8 (w >>> (8 * j))

/-- The request frame an opcode-table word stands for (log 12). The table numbers its bits from the function code
`frame[1]` on; the address byte and every byte above the word's bits are 0, and the CRC field is the right one. -/
def tableFrame (nbits w : Nat) : List Byte :=
  let padded := [Config.broadcastAddr] ++ tableBytes nbits w ++ List.replicate Config.maxAdu 0
  Machine.appendCrc (padded.take (totalLen padded - 2))

/-- The instruction the decoder reads from an opcode-table word. -/
def decodeTableWord (nbits w : Nat) : Option Instr :=
  match decode (tableFrame nbits w) with
  | .ok (i, _) => some i
  | .error _ => none

end Sys2Proof
end

