-- ==== Sys2Proof/Machine/Receiver.lean ====
section
/-! DEFINITION. The Frame Receiver (`41_receiver.md`), fetch and decode of a request: byte acquisition with the
per-byte timeout (R83), the flush (R88), and the three phases (R82 to R96). The loop of R94 is written phase by phase,
each phase recursing on the counter `need` (log 18). -/

namespace Sys2Proof.Machine

/-- The result of `AcquireByte` (`41_receiver.md` R83): `Byte(b)` or `Gap`, with the state after it. -/
inductive Acquired where
  | byte (b : Byte) (s : State)
  | gap (s : State)

/-- The result of reading a number of bytes: all of them came, or a gap ended the receive. -/
inductive Received where
  | all (s : State)
  | gap (s : State)

/-- The loop of `AcquireByte` (`41_receiver.md` R83), `left` being `RX_RETRIES - tries`: poll; take the oldest byte if
there is one; else give up when no delay is left, or delay and poll again. -/
def acquireLoop : Nat → State → Acquired
  | left, s =>
    match (poll s).queue with
    | b :: q => .byte b { poll s with queue := q }
    | [] =>
      match left with
      | 0 => .gap (poll s)
      | left + 1 => acquireLoop left { delay (poll s) with tries := s.tries + 1 }

/-- `AcquireByte` (`41_receiver.md` R83). -/
def acquireByte (s : State) : Acquired := acquireLoop s.cfg.rxRetries { s with tries := 0 }

/-- What the receiver does on `Byte(b)` (`41_receiver.md` R85). -/
def storeByte (b : Byte) (s : State) : State :=
  { s with rxbuf := bufSet s.rxbuf s.rxlen b, rxlen := s.rxlen + 1, need := s.need - 1 }

/-- Acquire and store `n` bytes, stopping at a gap (`41_receiver.md` R85, R94). -/
def readBytes : Nat → State → Received
  | 0, s => .all s
  | n + 1, s =>
    match acquireByte s with
    | .byte b t => readBytes n (storeByte b t)
    | .gap t => .gap t

/-- `Flush` (`41_receiver.md` R88), `left` being `MAX_ADU - n`: discard bytes while one is available, without
waiting, at most `MAX_ADU` of them. -/
def flush : Nat → State → State
  | 0, s => s
  | left + 1, s =>
    match (poll s).queue with
    | [] => poll s
    | _ :: q => flush left { poll s with queue := q }

/-- `raise RxFailure(status)`, and the return of an accepted length alike (`00_scope.md` R10). -/
def rxReturn (status : Word) (s : State) : State := { s with rxStatus := status }

/-- The end of the DATA phase (`41_receiver.md` R92). -/
def endData (s : State) : State :=
  match validate (s.rxbuf.take s.rxlen) with
  | none => rxReturn rxInvalid s
  | some _ => rxReturn (rxAccepted s.rxlen) s

/-- What the end of the META phase computes (`41_receiver.md` R89). -/
def startData (s : State) : State := { s with need := dataLen s.rxbuf + 2, phase := .data }

/-- The end of the META phase (`41_receiver.md` R89, R91) and the DATA phase. -/
def endMeta (s : State) : State :=
  if s.rxlen + (startData s).need > Config.maxAdu then rxReturn rxInvalid (startData s)
  else match readBytes (startData s).need (startData s) with
    | .gap t => rxReturn rxTimeout t
    | .all t => endData t

/-- What the end of the HEADER phase computes (`41_receiver.md` R87). -/
def startMeta (s : State) : State := { s with need := metaLen (byteAt s.rxbuf 1), phase := .metadata }

/-- The end of the HEADER phase (`41_receiver.md` R87): the address filter, and the META phase. -/
def endHeader (s : State) : State :=
  if Foreign s.cfg (byteAt s.rxbuf 0) then rxReturn rxNotAddressed (flush Config.maxAdu s)
  else match readBytes (startMeta s).need (startMeta s) with
    | .gap t => rxReturn rxTimeout t
    | .all t => endMeta t

/-- Initialisation at every call (`41_receiver.md` R82). -/
def startHeader (s : State) : State := { s with rxlen := 0, need := 2, phase := .header }

/-- `Receive` (`41_receiver.md` R94); the status is left in `rxStatus`. -/
def receive (s : State) : State :=
  match readBytes (startHeader s).need (startHeader s) with
  | .gap t => rxReturn rxTimeout t
  | .all t => endHeader t

end Sys2Proof.Machine
end

