-- ==== Sys2Proof/Machine/Session.lean ====
section
/-! DEFINITION. The Session Loop (`46_session_loop.md`): one iteration, which is what a tick does, and the environment's
moves while the block is idle, ticks and coil samples among them (`70_reset_and_hazards.md` R162). One step of the
machine is one move (log 1). -/

namespace Sys2Proof.Machine

/-- The invocation of the Reply Engine (`46_session_loop.md` R130): the accepted frame `rxbuf[0..rx_status)` is read as
a request and executed. Bytes that are no request frame are no output of the receiver (log 17). -/
def reply (s : State) : Host.Outcome State Fault Refusal :=
  match decode (s.rxbuf.take s.rxStatus.toNat) with
  | .ok (i, _) => exec i s
  | .error _ => .refused .engineMisuse

/-- The end of the tick after the Reply Engine has returned. -/
def afterReply : Host.Outcome State Fault Refusal → Host.Outcome State Fault Refusal
  | .next s => .next (endTick s)
  | .fault f => .fault f
  | .refused r => .refused r

/-- What follows the receiver (`46_session_loop.md` R130): a reply on a positive status, nothing on any other. -/
def afterReceive (s : State) : Host.Outcome State Fault Refusal :=
  if rxPositive s.rxStatus then afterReply (reply { s with ctrl := .replying }) else .next (endTick s)

/-- One iteration (`46_session_loop.md` R130), beginning with its poll of the transport. -/
def iteration (s : State) : Host.Outcome State Fault Refusal :=
  if (poll s).queue = [] then .next (endTick (poll s))
  else afterReceive (receive { poll s with ctrl := .receiving })

/-- Where the output mapper stands in its contract after a move (`46_session_loop.md` R133; log 24). -/
def mapperAfter : HostMove → Mapper → Mapper
  | .tick, .early => .even
  | .tick, _ => .late
  | .sample, .late => .even
  | .sample, _ => .early
  | .loadDinput _ _, m => m
  | .loadInreg _ _, m => m
  | .reset, m => m

/-- The move of an environment that is left to itself and owes nothing: on which side of the coming tick the sample
falls is the free value's choice (`92_eei_decisions.md` D18; log 9). -/
def freeMove (k : Nat) : HostMove :=
  match Config.snapshotTime k with
  | .before => .sample
  | .after => .tick

/-- The environment's next move, and the state with that move taken off the agenda. It is the first of the agenda, but
that a tick waits for the sample the last tick still owes, and a second sample for the tick it belongs to: the contract
is one sample a tick (`46_session_loop.md` R133; DESIGN CHOICE, log 24, unsafe for a mapper that breaks the contract).
When the agenda is used up the tick source and the mapper go on by the same contract (log 3). -/
def schedule (s : State) : HostMove × State :=
  match s.agenda, s.mapper with
  | .tick :: _, .late => (.sample, s)
  | .sample :: _, .early => (.tick, s)
  | m :: rest, _ => (m, { s with agenda := rest })
  | [], .late => (.sample, s)
  | [], .early => (.tick, s)
  | [], .even => (freeMove s.freeIdx, { s with freeIdx := s.freeIdx + 1 })

/-- The environment's next move. -/
def nextMove (s : State) : HostMove := (schedule s).1

/-- The state in which the next move takes place: the move is off the agenda, and the mapper's record has it. -/
def consumed (s : State) : State := { (schedule s).2 with mapper := mapperAfter (nextMove s) s.mapper }

/-- A move of the environment (`70_reset_and_hazards.md` R162): a tick is one iteration (`46_session_loop.md` R129,
R130). -/
def perform : HostMove → State → Host.Outcome State Fault Refusal
  | .tick, s => iteration s
  | .sample, s => .next (sampleCoils s)
  | .loadDinput index value, s => loadDinput index value s
  | .loadInreg index value, s => loadInreg index value s
  | .reset, s => .next (resetMove s)

/-- One step: a configuration of this hardware (`93_implementation_defined.md` U2), an idle block
(`46_session_loop.md` R129), and then one move. -/
def advance (s : State) : Host.Outcome State Fault Refusal :=
  if ¬ s.cfg.Legal then .refused .illegalConfiguration
  else if s.ctrl ≠ .idle then .refused .busy
  else perform (nextMove s) (consumed s)

/-- Place a request frame where the next step fetches: at the head of the transport's queue, the next move a tick and
the block idle (log 12). DESIGN CHOICE (log 12), unsafe for a claim on the snapshots: a sample that the last tick still
owes counts as taken, since no tick comes before it. -/
def placeFrame (frame : List Byte) (s : State) : State :=
  { s with queue := frame ++ s.queue, agenda := .tick :: s.agenda, ctrl := .idle,
           mapper := match s.mapper with
             | .late => .even
             | m => m }

end Sys2Proof.Machine
end

