-- ==== Sys2Proof/Machine/Step.lean ====
section
/-! DEFINITION. One step of the machine, and the placing of an opcode-table word where it fetches. -/

namespace Sys2Proof.Machine

/-- One step (`46_session_loop.md` R129, R130; log 1). -/
def step (s : State) : Host.Outcome State Fault Refusal := advance s

/-- `s` with the request frame of an opcode-table word where the next step fetches (log 12). -/
def State.withFetchWord (s : State) (nbits w : Nat) : State := placeFrame (tableFrame nbits w) s

end Sys2Proof.Machine
end

