-- ==== Sys2Proof/Safety.lean ====
section
/-! DEFINITION. The terms in which claims about the machine are made: an address byte accepted by the filter, a run of
elements inside a space, what a response is, what a request may touch, the invariant, the transients, and the
receiver's loop as `41_receiver.md` R94 writes it. -/

namespace Sys2Proof.Safety

open Sys2Proof.Machine

/-- The address bytes the block answers to: `SLAVE_ID` and the broadcast address 0 (`30_encoding.md` R65). -/
abbrev Accepted (c : Cfg) (slave : Byte) : Prop := slave = c.slaveId ∨ slave = 0

/-- The protocol addresses `[addr, addr + n)` lie in the populated part of the space (`20_memory.md` R32, R34). -/
abbrev InExtent (c : Cfg) (sp : Space) (addr : Word) (n : Nat) : Prop :=
  base c sp ≤ addr.toNat ∧ addr.toNat - base c sp + n ≤ extent c sp

/-- The mapping index of an address at or above the base (`20_memory.md` R34). -/
def index (c : Cfg) (sp : Space) (addr : Word) : Nat := addr.toNat - base c sp

/-- From `s` to `t` the response `body` was built and, unless it answers a broadcast while BROADCAST_REPLY is false,
sent with its CRC in one write (`42_reply_engine.md` R107, R108). -/
def Answers (s t : State) (slave : Byte) (body : List Byte) : Prop :=
  if slave = 0 ∧ s.cfg.broadcastReply = false then
    t.txLog = s.txLog ∧ t.rsplen = body.length ∧ t.rsp.take t.rsplen = body
  else
    t.txLog = s.txLog ++ [appendCrc body] ∧ t.rsplen = body.length + 2 ∧ t.rsp.take t.rsplen = appendCrc body

/-- From `s` to `t` only the Register Map, the response buffer and the transmitted bytes changed. -/
def OnlyReplies (s t : State) : Prop :=
  t = { s with map := t.map, rsp := t.rsp, rsplen := t.rsplen, txLog := t.txLog }

/-- From `m` to `m'` at most the elements `[i, i + n)` of one bit array changed. -/
def OnlyBits (m m' : RegMap) (sp : BitSpace) (i n : Nat) : Prop :=
  (∀ sp' k, (sp' ≠ sp ∨ k < i ∨ i + n ≤ k) → readBit m' sp' k = readBit m sp' k)
    ∧ ∀ r k, readReg m' r k = readReg m r k

/-- From `m` to `m'` at most the elements `[i, i + n)` of one register array changed. -/
def OnlyRegs (m m' : RegMap) (sp : RegSpace) (i n : Nat) : Prop :=
  (∀ sp' k, (sp' ≠ sp ∨ k < i ∨ i + n ≤ k) → readReg m' sp' k = readReg m sp' k)
    ∧ ∀ b k, readBit m' b k = readBit m b k

/-- `packed` holds the `q` bits `f 0, f 1, …`, element `k` at bit `k mod 8` of byte `k div 8`, in the smallest number
of bytes and with zeros after the last element (`20_memory.md` R38, `43_read_functions.md` R113). -/
def PackedBits (packed : List Byte) (q : Nat) (f : Nat → Bool) : Prop :=
  packed.length = (q + 7) / 8
    ∧ ∀ k, k < 8 * packed.length → (byteAt packed (k / 8)).getLsbD (k % 8) = (decide (k < q) && f k)

/-- `bytes` holds the `q` registers `f 0, f 1, …`, each as a big-endian pair (`43_read_functions.md` R114). -/
def PackedRegs (bytes : List Byte) (q : Nat) (f : Nat → Word) : Prop :=
  bytes.length = 2 * q ∧ ∀ k, k < q → byteAt bytes (2 * k) = hi (f k) ∧ byteAt bytes (2 * k + 1) = lo (f k)

/-- The same request with another address byte. -/
def readdress (slave : Byte) : Instr → Instr
  | .rdcoils _ addr qty => .rdcoils slave addr qty
  | .rddisc _ addr qty => .rddisc slave addr qty
  | .rdhold _ addr qty => .rdhold slave addr qty
  | .rdinreg _ addr qty => .rdinreg slave addr qty
  | .wrcoil _ addr val => .wrcoil slave addr val
  | .wrreg _ addr val => .wrreg slave addr val
  | .wrmcoils _ addr qty bytecount data => .wrmcoils slave addr qty bytecount data
  | .wrmregs _ addr qty bytecount data => .wrmregs slave addr qty bytecount data
  | .maskwr _ mdata => .maskwr slave mdata
  | .wrrdregs _ mdata data => .wrrdregs slave mdata data
  | .other _ fc => .other slave fc

/-- The total length of a request with function code `fc` and data byte count `n`, column 5 of `30_encoding.md` R53. -/
def formatLength (fc : Byte) (n : Nat) : Nat :=
  if fc ∈ ([0x01, 0x02, 0x03, 0x04, 0x05, 0x06] : List Byte) then 8
  else if fc ∈ ([0x0F, 0x10] : List Byte) then 9 + n
  else if fc = 0x16 then 10
  else if fc = 0x17 then 13 + n
  else 4

/-- The data byte count a frame declares (`30_encoding.md` R53, column 4). -/
def declaredCount (frame : List Byte) : Nat :=
  if byteAt frame 1 = 0x17 then (byteAt frame 10).toNat else (byteAt frame 6).toNat

/-- The bit-read request of a bit space (`20_memory.md` R33). -/
def readBitsInstr : BitSpace → Byte → Word → Word → Instr
  | .coils => .rdcoils
  | .dinputs => .rddisc

/-- Its function code (`30_encoding.md` R61). -/
def readBitsCode : BitSpace → Byte
  | .coils => 0x01
  | .dinputs => 0x02

/-- The register-read request of a register space (`20_memory.md` R33). -/
def readRegsInstr : RegSpace → Byte → Word → Word → Instr
  | .hold => .rdhold
  | .inregs => .rdinreg

/-- Its function code (`30_encoding.md` R61). -/
def readRegsCode : RegSpace → Byte
  | .hold => 0x03
  | .inregs => 0x04

/-- The request is answered with the illegal-function exception and changes nothing else. -/
def AnswersIllegalFunction (i : Instr) (s : State) : Prop :=
  ∃ t, exec i s = .next t ∧ OnlyReplies s t ∧ t.map = s.map
    ∧ Answers s t i.slave [i.slave, i.code ||| 0x80, 0x01]

/-- All bytes still to come from the transport, in order. -/
def incoming (s : State) : List Byte := s.queue ++ s.arrivals.flatten

/-- The next move is a tick. -/
def TickNext (s : State) : Prop := nextMove s = .tick

/-- The moves that the next `n` steps make, as far as there are steps. -/
def movesOf : Nat → State → List HostMove
  | 0, _ => []
  | n + 1, s =>
    match step s with
    | .next t => nextMove s :: movesOf n t
    | _ => []

/-- The next move is not a host load beyond an array's extent. -/
def NoBadLoad (s : State) : Prop :=
  (∀ i v rest, s.agenda = HostMove.loadDinput i v :: rest → i < s.cfg.dinputCount)
    ∧ ∀ i v rest, s.agenda = HostMove.loadInreg i v :: rest → i < s.cfg.inregCount

/-- The invariant of the machine between moves: a configuration of this hardware, an idle block, a Register Map in
canonical form and within its extents, buffers of `MAX_ADU` bytes, and lengths within them (`10_state.md` R30). -/
abbrev Inv (s : State) : Prop :=
  s.cfg.Legal ∧ s.ctrl = .idle ∧ Memory.wf s.cfg s.map ∧ s.rxbuf.length = 260 ∧ s.rsp.length = 260
    ∧ s.rxlen ≤ 260 ∧ s.rsplen ≤ 255 ∧ s.tries ≤ s.cfg.rxRetries

/-- `s` with its transients (`10_state.md` R28) set to fixed values: two states with equal `forget` differ at most in
transients. -/
def forget (s : State) : State :=
  { s with phase := .header, rxlen := 0, need := 0, rxbuf := [], tries := 0, rxStatus := 0, rsp := [], rsplen := 0 }

/-- `forget` on the next state of an outcome. -/
def forgetOutcome : Host.Outcome State Fault Refusal → Host.Outcome State Fault Refusal
  | .next s => .next (forget s)
  | .fault f => .fault f
  | .refused r => .refused r

/-- The first of the two tests that follow every byte in `41_receiver.md` R94: the end of the HEADER phase. `none`
means that the call has returned `RX_NOT_ADDRESSED`. -/
def loopHeader (s : State) : Option State :=
  if s.need = 0 ∧ s.phase = .header then
    if Foreign s.cfg (byteAt s.rxbuf 0) then none
    else some { s with need := metaLen (byteAt s.rxbuf 1), phase := .metadata }
  else some s

/-- The second test of `41_receiver.md` R94: the end of the META phase, with the oversize check left to the caller. -/
def loopMeta (s : State) : State :=
  if s.need = 0 ∧ s.phase = .metadata then { s with need := dataLen s.rxbuf + 2, phase := .data } else s

/-- The `while need > 0` loop of `41_receiver.md` R94 as the spec writes it, for at most `fuel` bytes. -/
def loop : Nat → State → State
  | 0, s => s
  | fuel + 1, s =>
    if s.need = 0 then
      match validate (s.rxbuf.take s.rxlen) with
      | none => rxReturn rxInvalid s
      | some n => rxReturn (rxAccepted n) s
    else
      match acquireByte s with
      | .gap t => rxReturn rxTimeout t
      | .byte b t =>
        match loopHeader (storeByte b t) with
        | none => rxReturn rxNotAddressed (flush 260 (storeByte b t))
        | some u =>
          if u.need = 0 ∧ u.phase = .metadata ∧ u.rxlen + (loopMeta u).need > 260 then
            rxReturn rxInvalid (loopMeta u)
          else loop fuel (loopMeta u)

end Sys2Proof.Safety
end

