-- ==== Sys2Proof/Certificates/Slice0/Obligations.lean ====
section
/-! DEFINITION. The statements about the model, each with the rule of the spec it rests on. Their vocabulary is
`Sys2Proof/Safety.lean`'s. All that says a receive, a request or a step comes to its end takes `Timing.delay` and
`Transport.write` to return, a duty of the environment (`70_reset_and_hazards.md` R161 (c), (d); log 13). The statements
on the receiver write its statuses as the numerals of `10_state.md` R22, of which decision D11 makes only the signs and
the distinctness normative (log 20). -/

open Sys2Proof Sys2Proof.Machine Sys2Proof.Safety

/-! ### The Checksum unit -/

/-- `40_checksum.md` R75: a frame validates exactly when it is some bytes followed by their CRC, high byte first, and
the result is its full length; a frame of fewer than two bytes never does. -/
def Obligations.ValidateComparesTrailingCrc : Prop :=
  ∀ (frame : List Byte) (n : Nat),
    validate frame = some n ↔
      n = frame.length ∧ 2 ≤ n ∧
        ∃ body h l, frame = body ++ [h, l] ∧ h = hi (crc16 body) ∧ l = lo (crc16 body)

/-- `40_checksum.md` R77: every byte sequence with its CRC appended validates, every response sent validates, and the
echo of a single write is its request, CRC included. -/
def Obligations.CrcRoundTrip : Prop :=
  (∀ b : List Byte, validate (appendCrc b) = some (b.length + 2))
  ∧ (∀ (i : Instr) (s t : State) (adu : List Byte), exec i s = .next t → t.txLog = s.txLog ++ [adu] →
      validate adu = some adu.length)
  ∧ (∀ (slave : Byte) (addr val : Word) (s t : State) (adu : List Byte),
      exec (.wrcoil slave addr val) s = .next t → t.txLog = s.txLog ++ [adu] → byteAt adu 1 = 0x05 →
      adu = encode (.wrcoil slave addr val))
  ∧ (∀ (slave : Byte) (addr val : Word) (s t : State) (adu : List Byte),
      exec (.wrreg slave addr val) s = .next t → t.txLog = s.txLog ++ [adu] → byteAt adu 1 = 0x06 →
      adu = encode (.wrreg slave addr val))

/-- `40_checksum.md` R78: the first CRC byte on the wire is the low byte of the conventional register, the second its
high byte, and the register reproduces the check value of the nine ASCII bytes "123456789". -/
def Obligations.CrcWireOrder : Prop :=
  (∀ body : List Byte, appendCrc body = body ++ [lo (crcStd body), hi (crcStd body)])
  ∧ crcStd [0x31, 0x32, 0x33, 0x34, 0x35, 0x36, 0x37, 0x38, 0x39] = 0x4B37

/-- Rests on `40_checksum.md` R73, R75: a frame that validates no longer does when exactly one of its bytes, in the
body or in the CRC field, is replaced by another value. -/
def Obligations.CrcDetectsOneChangedByte : Prop :=
  ∀ (pre post : List Byte) (b c : Byte) (n : Nat), b ≠ c → validate (pre ++ b :: post) = some n →
    validate (pre ++ c :: post) = none

/-! ### Frame formats and the decoder -/

/-- One word of each row of `30_encoding.md` R62, from `95_test_vectors.md`, is read as the request it stands for. -/
def Obligations.SpecWordsDecode : Prop :=
  decode [0x05, 0x01, 0x00, 0x13, 0x00, 0x0A, 0x4C, 0x4C] = .ok (.rdcoils 5 0x0013 10, [])
  ∧ decode [0x05, 0x02, 0x00, 0x20, 0x00, 0x08, 0x79, 0x82] = .ok (.rddisc 5 0x0020 8, [])
  ∧ decode [0x05, 0x03, 0x01, 0x07, 0x00, 0x02, 0x75, 0xB2] = .ok (.rdhold 5 0x0107 2, [])
  ∧ decode [0x05, 0x04, 0x00, 0x32, 0x00, 0x03, 0x10, 0x40] = .ok (.rdinreg 5 0x0032 3, [])
  ∧ decode [0x05, 0x05, 0x00, 0x02, 0xFF, 0x00, 0x2C, 0x7E] = .ok (.wrcoil 5 2 0xFF00, [])
  ∧ decode [0x05, 0x06, 0x01, 0x02, 0xBE, 0xEF, 0x18, 0x5E] = .ok (.wrreg 5 0x0102 0xBEEF, [])
  ∧ decode [0x05, 0x0F, 0x00, 0x13, 0x00, 0x0A, 0x02, 0xCD, 0x01, 0x40, 0x0B]
      = .ok (.wrmcoils 5 0x0013 10 2 [0xCD, 0x01], [])
  ∧ decode [0x05, 0x10, 0x00, 0x01, 0x00, 0x02, 0x04, 0x00, 0x0A, 0x01, 0x02, 0x87, 0x00]
      = .ok (.wrmregs 5 1 2 4 [0x00, 0x0A, 0x01, 0x02], [])
  ∧ decode [0x05, 0x16, 0x00, 0x04, 0x00, 0xF2, 0x00, 0x25, 0x66, 0x1D]
      = .ok (.maskwr 5 [0x00, 0x04, 0x00, 0xF2, 0x00, 0x25], [])
  ∧ decode [0x05, 0x17, 0x00, 0x00, 0x00, 0x01, 0x00, 0x00, 0x00, 0x00, 0x00, 0xA6, 0xB6]
      = .ok (.wrrdregs 5 [0x00, 0x00, 0x00, 0x01, 0x00, 0x00, 0x00, 0x00, 0x00] [], [])
  ∧ decode [0x05, 0x99, 0xC2, 0x8A] = .ok (.other 5 0x99, [])

/-- `30_encoding.md` R51, R52, R53: the length of every request by its format, the places of the address byte and the
function code, and the bounds. -/
def Obligations.FrameLengthsByFormat : Prop :=
  ∀ i : Instr, i.wellFormed = true →
    (encode i).length = formatLength i.code (declaredCount (encode i))
    ∧ byteAt (encode i) 0 = i.slave ∧ byteAt (encode i) 1 = i.code
    ∧ 4 ≤ (encode i).length ∧ (encode i).length ≤ 260

/-- `41_receiver.md` R86, R90: the metadata length by function code, and the data length from the buffered bytes. -/
def Obligations.LengthInference : Prop :=
  (∀ fc : Byte, metaLen fc =
    if fc ∈ ([0x01, 0x02, 0x03, 0x04, 0x05, 0x06] : List Byte) then 4
    else if fc ∈ ([0x0F, 0x10] : List Byte) then 5
    else if fc = 0x16 then 6
    else if fc = 0x17 then 9
    else 0)
  ∧ ∀ rxbuf : List Byte, dataLen rxbuf =
    if byteAt rxbuf 1 ∈ ([0x0F, 0x10] : List Byte) then (byteAt rxbuf 6).toNat
    else if byteAt rxbuf 1 = 0x17 then (byteAt rxbuf 10).toNat
    else 0

/-- Decoding an encoded well-formed request gives it back, with the bytes after it (`30_encoding.md` R53 to R59,
R68). -/
def Obligations.DecodeOfEncode : Prop :=
  ∀ (i : Instr) (rest : List Byte), i.wellFormed = true → decode (encode i ++ rest) = .ok (i, rest)

/-- What the decoder reads is well-formed, and its encoding is exactly the bytes that were taken: no two requests share
a frame, and no bit of a frame is dropped (`30_encoding.md` R53 to R59, R62). -/
def Obligations.EncodeOfDecode : Prop :=
  ∀ (bytes rest : List Byte) (i : Instr), decode bytes = .ok (i, rest) →
    i.wellFormed = true ∧ bytes = encode i ++ rest

/-! ### Address translation -/

/-- `20_memory.md` R34, R35: `Translate` answers index `k` exactly when `k` is the address less the base, on integers,
and the run ends within the extent; it fails below the base, in an empty space and past the extent, and a run that ends
exactly at the extent is valid. -/
def Obligations.TranslateBounds : Prop :=
  ∀ (c : Cfg) (sp : Space) (addr : Word) (n : Nat),
    (∀ k : Nat, translate c sp addr n = .ok k ↔
      (k : Int) = (addr.toNat : Int) - (base c sp : Int) ∧ k + n ≤ extent c sp)
    ∧ (addr.toNat < base c sp → translate c sp addr n = .error .illegalDataAddress)
    ∧ (extent c sp = 0 → 1 ≤ n → translate c sp addr n = .error .illegalDataAddress)
    ∧ (addr.toNat + n > base c sp + extent c sp → translate c sp addr n = .error .illegalDataAddress)
    ∧ (base c sp ≤ addr.toNat → addr.toNat + n = base c sp + extent c sp →
        translate c sp addr n = .ok (addr.toNat - base c sp))

/-! ### The instructions -/

/-- `43_read_functions.md` R115, R116 (RDCOILS, RDDISC): encoding, order of the checks, exceptions and the packed
response, for every state and operands; nothing but the response changes. -/
def Obligations.ReadBitsAnswer : Prop :=
  ∀ (sp : BitSpace) (slave : Byte) (addr qty : Word) (s : State), Accepted s.cfg slave →
    encode (readBitsInstr sp slave addr qty)
      = appendCrc [slave, readBitsCode sp, hi addr, lo addr, hi qty, lo qty]
    ∧ ∃ t, exec (readBitsInstr sp slave addr qty) s = .next t ∧ OnlyReplies s t ∧ t.map = s.map ∧
      if qty.toNat < 1 ∨ 2000 < qty.toNat then Answers s t slave [slave, readBitsCode sp ||| 0x80, 0x03]
      else if ¬ InExtent s.cfg (.bits sp) addr qty.toNat then
        Answers s t slave [slave, readBitsCode sp ||| 0x80, 0x02]
      else ∃ packed,
        PackedBits packed qty.toNat (fun k => readBit s.map sp (index s.cfg (.bits sp) addr + k))
        ∧ Answers s t slave ([slave, readBitsCode sp, BitVec.ofNat 8 packed.length] ++ packed)

/-- `43_read_functions.md` R117, R118 (RDHOLD, RDINREG): encoding, order of the checks, exceptions and the big-endian
response, for every state and operands; nothing but the response changes. -/
def Obligations.ReadRegsAnswer : Prop :=
  ∀ (sp : RegSpace) (slave : Byte) (addr qty : Word) (s : State), Accepted s.cfg slave →
    encode (readRegsInstr sp slave addr qty)
      = appendCrc [slave, readRegsCode sp, hi addr, lo addr, hi qty, lo qty]
    ∧ ∃ t, exec (readRegsInstr sp slave addr qty) s = .next t ∧ OnlyReplies s t ∧ t.map = s.map ∧
      if qty.toNat < 1 ∨ 125 < qty.toNat then Answers s t slave [slave, readRegsCode sp ||| 0x80, 0x03]
      else if ¬ InExtent s.cfg (.regs sp) addr qty.toNat then
        Answers s t slave [slave, readRegsCode sp ||| 0x80, 0x02]
      else ∃ bytes,
        PackedRegs bytes qty.toNat (fun k => readReg s.map sp (index s.cfg (.regs sp) addr + k))
        ∧ Answers s t slave ([slave, readRegsCode sp, BitVec.ofNat 8 (2 * qty.toNat)] ++ bytes)

/-- `44_write_functions.md` R120 (WRCOIL), with the length cross-check of `42_reply_engine.md` R110 (the frame length
`n` is the positive `rx_status`): the three checks in order, the one coil written, everything else unchanged, the
echo. -/
def Obligations.WriteSingleCoilEffect : Prop :=
  ∀ (slave : Byte) (addr val : Word) (s : State), Accepted s.cfg slave →
    encode (.wrcoil slave addr val) = appendCrc [slave, 0x05, hi addr, lo addr, hi val, lo val]
    ∧ ∃ t, exec (.wrcoil slave addr val) s = .next t ∧ OnlyReplies s t ∧
      if val ≠ 0x0000 ∧ val ≠ 0xFF00 then t.map = s.map ∧ Answers s t slave [slave, 0x85, 0x03]
      else if ¬ InExtent s.cfg (.bits .coils) addr 1 then t.map = s.map ∧ Answers s t slave [slave, 0x85, 0x02]
      else if s.rxStatus ≠ 8 then t.map = s.map ∧ Answers s t slave [slave, 0x85, 0x03]
      else
        readBit t.map .coils (index s.cfg (.bits .coils) addr) = decide (val = 0xFF00)
        ∧ OnlyBits s.map t.map .coils (index s.cfg (.bits .coils) addr) 1
        ∧ Answers s t slave [slave, 0x05, hi addr, lo addr, hi val, lo val]

/-- `44_write_functions.md` R121 (WRREG), with the length cross-check of `42_reply_engine.md` R110: every 16-bit value
is legal, the one register written whole, everything else unchanged, the echo. -/
def Obligations.WriteSingleRegisterEffect : Prop :=
  ∀ (slave : Byte) (addr val : Word) (s : State), Accepted s.cfg slave →
    encode (.wrreg slave addr val) = appendCrc [slave, 0x06, hi addr, lo addr, hi val, lo val]
    ∧ ∃ t, exec (.wrreg slave addr val) s = .next t ∧ OnlyReplies s t ∧
      if ¬ InExtent s.cfg (.regs .hold) addr 1 then t.map = s.map ∧ Answers s t slave [slave, 0x86, 0x02]
      else if s.rxStatus ≠ 8 then t.map = s.map ∧ Answers s t slave [slave, 0x86, 0x03]
      else
        readReg t.map .hold (index s.cfg (.regs .hold) addr) = val
        ∧ OnlyRegs s.map t.map .hold (index s.cfg (.regs .hold) addr) 1
        ∧ Answers s t slave [slave, 0x06, hi addr, lo addr, hi val, lo val]

/-- `44_write_functions.md` R122 (WRMCOILS): the checks in order, every coil of the run from its bit of the payload,
surplus bits ignored, everything else unchanged, the echo of address and quantity. -/
def Obligations.WriteMultipleCoilsEffect : Prop :=
  ∀ (slave : Byte) (addr qty : Word) (bytecount : Byte) (data : List Byte) (s : State), Accepted s.cfg slave →
    encode (.wrmcoils slave addr qty bytecount data)
      = appendCrc ([slave, 0x0F, hi addr, lo addr, hi qty, lo qty, bytecount] ++ data)
    ∧ ∃ t, exec (.wrmcoils slave addr qty bytecount data) s = .next t ∧ OnlyReplies s t ∧
      if qty.toNat < 1 ∨ 1968 < qty.toNat ∨ bytecount.toNat * 8 < qty.toNat then
        t.map = s.map ∧ Answers s t slave [slave, 0x8F, 0x03]
      else if ¬ InExtent s.cfg (.bits .coils) addr qty.toNat then
        t.map = s.map ∧ Answers s t slave [slave, 0x8F, 0x02]
      else
        (∀ k, k < qty.toNat → readBit t.map .coils (index s.cfg (.bits .coils) addr + k)
          = (byteAt data (k / 8)).getLsbD (k % 8))
        ∧ OnlyBits s.map t.map .coils (index s.cfg (.bits .coils) addr) qty.toNat
        ∧ Answers s t slave [slave, 0x0F, hi addr, lo addr, hi qty, lo qty]

/-- `44_write_functions.md` R123 (WRMREGS): the checks in order, the byte count exactly twice the quantity, every
register of the run from its big-endian pair, everything else unchanged, the echo of address and quantity. -/
def Obligations.WriteMultipleRegistersEffect : Prop :=
  ∀ (slave : Byte) (addr qty : Word) (bytecount : Byte) (data : List Byte) (s : State), Accepted s.cfg slave →
    encode (.wrmregs slave addr qty bytecount data)
      = appendCrc ([slave, 0x10, hi addr, lo addr, hi qty, lo qty, bytecount] ++ data)
    ∧ ∃ t, exec (.wrmregs slave addr qty bytecount data) s = .next t ∧ OnlyReplies s t ∧
      if qty.toNat < 1 ∨ 123 < qty.toNat ∨ bytecount.toNat ≠ 2 * qty.toNat then
        t.map = s.map ∧ Answers s t slave [slave, 0x90, 0x03]
      else if ¬ InExtent s.cfg (.regs .hold) addr qty.toNat then
        t.map = s.map ∧ Answers s t slave [slave, 0x90, 0x02]
      else
        (∀ k, k < qty.toNat → readReg t.map .hold (index s.cfg (.regs .hold) addr + k)
          = be16 (byteAt data (2 * k)) (byteAt data (2 * k + 1)))
        ∧ OnlyRegs s.map t.map .hold (index s.cfg (.regs .hold) addr) qty.toNat
        ∧ Answers s t slave [slave, 0x10, hi addr, lo addr, hi qty, lo qty]

/-- `45_unsupported_functions.md` R125, R126, R127 (MASKWR, WRRDREGS, OTHER): encoding, and always the illegal-function
exception with the function code's bit 7 set; nothing is written. -/
def Obligations.UnsupportedAnswerIllegalFunction : Prop :=
  ∀ (slave fc : Byte) (mdata data : List Byte) (s : State), Accepted s.cfg slave →
    encode (.maskwr slave mdata) = appendCrc ([slave, 0x16] ++ mdata)
    ∧ encode (.wrrdregs slave mdata data) = appendCrc ([slave, 0x17] ++ mdata ++ data)
    ∧ encode (.other slave fc) = appendCrc [slave, fc]
    ∧ AnswersIllegalFunction (.maskwr slave mdata) s
    ∧ AnswersIllegalFunction (.wrrdregs slave mdata data) s
    ∧ AnswersIllegalFunction (.other slave fc) s
    ∧ (.maskwr slave mdata : Instr).code ||| 0x80 = 0x96
    ∧ (.wrrdregs slave mdata data : Instr).code ||| 0x80 = 0x97

/-! ### What holds of every request -/

/-- `42_reply_engine.md` R101: a request that is neither for SLAVE_ID nor broadcast is dropped, with no response and no
access to the map; and the receiver never delivers one. -/
def Obligations.ForeignRequestDropped : Prop :=
  (∀ (i : Instr) (s : State), ¬ Accepted s.cfg i.slave → exec i s = .next s)
  ∧ ∀ s : State, rxPositive (receive s).rxStatus = true → Accepted s.cfg (byteAt (receive s).rxbuf 0)

/-- The frame of all eleven instructions (`42_reply_engine.md` R99, R112): the configuration, the receive state, the
control state, the transport's input, the delays, the snapshot and the environment's agenda are unchanged; at most one
write is added. -/
def Obligations.RequestFrame : Prop :=
  ∀ (i : Instr) (s t : State), exec i s = .next t →
    OnlyReplies s t ∧ (t.txLog = s.txLog ∨ ∃ adu, t.txLog = s.txLog ++ [adu])

/-- `10_state.md` R15, `20_memory.md` R33, R36: only WRCOIL and WRMCOILS write coils, only WRREG and WRMREGS write
holding registers, and no request writes a discrete input or an input register. -/
def Obligations.MapAccessRights : Prop :=
  ∀ (i : Instr) (s t : State), exec i s = .next t →
    t.map.dinputs = s.map.dinputs ∧ t.map.inregs = s.map.inregs
    ∧ (i.code ≠ 0x05 → i.code ≠ 0x0F → t.map.coils = s.map.coils)
    ∧ (i.code ≠ 0x06 → i.code ≠ 0x10 → t.map.hold = s.map.hold)

/-- `42_reply_engine.md` R106, R111, `30_encoding.md` R66: an accepted request is answered normally, with its own
function code, or with one of the three exception codes, and in the second case the map is unchanged. -/
def Obligations.ExceptionLeavesMapUnchanged : Prop :=
  ∀ (i : Instr) (s t : State), Accepted s.cfg i.slave → exec i s = .next t →
    (∃ tail, Answers s t i.slave (i.slave :: i.code :: tail))
    ∨ (t.map = s.map ∧ ∃ code ∈ ([0x01, 0x02, 0x03] : List Byte),
        Answers s t i.slave [i.slave, i.code ||| 0x80, code])

/-- `30_encoding.md` R71, `42_reply_engine.md` R109, `70_reset_and_hazards.md` R164: every response sent has 5 to 255
bytes, begins with the request's own address byte, ends with its CRC, and fits the response buffer. -/
def Obligations.ResponseShape : Prop :=
  ∀ (i : Instr) (s t : State) (adu : List Byte), exec i s = .next t → t.txLog = s.txLog ++ [adu] →
    5 ≤ adu.length ∧ adu.length ≤ 255 ∧ byteAt adu 0 = i.slave
    ∧ (∃ body, adu = appendCrc body) ∧ t.rsplen = adu.length ∧ t.rsp.take t.rsplen = adu

/-- `42_reply_engine.md` R108: a broadcast request has the effect on the map that the same request to SLAVE_ID has,
whether or not it is answered; with BROADCAST_REPLY true its response, normal or exception, is sent, and with false
nothing is. -/
def Obligations.BroadcastExecutedReplySwitched : Prop :=
  ∀ (i : Instr) (s : State), i.slave = 0 → ∃ silent answered unicast,
    exec i { s with cfg := { s.cfg with broadcastReply := false } } = .next silent
    ∧ exec i { s with cfg := { s.cfg with broadcastReply := true } } = .next answered
    ∧ exec (readdress s.cfg.slaveId i) s = .next unicast
    ∧ silent.map = unicast.map ∧ answered.map = unicast.map
    ∧ silent.txLog = s.txLog
    ∧ ∃ adu, answered.txLog = s.txLog ++ [adu] ∧ byteAt adu 0 = 0

/-- `20_memory.md` R42: a request applied twice leaves the map as after the first time and builds the same response.
The map's canonical form is the premise (the invariant of `EveryStepKeepsInvariant`). -/
def Obligations.RequestsAreIdempotent : Prop :=
  ∀ (i : Instr) (s t : State), Memory.wf s.cfg s.map → exec i s = .next t →
    ∃ u, exec i t = .next u ∧ u.map = t.map
      ∧ (Accepted s.cfg i.slave → u.rsplen = t.rsplen ∧ u.rsp.take u.rsplen = t.rsp.take t.rsplen)

/-- `44_write_functions.md` R124: what WRMCOILS writes, RDCOILS of the same run reads back bit for bit. -/
def Obligations.WriteCoilsReadBack : Prop :=
  ∀ (slave : Byte) (addr qty : Word) (bytecount : Byte) (data : List Byte) (s : State),
    Accepted s.cfg slave → 1 ≤ qty.toNat → qty.toNat ≤ 1968 → qty.toNat ≤ bytecount.toNat * 8 →
    InExtent s.cfg (.bits .coils) addr qty.toNat →
    ∃ t u packed, exec (.wrmcoils slave addr qty bytecount data) s = .next t
      ∧ exec (.rdcoils slave addr qty) t = .next u
      ∧ PackedBits packed qty.toNat (fun k => (byteAt data (k / 8)).getLsbD (k % 8))
      ∧ Answers t u slave ([slave, 0x01, BitVec.ofNat 8 packed.length] ++ packed)

/-- `44_write_functions.md` R123, `43_read_functions.md` R117: what WRMREGS writes, RDHOLD of the same run reads back
byte for byte. -/
def Obligations.WriteRegistersReadBack : Prop :=
  ∀ (slave : Byte) (addr qty : Word) (bytecount : Byte) (data : List Byte) (s : State),
    Accepted s.cfg slave → 1 ≤ qty.toNat → qty.toNat ≤ 123 → bytecount.toNat = 2 * qty.toNat →
    data.length = bytecount.toNat → InExtent s.cfg (.regs .hold) addr qty.toNat →
    ∃ t u, exec (.wrmregs slave addr qty bytecount data) s = .next t
      ∧ exec (.rdhold slave addr qty) t = .next u
      ∧ Answers t u slave ([slave, 0x03, bytecount] ++ data)

/-! ### The Frame Receiver -/

/-- `41_receiver.md` R83: a byte in the queue is taken at once; a byte that arrives at poll `j + 1` is taken after `j`
delays when `j` is at most RX_RETRIES; when RX_RETRIES + 1 polls find nothing the byte is given up after RX_RETRIES
delays; every delay is RX_QUANTUM_MS long. -/
def Obligations.ByteWaitIsBounded : Prop :=
  (∀ (s : State) (b : Byte) (q : List Byte), s.queue = b :: q →
    ∃ t, acquireByte s = .byte b t ∧ t.tries = 0 ∧ t.delayLog = s.delayLog)
  ∧ (∀ (s : State) (j : Nat) (b : Byte) (q : List Byte) (later : List (List Byte)), s.queue = [] →
    s.arrivals = List.replicate j [] ++ (b :: q) :: later → j ≤ s.cfg.rxRetries →
    ∃ t, acquireByte s = .byte b t ∧ t.queue = q ∧ t.arrivals = later ∧ t.tries = j
      ∧ t.delayLog = s.delayLog ++ List.replicate j s.cfg.rxQuantumMs)
  ∧ ∀ s : State, s.queue = [] → (∀ batch ∈ s.arrivals.take (s.cfg.rxRetries + 1), batch = []) →
    ∃ t, acquireByte s = .gap t ∧ t.queue = [] ∧ t.arrivals = s.arrivals.drop (s.cfg.rxRetries + 1)
      ∧ t.tries = s.cfg.rxRetries
      ∧ t.delayLog = s.delayLog ++ List.replicate s.cfg.rxRetries s.cfg.rxQuantumMs

/-- `41_receiver.md` R92, R93: a well-formed request for the block at the head of the queue is accepted whole, its length
is the status, and exactly its bytes are taken. -/
def Obligations.ReceiveAcceptsRequests : Prop :=
  ∀ (i : Instr) (s : State) (rest : List Byte), i.wellFormed = true → Accepted s.cfg i.slave →
    s.queue = encode i ++ rest →
    (receive s).rxStatus = BitVec.ofNat 16 (encode i).length
    ∧ (receive s).rxlen = (encode i).length ∧ (receive s).need = 0 ∧ (receive s).phase = .data
    ∧ (receive s).rxbuf.take (receive s).rxlen = encode i
    ∧ incoming s = encode i ++ incoming (receive s)
    ∧ ∃ more, (receive s).queue = rest ++ more

/-- `41_receiver.md` R93, R95, `30_encoding.md` R72: whatever the environment sends, the status is one of the three
failures, or it is the length of a well-formed request for the block, whose bytes were taken and stand in the
buffer. The numerals of the failures are those of `10_state.md` R22 (D11; log 20). -/
def Obligations.ReceiveStatusMeaning : Prop :=
  ∀ s : State,
    (receive s).rxStatus = -2 ∨ (receive s).rxStatus = 0 ∨ (receive s).rxStatus = -1
    ∨ ∃ i : Instr, i.wellFormed = true ∧ Accepted s.cfg i.slave
      ∧ (receive s).rxStatus = BitVec.ofNat 16 (encode i).length
      ∧ (receive s).rxlen = (encode i).length
      ∧ (receive s).rxbuf.take (receive s).rxlen = encode i
      ∧ incoming s = encode i ++ incoming (receive s)

/-- `41_receiver.md` R85, R87, `60_exceptions.md` R136: a proper beginning of a request for the block, or one lone byte
of any address, followed by silence ends in RX_TIMEOUT; the bytes that came stay consumed and the last one was waited
for RX_RETRIES times. -/
def Obligations.SilenceAfterPartialFrameTimesOut : Prop :=
  ∀ (s : State) (pre : List Byte), s.queue = pre → s.arrivals = [] →
    ((∃ (i : Instr) (tail : List Byte), i.wellFormed = true ∧ Accepted s.cfg i.slave ∧ tail ≠ []
        ∧ encode i = pre ++ tail) ∨ pre.length = 1) →
    (receive s).rxStatus = -2 ∧ (receive s).queue = [] ∧ (receive s).rxlen = pre.length
    ∧ (receive s).rxbuf.take pre.length = pre
    ∧ (receive s).delayLog = s.delayLog ++ List.replicate s.cfg.rxRetries s.cfg.rxQuantumMs

/-- `41_receiver.md` R87, R88: a foreign address byte is found after two bytes; then at most 260 bytes are discarded, and
the status is RX_NOT_ADDRESSED. The flush goes on for as long as a poll finds a byte, those that arrive at its polls
among them, and ends at the first poll that finds none, without waiting, or after 260 bytes without another poll; two
polls were made for the header. With no byte arriving, what is discarded is what stood in the queue. -/
def Obligations.ForeignFrameFlushed : Prop :=
  ∀ (s : State) (a fc : Byte) (rest : List Byte), ¬ Accepted s.cfg a → s.queue = a :: fc :: rest →
    (∃ discarded, incoming s = a :: fc :: discarded ++ incoming (receive s) ∧ discarded.length ≤ 260
      ∧ (discarded.length = 260 ∨ (receive s).queue = [])
      ∧ (receive s).arrivals = s.arrivals.drop (2 + min 260 (discarded.length + 1)))
    ∧ (s.arrivals = [] → (receive s).queue = rest.drop 260)
    ∧ (receive s).rxStatus = 0 ∧ (receive s).rxlen = 2 ∧ (receive s).delayLog = s.delayLog

/-- `41_receiver.md` R91: a byte count of 252 to 255 in format RQM, or of 248 to 255 in format RQW, fails with
RX_INVALID as soon as the metadata is complete, and nothing more is read or drained. -/
def Obligations.OversizedFrameInvalid : Prop :=
  ∀ (s : State) (slave fc n : Byte) (front rest : List Byte), Accepted s.cfg slave →
    ((fc = 0x0F ∨ fc = 0x10) ∧ front.length = 4 ∧ 252 ≤ n.toNat
      ∨ fc = 0x17 ∧ front.length = 8 ∧ 248 ≤ n.toNat) →
    s.queue = [slave, fc] ++ front ++ [n] ++ rest →
    (receive s).rxStatus = -1 ∧ (receive s).rxlen = front.length + 3
    ∧ incoming s = [slave, fc] ++ front ++ [n] ++ incoming (receive s)
    ∧ ∃ more, (receive s).queue = rest ++ more

/-- `41_receiver.md` R92, `60_exceptions.md` R138: a complete frame for the block whose CRC field is not the right one
fails with RX_INVALID; the whole inferred frame is consumed and nothing is drained. -/
def Obligations.WrongCrcInvalid : Prop :=
  ∀ (i : Instr) (s : State) (h l : Byte) (rest : List Byte), i.wellFormed = true → Accepted s.cfg i.slave →
    encode i ≠ encodeBody i ++ [h, l] → s.queue = encodeBody i ++ [h, l] ++ rest →
    (receive s).rxStatus = -1 ∧ (receive s).rxlen = (encode i).length
    ∧ incoming s = encodeBody i ++ [h, l] ++ incoming (receive s)
    ∧ ∃ more, (receive s).queue = rest ++ more

/-- `41_receiver.md` R98, R93: a receive touches neither the Register Map nor the configuration nor the response nor
the output; it takes bytes from the front of the stream only, at most 262 of them, and at most 260 unless it
flushes. -/
def Obligations.ReceiverFrame : Prop :=
  ∀ s : State, ∃ taken : List Byte,
    receive s =
      { s with phase := (receive s).phase, rxlen := (receive s).rxlen, need := (receive s).need,
               rxbuf := (receive s).rxbuf, tries := (receive s).tries, rxStatus := (receive s).rxStatus,
               queue := (receive s).queue, arrivals := (receive s).arrivals, delayLog := (receive s).delayLog }
    ∧ incoming s = taken ++ incoming (receive s)
    ∧ taken.length ≤ 262 ∧ ((receive s).rxStatus ≠ 0 → taken.length ≤ 260)

/-- `10_state.md` R30 (a), (b), R19, R21: where a receive ends, the counters stand as the phase says and within their
bounds, the buffer holds at least `rxlen` bytes, and the retry counter is within its bound. One end is outside the
second bound of R30 (a), `rxlen + need <= 260` in the DATA phase: `phase` stands at DATA already when the oversize check
fails, as R94 sets it before the check (log 18). There the status is RX_INVALID and the counters stand as the end of the
META phase computed them. -/
def Obligations.ReceiveCounters : Prop :=
  ∀ s : State, (receive s).rxlen ≤ 260 ∧ (receive s).rxlen ≤ (receive s).rxbuf.length
    ∧ (receive s).need ≤ 257 ∧ (receive s).tries ≤ s.cfg.rxRetries
    ∧ ((receive s).phase = .header → (receive s).rxlen + (receive s).need = 2)
    ∧ ((receive s).phase = .metadata →
        (receive s).rxlen + (receive s).need = 2 + metaLen (byteAt (receive s).rxbuf 1)
        ∧ (receive s).rxlen + (receive s).need ≤ 11)
    ∧ ((receive s).phase = .data →
        (receive s).rxlen + (receive s).need ≤ 260
        ∨ (receive s).rxStatus = -1 ∧ (receive s).rxlen = 2 + metaLen (byteAt (receive s).rxbuf 1)
          ∧ (receive s).need = dataLen (receive s).rxbuf + 2 ∧ 260 < (receive s).rxlen + (receive s).need)

/-- `41_receiver.md` R94: the receiver of the model, written phase by phase, is the spec's `while need > 0` loop with
its two tests after every byte, started as R82 says; 261 rounds suffice. -/
def Obligations.ReceiveIsTheCounterLoop : Prop :=
  ∀ s : State, receive s = loop 261 { s with rxlen := 0, need := 2, phase := .header }

/-! ### The Session Loop and the machine -/

/-- A step runs the decoded instruction (`46_session_loop.md` R130): when the next move is a tick and the bytes in the
queue decode to a well-formed request `i` for the block, the step is the receive of exactly that frame, `exec i` with
`ctrl` at REPLYING, and the return to IDLE. -/
def Obligations.StepRunsDecodedInstruction : Prop :=
  ∀ (s : State) (i : Instr) (rest : List Byte), s.cfg.Legal → s.ctrl = .idle → TickNext s →
    decode s.queue = .ok (i, rest) → i.wellFormed = true → Accepted s.cfg i.slave →
    ∃ r t, exec i r = .next t ∧ step s = .next (endTick t)
      ∧ r = { consumed s with
                ctrl := .replying, phase := .data, rxlen := (encode i).length, need := 0, rxbuf := r.rxbuf,
                tries := r.tries, rxStatus := BitVec.ofNat 16 (encode i).length, queue := r.queue,
                arrivals := r.arrivals }
      ∧ r.rxbuf.take r.rxlen = encode i ∧ incoming s = encode i ++ incoming r
      ∧ ∃ more, r.queue = rest ++ more

/-- `46_session_loop.md` R132, R130: a tick that finds no byte available reads nothing, delays nothing and transmits
nothing; it changes nothing at all. -/
def Obligations.TickWithoutBytesDoesNothing : Prop :=
  ∀ s : State, s.cfg.Legal → s.ctrl = .idle → TickNext s → s.queue = [] → s.arrivals.head?.getD [] = [] →
    step s = .next { consumed s with arrivals := s.arrivals.tail }

/-- `60_exceptions.md` R135, `46_session_loop.md` R130: a tick whose receive ends in any of the three failures sends
nothing, leaves the Register Map unchanged and ends idle. -/
def Obligations.ReceiveFailuresAreSilent : Prop :=
  ∀ s : State, s.cfg.Legal → s.ctrl = .idle → TickNext s → (poll s).queue ≠ [] →
    rxPositive (receive { poll (consumed s) with ctrl := .receiving }).rxStatus = false →
    ∃ t, step s = .next t ∧ t.map = s.map ∧ t.txLog = s.txLog ∧ t.rsp = s.rsp ∧ t.ctrl = .idle
      ∧ t.rxStatus = (receive { poll (consumed s) with ctrl := .receiving }).rxStatus

/-- `46_session_loop.md` R132, `70_reset_and_hazards.md` R164: a step makes at most one `Transport.write`, and what it
writes is a complete ADU of 5 to 255 bytes that validates. -/
def Obligations.AtMostOneWritePerStep : Prop :=
  ∀ s t : State, step s = .next t →
    t.txLog = s.txLog ∨ ∃ adu, t.txLog = s.txLog ++ [adu] ∧ 5 ≤ adu.length ∧ adu.length ≤ 255
      ∧ validate adu = some adu.length

/-- `46_session_loop.md` R131, `10_state.md` R28: nothing but the Register Map survives from tick to tick; two states
that differ only in the transients take steps that differ only in the transients. -/
def Obligations.NoStateAcrossTicks : Prop :=
  ∀ s s' : State, forget s = forget s' → forgetOutcome (step s) = forgetOutcome (step s')

/-- `10_state.md` R30: the invariant holds after start-up with every configuration of this hardware. That the
transients begin within their bounds is the model's choice (log 6). -/
def Obligations.InvariantAtStartup : Prop :=
  Inv State.reset ∧ ∀ c : Cfg, c.Legal → Inv (State.startup c)

/-- `10_state.md` R30: every step keeps the invariant, whatever the environment does. -/
def Obligations.EveryStepKeepsInvariant : Prop :=
  ∀ s t : State, Inv s → step s = .next t → Inv t

/-- `10_state.md` R17, `70_reset_and_hazards.md` R163: no step, and no request, changes a configuration register. -/
def Obligations.ConfigurationIsFixed : Prop :=
  ∀ s t : State, step s = .next t → t.cfg = s.cfg ∧ t.linkBaud = s.linkBaud

/-- `46_session_loop.md` R134, `00_scope.md` R11: with a configuration of this hardware an idle block takes every tick,
whatever bytes come, every coil sample, every RESET, and every INPUT_LOAD of an element that exists, and is idle again
afterwards. The premise that R134 names and R161 (c), (d) makes a duty of the environment is built into the model: `Timing.delay` and
`Transport.write` return (log 13; `93_implementation_defined.md` U13). A load of an element that does not exist, which
`NoBadLoad` shuts out, faults by the model's choice (log 16; `InputLoadEffect`). -/
def Obligations.EveryMoveButBadLoadCompletes : Prop :=
  ∀ s : State, s.cfg.Legal → s.ctrl = .idle → NoBadLoad s → ∃ t, step s = .next t ∧ t.ctrl = .idle

/-- `10_state.md` R15, R16: no tick changes a discrete input or an input register. -/
def Obligations.TicksLeaveInputsUnchanged : Prop :=
  ∀ s t : State, TickNext s → step s = .next t → t.map.dinputs = s.map.dinputs ∧ t.map.inregs = s.map.inregs

/-- `10_state.md` R15, R27: INPUT_LOAD writes one element of `dinputs` or `inregs` and nothing else. That an index
without an element faults is the model's choice (log 16). -/
def Obligations.InputLoadEffect : Prop :=
  (∀ (s : State) (k : Nat) (v : Bool) (rest : List HostMove), s.cfg.Legal → s.ctrl = .idle →
    s.agenda = HostMove.loadDinput k v :: rest →
    if k < s.cfg.dinputCount then
      ∃ t, step s = .next t ∧ t = { s with agenda := rest, map := t.map } ∧ readBit t.map .dinputs k = v
        ∧ OnlyBits s.map t.map .dinputs k 1
    else step s = .fault (.noSuchElement (.bits .dinputs) k))
  ∧ ∀ (s : State) (k : Nat) (v : Word) (rest : List HostMove), s.cfg.Legal → s.ctrl = .idle →
    s.agenda = HostMove.loadInreg k v :: rest →
    if k < s.cfg.inregCount then
      ∃ t, step s = .next t ∧ t = { s with agenda := rest, map := t.map } ∧ readReg t.map .inregs k = v
        ∧ OnlyRegs s.map t.map .inregs k 1
    else step s = .fault (.noSuchElement (.regs .inregs) k)

/-- `70_reset_and_hazards.md` R157, R158, `10_state.md` R29: after start-up, and after a RESET, every element of the
Register Map is zero and the block is idle; a RESET leaves the configuration alone. -/
def Obligations.ResetZeroesMap : Prop :=
  (∀ (c : Cfg) (b : BitSpace) (r : RegSpace) (k : Nat),
    readBit (State.startup c).map b k = false ∧ readReg (State.startup c).map r k = 0x0000
      ∧ (State.startup c).ctrl = .idle ∧ (State.startup c).cfg = c)
  ∧ ∀ (s : State) (rest : List HostMove), s.cfg.Legal → s.ctrl = .idle → s.agenda = HostMove.reset :: rest →
    ∃ t, step s = .next t ∧ t.ctrl = .idle ∧ t.cfg = s.cfg
      ∧ ∀ (b : BitSpace) (r : RegSpace) (k : Nat), readBit t.map b k = false ∧ readReg t.map r k = 0x0000

/-- `46_session_loop.md` R133: a coil sample delivers the coils 0, 1, 2 that exist, as they stand, and changes nothing
else; no other move delivers one; and over any run the samples keep up with the ticks, one for each, on either side of
it. That the environment's script cannot break this last contract is the model's choice (log 24). -/
def Obligations.CoilSnapshotOncePerTick : Prop :=
  (∀ s : State, s.cfg.Legal → s.ctrl = .idle → nextMove s = .sample →
    step s = .next { consumed s with snapshot := readBits s.map .coils 0 (min 3 s.cfg.coilCount) })
  ∧ (∀ s t : State, step s = .next t → nextMove s ≠ .sample → t.snapshot = s.snapshot)
  ∧ ∀ (n : Nat) (s : State), s.mapper = .even →
    (movesOf n s).count .sample ≤ (movesOf n s).count .tick + 1
    ∧ (movesOf n s).count .tick ≤ (movesOf n s).count .sample + 1

/-- `70_reset_and_hazards.md` R162, R157, `93_implementation_defined.md` U4: the environment samples the coils between
ticks as a move of its own, so a RESET may come between an iteration and its sample, which then shows every coil off. -/
def Obligations.ResetMayPrecedeSample : Prop :=
  ∀ (s : State) (moves : List HostMove), s.cfg.Legal → s.ctrl = .idle → s.mapper = .even →
    s.agenda = HostMove.tick :: HostMove.reset :: HostMove.sample :: moves →
    ∃ t m u, iteration (consumed s) = .next t ∧ step s = .next t ∧ step t = .next m ∧ step m = .next u
      ∧ u.agenda = moves ∧ u.mapper = .even ∧ u.snapshot = List.replicate (min 3 s.cfg.coilCount) false

/-- `93_implementation_defined.md` U2, U11: a configuration that is none of this hardware is refused, and so is a move
while the block is not idle (log 14, log 15). -/
def Obligations.OutsideContractRefused : Prop :=
  (∀ s : State, s.cfg.slaveId = 0 ∨ 246 < s.cfg.slaveId.toNat → step s = .refused .illegalConfiguration)
  ∧ ∀ s : State, s.cfg.Legal → s.ctrl ≠ .idle → step s = .refused .busy

/-- `20_memory.md` R45, `46_session_loop.md` R132: two requests waiting together are executed by two ticks in their
order, so that a register read behind a write returns the value written. The coil sample between the ticks changes none
of this. -/
def Obligations.SecondTickSeesFirstTicksWrite : Prop :=
  ∀ (s : State) (moves : List HostMove) (slave : Byte) (addr val : Word) (rest : List Byte),
    s.cfg.Legal → s.ctrl = .idle → s.mapper ≠ .late →
    s.agenda = HostMove.tick :: HostMove.sample :: HostMove.tick :: moves →
    slave = s.cfg.slaveId → InExtent s.cfg (.regs .hold) addr 1 →
    s.queue = encode (.wrreg slave addr val) ++ encode (.rdhold slave addr 1) ++ rest →
    ∃ t m u, step s = .next t ∧ step t = .next m ∧ step m = .next u ∧ u.agenda = moves
      ∧ t.txLog = s.txLog ++ [encode (.wrreg slave addr val)] ∧ m.txLog = t.txLog
      ∧ u.txLog = t.txLog ++ [appendCrc [slave, 0x03, 0x02, hi val, lo val]]
      ∧ incoming s = encode (.wrreg slave addr val) ++ encode (.rdhold slave addr 1) ++ incoming u
end

