-- ==== Sys2Proof/Laws/Memory.lean ====
section
/-! SUPPORT. The laws of the Register Map: a read after a write, and that every operation keeps the canonical form. -/

namespace Sys2Proof.Machine

variable {α : Type}

/-! ### One array -/

theorem Cells.read_filter (d : α) (c : Cells α) (i j : Nat) :
    Cells.read d (c.filter fun p => p.1 ≠ i) j = if j = i then d else Cells.read d c j := by
  induction c with
  | nil => simp [Cells.read]
  | cons p rest ih =>
    obtain ⟨k, w⟩ := p
    by_cases hk : k = i
    · subst hk
      by_cases hj : j = k
      · simpa [hj, Cells.read] using ih
      · have hk' : ¬ k = j := fun h => hj h.symm
        simpa [hj, hk', Cells.read] using ih
    · by_cases hj : k = j
      · subst hj; simp [hk, Cells.read]
      · simpa [hk, hj, Cells.read] using ih

theorem Cells.read_insert (d : α) (c : Cells α) (i j : Nat) (v : α) (h : ∀ p ∈ c, p.1 ≠ i) :
    Cells.read d (Cells.insert i v c) j = if j = i then v else Cells.read d c j := by
  induction c with
  | nil => by_cases hj : i = j <;> simp [Cells.insert, Cells.read, hj, eq_comm]
  | cons p rest ih =>
    obtain ⟨k, w⟩ := p
    have hk : k ≠ i := h (k, w) (by simp)
    have ih' := ih fun p hp => h p (List.mem_cons_of_mem _ hp)
    simp only [Cells.insert]
    split
    · by_cases hj : i = j
      · simp [Cells.read, hj]
      · have hj' : ¬ j = i := fun h => hj h.symm
        simp [Cells.read, hj, hj']
    · by_cases hj : k = j
      · subst hj; simp [Cells.read, hk]
      · simpa [Cells.read, hj] using ih'

/-- A read after a write of one element: the value written there, and every other element as before. -/
theorem Cells.read_write [DecidableEq α] (d : α) (c : Cells α) (i j : Nat) (v : α) :
    Cells.read d (Cells.write d c i v) j = if j = i then v else Cells.read d c j := by
  unfold Cells.write
  split
  · next h => rw [Cells.read_filter, h]
  · rw [Cells.read_insert _ _ _ _ _ (by simp), Cells.read_filter]
    split <;> simp_all

theorem Cells.mem_insert {c : Cells α} {i : Nat} {v : α} {p : Nat × α} :
    p ∈ Cells.insert i v c ↔ p = (i, v) ∨ p ∈ c := by
  induction c with
  | nil => simp [Cells.insert]
  | cons q rest ih =>
    simp only [Cells.insert]
    split
    · simp
    · simp [ih, or_left_comm]

theorem Cells.insert_rising {c : Cells α} {i : Nat} {v : α} (h : (c.map Prod.fst).Pairwise (· < ·))
    (hi : ∀ p ∈ c, p.1 ≠ i) : ((Cells.insert i v c).map Prod.fst).Pairwise (· < ·) := by
  induction c with
  | nil => simp [Cells.insert]
  | cons q rest ih =>
    obtain ⟨k, w⟩ := q
    simp only [List.map_cons, List.pairwise_cons] at h
    have hk : k ≠ i := hi (k, w) (by simp)
    simp only [Cells.insert]
    split
    · next hlt =>
      simp only [List.map_cons, List.pairwise_cons]
      refine ⟨?_, h⟩
      intro a ha
      rcases List.mem_cons.1 ha with rfl | ha
      · exact hlt
      · exact Nat.lt_trans hlt (h.1 a ha)
    · next hge =>
      simp only [List.map_cons, List.pairwise_cons]
      refine ⟨?_, ih h.2 fun p hp => hi p (List.mem_cons_of_mem _ hp)⟩
      intro a ha
      obtain ⟨p, hp, rfl⟩ := List.mem_map.1 ha
      rcases Cells.mem_insert.1 hp with rfl | hp
      · show k < i; omega
      · exact h.1 _ (List.mem_map_of_mem hp)

/-- A write of an element below the count keeps the canonical form. -/
theorem Cells.write_wf [DecidableEq α] {d : α} {count : Nat} {c : Cells α} (h : Cells.wf d count c) {i : Nat}
    (hi : i < count) (v : α) : Cells.wf d count (Cells.write d c i v) := by
  have hf : ((c.filter fun p => p.1 ≠ i).map Prod.fst).Pairwise (· < ·) :=
    h.1.sublist (List.filter_sublist.map _)
  have hmem : ∀ p ∈ c.filter (fun p => p.1 ≠ i), p.2 ≠ d ∧ p.1 < count := fun p hp =>
    h.2 p (List.mem_filter.1 hp).1
  unfold Cells.write
  split
  · exact ⟨hf, hmem⟩
  · next hv =>
    refine ⟨Cells.insert_rising hf (by simp), fun p hp => ?_⟩
    rcases Cells.mem_insert.1 hp with rfl | hp
    · exact ⟨hv, hi⟩
    · exact hmem p hp

theorem Cells.read_eq_of_mem {d : α} {c : Cells α} (h : (c.map Prod.fst).Pairwise (· < ·)) {p : Nat × α}
    (hp : p ∈ c) : Cells.read d c p.1 = p.2 := by
  induction c with
  | nil => cases hp
  | cons q rest ih =>
    simp only [List.map_cons, List.pairwise_cons] at h
    rcases List.mem_cons.1 hp with rfl | hq
    · simp [Cells.read]
    · have hlt : q.1 < p.1 := h.1 _ (List.mem_map_of_mem hq)
      obtain ⟨k, w⟩ := q
      have hne : ¬ k = p.1 := Nat.ne_of_lt hlt
      simpa [Cells.read, hne] using ih h.2 hq

theorem Cells.mem_of_read_ne {d : α} {c : Cells α} {i : Nat} (h : Cells.read d c i ≠ d) :
    (i, Cells.read d c i) ∈ c := by
  induction c with
  | nil => simp [Cells.read] at h
  | cons q rest ih =>
    obtain ⟨k, w⟩ := q
    by_cases hk : k = i
    · subst hk; simp [Cells.read]
    · simp only [Cells.read, hk, if_false] at h ⊢
      exact List.mem_cons_of_mem _ (ih h)

/-- Equal arrays are equal data: two canonical arrays that read the same are the same list. -/
theorem Cells.ext_read [DecidableEq α] {d : α} {n m : Nat} {a b : Cells α} (ha : Cells.wf d n a)
    (hb : Cells.wf d m b) (h : ∀ i, Cells.read d a i = Cells.read d b i) : a = b := by
  have sub : ∀ {n m : Nat} {a b : Cells α}, Cells.wf d n a → Cells.wf d m b →
      (∀ i, Cells.read d a i = Cells.read d b i) → ∀ p ∈ a, p ∈ b := by
    intro n m a b ha _ h p hp
    have hr := Cells.read_eq_of_mem (d := d) ha.1 hp
    have hb' := h p.1
    rw [hr] at hb'
    have := Cells.mem_of_read_ne (d := d) (c := b) (i := p.1) (by rw [← hb']; exact (ha.2 p hp).1)
    rwa [← hb'] at this
  have key : ∀ {a b : Cells α}, (a.map Prod.fst).Pairwise (· < ·) → (b.map Prod.fst).Pairwise (· < ·) →
      (∀ p, p ∈ a ↔ p ∈ b) → a = b := by
    intro a b ha hb hab
    have hp {c : Cells α} (hc : (c.map Prod.fst).Pairwise (· < ·)) : c.Pairwise fun p q => p.1 < q.1 :=
      List.pairwise_map.1 hc
    have na : a.Nodup := (hp ha).imp fun {p q} h he => by subst he; exact Nat.lt_irrefl _ h
    have nb : b.Nodup := (hp hb).imp fun {p q} h he => by subst he; exact Nat.lt_irrefl _ h
    exact ((List.perm_ext_iff_of_nodup na nb).2 hab).eq_of_pairwise
      (fun p q _ _ h1 h2 => absurd (Nat.lt_trans h1 h2) (Nat.lt_irrefl _)) (hp ha) (hp hb)
  exact key ha.1 hb.1 fun p => ⟨sub ha hb h p, sub hb ha (fun i => (h i).symm) p⟩

/-! ### The Register Map -/

variable (m : RegMap)

theorem readBit_writeBit (sp sp' : BitSpace) (i j : Nat) (v : Bool) :
    readBit (writeBit m sp i v) sp' j = if sp' = sp ∧ j = i then v else readBit m sp' j := by
  cases sp <;> cases sp' <;> simp [readBit, writeBit, Cells.read_write]

theorem readReg_writeReg (sp sp' : RegSpace) (i j : Nat) (v : Word) :
    readReg (writeReg m sp i v) sp' j = if sp' = sp ∧ j = i then v else readReg m sp' j := by
  cases sp <;> cases sp' <;> simp [readReg, writeReg, Cells.read_write]

@[simp] theorem readReg_writeBit (sp : BitSpace) (i : Nat) (v : Bool) (r : RegSpace) (j : Nat) :
    readReg (writeBit m sp i v) r j = readReg m r j := by cases sp <;> cases r <;> rfl

@[simp] theorem readBit_writeReg (sp : RegSpace) (i : Nat) (v : Word) (b : BitSpace) (j : Nat) :
    readBit (writeReg m sp i v) b j = readBit m b j := by cases sp <;> cases b <;> rfl

/-- A read after a write of a run of bits. -/
theorem readBit_writeBits (sp sp' : BitSpace) (vs : List Bool) (m : RegMap) (i j : Nat) :
    readBit (writeBits m sp i vs) sp' j =
      if sp' = sp ∧ i ≤ j ∧ j < i + vs.length then vs.getD (j - i) false else readBit m sp' j := by
  induction vs generalizing m i with
  | nil => rw [writeBits, if_neg (by simp only [List.length_nil]; omega)]
  | cons v vs ih =>
    rw [writeBits, ih, readBit_writeBit]
    by_cases hsp : sp' = sp
    · by_cases h1 : j = i
      · subst h1; simp [hsp]
      · by_cases h2 : i + 1 ≤ j ∧ j < i + 1 + vs.length
        · have e : j - i = (j - (i + 1)) + 1 := by omega
          have h3 : i ≤ j ∧ j < i + (v :: vs).length := by simp only [List.length_cons]; omega
          simp only [hsp, h2, h3, and_self, if_true, e, List.getD_cons_succ]
        · have h3 : ¬(i ≤ j ∧ j < i + (v :: vs).length) := by simp only [List.length_cons]; omega
          simp only [hsp, h1, h2, h3, and_false, if_false]
    · simp [hsp]

/-- A read after a write of a run of registers. -/
theorem readReg_writeRegs (sp sp' : RegSpace) (vs : List Word) (m : RegMap) (i j : Nat) :
    readReg (writeRegs m sp i vs) sp' j =
      if sp' = sp ∧ i ≤ j ∧ j < i + vs.length then vs.getD (j - i) 0#16 else readReg m sp' j := by
  induction vs generalizing m i with
  | nil => rw [writeRegs, if_neg (by simp only [List.length_nil]; omega)]
  | cons v vs ih =>
    rw [writeRegs, ih, readReg_writeReg]
    by_cases hsp : sp' = sp
    · by_cases h1 : j = i
      · subst h1; simp [hsp]
      · by_cases h2 : i + 1 ≤ j ∧ j < i + 1 + vs.length
        · have e : j - i = (j - (i + 1)) + 1 := by omega
          have h3 : i ≤ j ∧ j < i + (v :: vs).length := by simp only [List.length_cons]; omega
          simp only [hsp, h2, h3, and_self, if_true, e, List.getD_cons_succ]
        · have h3 : ¬(i ≤ j ∧ j < i + (v :: vs).length) := by simp only [List.length_cons]; omega
          simp only [hsp, h1, h2, h3, and_false, if_false]
    · simp [hsp]

@[simp] theorem readReg_writeBits (sp : BitSpace) (vs : List Bool) (m : RegMap) (i : Nat) (r : RegSpace) (j : Nat) :
    readReg (writeBits m sp i vs) r j = readReg m r j := by
  induction vs generalizing m i with
  | nil => rfl
  | cons v vs ih => rw [writeBits, ih, readReg_writeBit]

@[simp] theorem readBit_writeRegs (sp : RegSpace) (vs : List Word) (m : RegMap) (i : Nat) (b : BitSpace) (j : Nat) :
    readBit (writeRegs m sp i vs) b j = readBit m b j := by
  induction vs generalizing m i with
  | nil => rfl
  | cons v vs ih => rw [writeRegs, ih, readBit_writeReg]

/-! ### Every operation keeps the canonical form -/

theorem RegMap.zero_wf (c : Cfg) : Memory.wf c RegMap.zero := by
  simp [Memory.wf, Cells.wf, RegMap.zero]

theorem writeBit_wf {c : Cfg} {m : RegMap} (h : Memory.wf c m) (sp : BitSpace) {i : Nat}
    (hi : i < extent c (.bits sp)) (v : Bool) : Memory.wf c (writeBit m sp i v) := by
  cases sp
  · exact ⟨Cells.write_wf h.1 hi v, h.2⟩
  · exact ⟨h.1, Cells.write_wf h.2.1 hi v, h.2.2⟩

theorem writeReg_wf {c : Cfg} {m : RegMap} (h : Memory.wf c m) (sp : RegSpace) {i : Nat}
    (hi : i < extent c (.regs sp)) (v : Word) : Memory.wf c (writeReg m sp i v) := by
  cases sp
  · exact ⟨h.1, h.2.1, Cells.write_wf h.2.2.1 hi v, h.2.2.2⟩
  · exact ⟨h.1, h.2.1, h.2.2.1, Cells.write_wf h.2.2.2 hi v⟩

theorem writeBits_wf {c : Cfg} (sp : BitSpace) (vs : List Bool) {m : RegMap} (h : Memory.wf c m) {i : Nat}
    (hi : i + vs.length ≤ extent c (.bits sp)) : Memory.wf c (writeBits m sp i vs) := by
  induction vs generalizing m i with
  | nil => exact h
  | cons v vs ih =>
    simp only [List.length_cons] at hi
    exact ih (writeBit_wf h sp (by omega) v) (by omega)

theorem writeRegs_wf {c : Cfg} (sp : RegSpace) (vs : List Word) {m : RegMap} (h : Memory.wf c m) {i : Nat}
    (hi : i + vs.length ≤ extent c (.regs sp)) : Memory.wf c (writeRegs m sp i vs) := by
  induction vs generalizing m i with
  | nil => exact h
  | cons v vs ih =>
    simp only [List.length_cons] at hi
    exact ih (writeReg_wf h sp (by omega) v) (by omega)

/-- Equal memories are equal data. -/
theorem RegMap.ext_read {c c' : Cfg} {m m' : RegMap} (h : Memory.wf c m) (h' : Memory.wf c' m')
    (hb : ∀ sp i, readBit m sp i = readBit m' sp i) (hr : ∀ sp i, readReg m sp i = readReg m' sp i) : m = m' := by
  obtain ⟨a, b, d, e⟩ := m
  obtain ⟨a', b', d', e'⟩ := m'
  simp only [RegMap.mk.injEq]
  exact ⟨Cells.ext_read h.1 h'.1 (hb .coils), Cells.ext_read h.2.1 h'.2.1 (hb .dinputs),
    Cells.ext_read h.2.2.1 h'.2.2.1 (hr .hold), Cells.ext_read h.2.2.2 h'.2.2.2 (hr .inregs)⟩

/-! ### Translation -/

/-- What `Translate` answers, in natural numbers (`20_memory.md` R34). -/
theorem translate_eq (c : Cfg) (sp : Space) (addr : Word) (n : Nat) :
    translate c sp addr n =
      if base c sp ≤ addr.toNat ∧ addr.toNat - base c sp + n ≤ extent c sp then .ok (addr.toNat - base c sp)
      else .error .illegalDataAddress := by
  unfold translate mappingIndex
  by_cases h : base c sp ≤ addr.toNat ∧ addr.toNat - base c sp + n ≤ extent c sp
  · rw [if_pos h, if_pos (by omega)]; congr 1; omega
  · rw [if_neg h, if_neg (by omega)]

end Sys2Proof.Machine
end

