-- ==== Sys2Proof/Laws/Operands.lean ====
section
/-! SUPPORT. The laws of the operand forms: byte order, packing and unpacking of bits and registers. -/

namespace Sys2Proof.Machine

/-! ### Byte order -/

@[simp] theorem hi_be16 (h l : Byte) : hi (be16 h l) = h := by
  apply BitVec.eq_of_getLsbD_eq
  intro i hi'
  simp only [hi, be16, BitVec.getLsbD_extractLsb', BitVec.getLsbD_append]
  rw [if_neg (by omega)]
  simp [hi']

@[simp] theorem lo_be16 (h l : Byte) : lo (be16 h l) = l := by
  apply BitVec.eq_of_getLsbD_eq
  intro i hi'
  simp only [lo, be16, BitVec.getLsbD_extractLsb', BitVec.getLsbD_append]
  rw [if_pos (by omega)]
  simp [hi']

@[simp] theorem be16_hi_lo (v : Word) : be16 (hi v) (lo v) = v := by
  apply BitVec.eq_of_getLsbD_eq
  intro i hi'
  simp only [hi, lo, be16, BitVec.getLsbD_extractLsb', BitVec.getLsbD_append]
  split
  · next h => simp [h]
  · next h =>
    have h1 : i - 8 < 8 := by omega
    have h2 : 8 + (i - 8) = i := by omega
    simp [h1, h2]

@[simp] theorem beBytes_length (v : Word) : (beBytes v).length = 2 := rfl

@[simp] theorem appendCrc_length (b : List Byte) : (appendCrc b).length = b.length + 2 := by
  simp [appendCrc]

/-! ### Bits -/

/-- Bit `b` of a packed byte is what `f` says of `b`. -/
theorem packByte_getLsbD (f : Nat → Bool) (b : Nat) (hb : b < 8) : (packByte f).getLsbD b = f b := by
  have key : ∀ (n : Nat) (acc : Byte), n ≤ 8 → ∀ b < 8,
      ((List.range n).foldl (fun acc b => if f b then acc ||| (1#8 <<< b) else acc) acc).getLsbD b
        = (acc.getLsbD b || (decide (b < n) && f b)) := by
    intro n
    induction n with
    | zero => intro acc _ b _; simp
    | succ n ih =>
      intro acc hn b hb
      rw [List.range_succ, List.foldl_append]
      simp only [List.foldl_cons, List.foldl_nil]
      have e := ih acc (by omega) b hb
      have bit : (1#8 <<< n).getLsbD b = decide (b = n) := by
        rw [BitVec.getLsbD_shiftLeft]
        by_cases h : b = n
        · subst h; simp [hb]
        · by_cases h2 : b < n
          · simp [h, h2]
          · have : b - n ≠ 0 := by omega
            simp [h, this]
      split
      · next hf =>
        rw [BitVec.getLsbD_or, e, bit]
        by_cases h : b = n
        · subst h; simp [hf]
        · have : (b < n + 1) = (b < n) := by simp only [eq_iff_iff]; omega
          simp [h, this]
      · next hf =>
        rw [e]
        by_cases h : b = n
        · subst h; simp [hf]
        · have : (b < n + 1) = (b < n) := by simp only [eq_iff_iff]; omega
          simp [this]
  have := key 8 0#8 (Nat.le_refl _) b hb
  simpa [packByte, hb] using this

@[simp] theorem packBits_length (bits : List Bool) : (packBits bits).length = (bits.length + 7) / 8 := by
  simp [packBits]

theorem byteAt_of_getElem? {l : List Byte} {i : Nat} {b : Byte} (h : l[i]? = some b) : byteAt l i = b := by
  simp [byteAt, List.getD_eq_getElem?_getD, h]

/-- Every bit of a packed run, the padding included (`20_memory.md` R38). -/
theorem packBits_bit (bits : List Bool) (k : Nat) (hk : k < 8 * (packBits bits).length) :
    (byteAt (packBits bits) (k / 8)).getLsbD (k % 8) = bits.getD k false := by
  rw [packBits_length] at hk
  have hj : k / 8 < (bits.length + 7) / 8 := by omega
  have e : byteAt (packBits bits) (k / 8) = packByte fun b => bits.getD (8 * (k / 8) + b) false := by
    apply byteAt_of_getElem?
    simp [packBits, hj]
  rw [e, packByte_getLsbD _ _ (Nat.mod_lt _ (by decide))]
  congr 1
  exact Nat.div_add_mod k 8

@[simp] theorem unpackBits_length (data : List Byte) (n : Nat) : (unpackBits data n).length = n := by
  simp [unpackBits]

theorem unpackBits_getD (data : List Byte) (n k : Nat) (hk : k < n) :
    (unpackBits data n).getD k false = unpackBit data k := by
  simp [unpackBits, List.getD_eq_getElem?_getD, hk]

/-! ### Registers -/

@[simp] theorem unpackRegs_length (data : List Byte) (n : Nat) : (unpackRegs data n).length = n := by
  simp [unpackRegs]

theorem unpackRegs_getD (data : List Byte) (n k : Nat) (hk : k < n) :
    (unpackRegs data n).getD k 0#16 = wordAt data (2 * k) := by
  simp [unpackRegs, List.getD_eq_getElem?_getD, hk]

@[simp] theorem regBytes_length (regs : List Word) : (regBytes regs).length = 2 * regs.length := by
  induction regs with
  | nil => rfl
  | cons r rs ih =>
    simp only [regBytes, List.flatMap_cons, List.length_append, beBytes_length] at ih ⊢
    simp only [ih, List.length_cons]; omega

/-- Register `k` of a serialised run (`43_read_functions.md` R114). -/
theorem regBytes_pair (regs : List Word) (k : Nat) (hk : k < regs.length) :
    byteAt (regBytes regs) (2 * k) = hi (regs.getD k 0#16)
      ∧ byteAt (regBytes regs) (2 * k + 1) = lo (regs.getD k 0#16) := by
  induction regs generalizing k with
  | nil => simp at hk
  | cons r rs ih =>
    cases k with
    | zero => exact ⟨rfl, rfl⟩
    | succ k =>
      simp only [List.length_cons] at hk
      exact ih k (by omega)

end Sys2Proof.Machine
end

