-- ==== Sys2Proof/Laws/State.lean ====
section
/-! SUPPORT. What each update of the state does to each field: one lemma for a field and an update, true by
definition, so that no later proof unfolds a record update. -/

namespace Sys2Proof.Machine

variable (s : State)

/-! `setResponse` -/

@[simp] theorem setResponse_cfg (bytes : List Byte) : (setResponse bytes s).cfg = s.cfg := rfl
@[simp] theorem setResponse_map (bytes : List Byte) : (setResponse bytes s).map = s.map := rfl
@[simp] theorem setResponse_phase (bytes : List Byte) : (setResponse bytes s).phase = s.phase := rfl
@[simp] theorem setResponse_rxlen (bytes : List Byte) : (setResponse bytes s).rxlen = s.rxlen := rfl
@[simp] theorem setResponse_need (bytes : List Byte) : (setResponse bytes s).need = s.need := rfl
@[simp] theorem setResponse_rxbuf (bytes : List Byte) : (setResponse bytes s).rxbuf = s.rxbuf := rfl
@[simp] theorem setResponse_tries (bytes : List Byte) : (setResponse bytes s).tries = s.tries := rfl
@[simp] theorem setResponse_rxStatus (bytes : List Byte) : (setResponse bytes s).rxStatus = s.rxStatus := rfl
@[simp] theorem setResponse_rsp (bytes : List Byte) : (setResponse bytes s).rsp = bufLoad s.rsp bytes := rfl
@[simp] theorem setResponse_rsplen (bytes : List Byte) : (setResponse bytes s).rsplen = bytes.length := rfl
@[simp] theorem setResponse_ctrl (bytes : List Byte) : (setResponse bytes s).ctrl = s.ctrl := rfl
@[simp] theorem setResponse_queue (bytes : List Byte) : (setResponse bytes s).queue = s.queue := rfl
@[simp] theorem setResponse_arrivals (bytes : List Byte) : (setResponse bytes s).arrivals = s.arrivals := rfl
@[simp] theorem setResponse_agenda (bytes : List Byte) : (setResponse bytes s).agenda = s.agenda := rfl
@[simp] theorem setResponse_txLog (bytes : List Byte) : (setResponse bytes s).txLog = s.txLog := rfl
@[simp] theorem setResponse_delayLog (bytes : List Byte) : (setResponse bytes s).delayLog = s.delayLog := rfl
@[simp] theorem setResponse_snapshot (bytes : List Byte) : (setResponse bytes s).snapshot = s.snapshot := rfl
@[simp] theorem setResponse_linkBaud (bytes : List Byte) : (setResponse bytes s).linkBaud = s.linkBaud := rfl
@[simp] theorem setResponse_freeIdx (bytes : List Byte) : (setResponse bytes s).freeIdx = s.freeIdx := rfl
@[simp] theorem setResponse_mapper (bytes : List Byte) : (setResponse bytes s).mapper = s.mapper := rfl

/-! `send` -/

@[simp] theorem send_cfg (body : List Byte) : (send body s).cfg = s.cfg := rfl
@[simp] theorem send_map (body : List Byte) : (send body s).map = s.map := rfl
@[simp] theorem send_phase (body : List Byte) : (send body s).phase = s.phase := rfl
@[simp] theorem send_rxlen (body : List Byte) : (send body s).rxlen = s.rxlen := rfl
@[simp] theorem send_need (body : List Byte) : (send body s).need = s.need := rfl
@[simp] theorem send_rxbuf (body : List Byte) : (send body s).rxbuf = s.rxbuf := rfl
@[simp] theorem send_tries (body : List Byte) : (send body s).tries = s.tries := rfl
@[simp] theorem send_rxStatus (body : List Byte) : (send body s).rxStatus = s.rxStatus := rfl
@[simp] theorem send_rsp (body : List Byte) : (send body s).rsp = bufLoad s.rsp (appendCrc body) := rfl
@[simp] theorem send_rsplen (body : List Byte) : (send body s).rsplen = (appendCrc body).length := rfl
@[simp] theorem send_ctrl (body : List Byte) : (send body s).ctrl = s.ctrl := rfl
@[simp] theorem send_queue (body : List Byte) : (send body s).queue = s.queue := rfl
@[simp] theorem send_arrivals (body : List Byte) : (send body s).arrivals = s.arrivals := rfl
@[simp] theorem send_agenda (body : List Byte) : (send body s).agenda = s.agenda := rfl
@[simp] theorem send_txLog (body : List Byte) : (send body s).txLog = s.txLog ++ [appendCrc body] := rfl
@[simp] theorem send_delayLog (body : List Byte) : (send body s).delayLog = s.delayLog := rfl
@[simp] theorem send_snapshot (body : List Byte) : (send body s).snapshot = s.snapshot := rfl
@[simp] theorem send_linkBaud (body : List Byte) : (send body s).linkBaud = s.linkBaud := rfl
@[simp] theorem send_freeIdx (body : List Byte) : (send body s).freeIdx = s.freeIdx := rfl
@[simp] theorem send_mapper (body : List Byte) : (send body s).mapper = s.mapper := rfl

/-! `endTick` -/

@[simp] theorem endTick_cfg : (endTick s).cfg = s.cfg := rfl
@[simp] theorem endTick_map : (endTick s).map = s.map := rfl
@[simp] theorem endTick_phase : (endTick s).phase = s.phase := rfl
@[simp] theorem endTick_rxlen : (endTick s).rxlen = s.rxlen := rfl
@[simp] theorem endTick_need : (endTick s).need = s.need := rfl
@[simp] theorem endTick_rxbuf : (endTick s).rxbuf = s.rxbuf := rfl
@[simp] theorem endTick_tries : (endTick s).tries = s.tries := rfl
@[simp] theorem endTick_rxStatus : (endTick s).rxStatus = s.rxStatus := rfl
@[simp] theorem endTick_rsp : (endTick s).rsp = s.rsp := rfl
@[simp] theorem endTick_rsplen : (endTick s).rsplen = s.rsplen := rfl
@[simp] theorem endTick_ctrl : (endTick s).ctrl = .idle := rfl
@[simp] theorem endTick_queue : (endTick s).queue = s.queue := rfl
@[simp] theorem endTick_arrivals : (endTick s).arrivals = s.arrivals := rfl
@[simp] theorem endTick_agenda : (endTick s).agenda = s.agenda := rfl
@[simp] theorem endTick_txLog : (endTick s).txLog = s.txLog := rfl
@[simp] theorem endTick_delayLog : (endTick s).delayLog = s.delayLog := rfl
@[simp] theorem endTick_snapshot : (endTick s).snapshot = s.snapshot := rfl
@[simp] theorem endTick_linkBaud : (endTick s).linkBaud = s.linkBaud := rfl
@[simp] theorem endTick_freeIdx : (endTick s).freeIdx = s.freeIdx := rfl
@[simp] theorem endTick_mapper : (endTick s).mapper = s.mapper := rfl

/-! `delay` -/

@[simp] theorem delay_cfg : (delay s).cfg = s.cfg := rfl
@[simp] theorem delay_map : (delay s).map = s.map := rfl
@[simp] theorem delay_phase : (delay s).phase = s.phase := rfl
@[simp] theorem delay_rxlen : (delay s).rxlen = s.rxlen := rfl
@[simp] theorem delay_need : (delay s).need = s.need := rfl
@[simp] theorem delay_rxbuf : (delay s).rxbuf = s.rxbuf := rfl
@[simp] theorem delay_tries : (delay s).tries = s.tries := rfl
@[simp] theorem delay_rxStatus : (delay s).rxStatus = s.rxStatus := rfl
@[simp] theorem delay_rsp : (delay s).rsp = s.rsp := rfl
@[simp] theorem delay_rsplen : (delay s).rsplen = s.rsplen := rfl
@[simp] theorem delay_ctrl : (delay s).ctrl = s.ctrl := rfl
@[simp] theorem delay_queue : (delay s).queue = s.queue := rfl
@[simp] theorem delay_arrivals : (delay s).arrivals = s.arrivals := rfl
@[simp] theorem delay_agenda : (delay s).agenda = s.agenda := rfl
@[simp] theorem delay_txLog : (delay s).txLog = s.txLog := rfl
@[simp] theorem delay_delayLog : (delay s).delayLog = s.delayLog ++ [s.cfg.rxQuantumMs] := rfl
@[simp] theorem delay_snapshot : (delay s).snapshot = s.snapshot := rfl
@[simp] theorem delay_linkBaud : (delay s).linkBaud = s.linkBaud := rfl
@[simp] theorem delay_freeIdx : (delay s).freeIdx = s.freeIdx := rfl
@[simp] theorem delay_mapper : (delay s).mapper = s.mapper := rfl

/-! `resetMove` -/

@[simp] theorem resetMove_cfg : (resetMove s).cfg = s.cfg := rfl
@[simp] theorem resetMove_map : (resetMove s).map = RegMap.zero := rfl
@[simp] theorem resetMove_phase : (resetMove s).phase = s.phase := rfl
@[simp] theorem resetMove_rxlen : (resetMove s).rxlen = s.rxlen := rfl
@[simp] theorem resetMove_need : (resetMove s).need = s.need := rfl
@[simp] theorem resetMove_rxbuf : (resetMove s).rxbuf = s.rxbuf := rfl
@[simp] theorem resetMove_tries : (resetMove s).tries = s.tries := rfl
@[simp] theorem resetMove_rxStatus : (resetMove s).rxStatus = s.rxStatus := rfl
@[simp] theorem resetMove_rsp : (resetMove s).rsp = s.rsp := rfl
@[simp] theorem resetMove_rsplen : (resetMove s).rsplen = s.rsplen := rfl
@[simp] theorem resetMove_ctrl : (resetMove s).ctrl = .idle := rfl
@[simp] theorem resetMove_queue : (resetMove s).queue = s.queue := rfl
@[simp] theorem resetMove_arrivals : (resetMove s).arrivals = s.arrivals := rfl
@[simp] theorem resetMove_agenda : (resetMove s).agenda = s.agenda := rfl
@[simp] theorem resetMove_txLog : (resetMove s).txLog = s.txLog := rfl
@[simp] theorem resetMove_delayLog : (resetMove s).delayLog = s.delayLog := rfl
@[simp] theorem resetMove_snapshot : (resetMove s).snapshot = s.snapshot := rfl
@[simp] theorem resetMove_linkBaud : (resetMove s).linkBaud = s.linkBaud := rfl
@[simp] theorem resetMove_freeIdx : (resetMove s).freeIdx = s.freeIdx := rfl
@[simp] theorem resetMove_mapper : (resetMove s).mapper = s.mapper := rfl

/-! `storeByte` -/

@[simp] theorem storeByte_cfg (b : Byte) : (storeByte b s).cfg = s.cfg := rfl
@[simp] theorem storeByte_map (b : Byte) : (storeByte b s).map = s.map := rfl
@[simp] theorem storeByte_phase (b : Byte) : (storeByte b s).phase = s.phase := rfl
@[simp] theorem storeByte_rxlen (b : Byte) : (storeByte b s).rxlen = s.rxlen + 1 := rfl
@[simp] theorem storeByte_need (b : Byte) : (storeByte b s).need = s.need - 1 := rfl
@[simp] theorem storeByte_rxbuf (b : Byte) : (storeByte b s).rxbuf = bufSet s.rxbuf s.rxlen b := rfl
@[simp] theorem storeByte_tries (b : Byte) : (storeByte b s).tries = s.tries := rfl
@[simp] theorem storeByte_rxStatus (b : Byte) : (storeByte b s).rxStatus = s.rxStatus := rfl
@[simp] theorem storeByte_rsp (b : Byte) : (storeByte b s).rsp = s.rsp := rfl
@[simp] theorem storeByte_rsplen (b : Byte) : (storeByte b s).rsplen = s.rsplen := rfl
@[simp] theorem storeByte_ctrl (b : Byte) : (storeByte b s).ctrl = s.ctrl := rfl
@[simp] theorem storeByte_queue (b : Byte) : (storeByte b s).queue = s.queue := rfl
@[simp] theorem storeByte_arrivals (b : Byte) : (storeByte b s).arrivals = s.arrivals := rfl
@[simp] theorem storeByte_agenda (b : Byte) : (storeByte b s).agenda = s.agenda := rfl
@[simp] theorem storeByte_txLog (b : Byte) : (storeByte b s).txLog = s.txLog := rfl
@[simp] theorem storeByte_delayLog (b : Byte) : (storeByte b s).delayLog = s.delayLog := rfl
@[simp] theorem storeByte_snapshot (b : Byte) : (storeByte b s).snapshot = s.snapshot := rfl
@[simp] theorem storeByte_linkBaud (b : Byte) : (storeByte b s).linkBaud = s.linkBaud := rfl
@[simp] theorem storeByte_freeIdx (b : Byte) : (storeByte b s).freeIdx = s.freeIdx := rfl
@[simp] theorem storeByte_mapper (b : Byte) : (storeByte b s).mapper = s.mapper := rfl

/-! `rxReturn` -/

@[simp] theorem rxReturn_cfg (status : Word) : (rxReturn status s).cfg = s.cfg := rfl
@[simp] theorem rxReturn_map (status : Word) : (rxReturn status s).map = s.map := rfl
@[simp] theorem rxReturn_phase (status : Word) : (rxReturn status s).phase = s.phase := rfl
@[simp] theorem rxReturn_rxlen (status : Word) : (rxReturn status s).rxlen = s.rxlen := rfl
@[simp] theorem rxReturn_need (status : Word) : (rxReturn status s).need = s.need := rfl
@[simp] theorem rxReturn_rxbuf (status : Word) : (rxReturn status s).rxbuf = s.rxbuf := rfl
@[simp] theorem rxReturn_tries (status : Word) : (rxReturn status s).tries = s.tries := rfl
@[simp] theorem rxReturn_rxStatus (status : Word) : (rxReturn status s).rxStatus = status := rfl
@[simp] theorem rxReturn_rsp (status : Word) : (rxReturn status s).rsp = s.rsp := rfl
@[simp] theorem rxReturn_rsplen (status : Word) : (rxReturn status s).rsplen = s.rsplen := rfl
@[simp] theorem rxReturn_ctrl (status : Word) : (rxReturn status s).ctrl = s.ctrl := rfl
@[simp] theorem rxReturn_queue (status : Word) : (rxReturn status s).queue = s.queue := rfl
@[simp] theorem rxReturn_arrivals (status : Word) : (rxReturn status s).arrivals = s.arrivals := rfl
@[simp] theorem rxReturn_agenda (status : Word) : (rxReturn status s).agenda = s.agenda := rfl
@[simp] theorem rxReturn_txLog (status : Word) : (rxReturn status s).txLog = s.txLog := rfl
@[simp] theorem rxReturn_delayLog (status : Word) : (rxReturn status s).delayLog = s.delayLog := rfl
@[simp] theorem rxReturn_snapshot (status : Word) : (rxReturn status s).snapshot = s.snapshot := rfl
@[simp] theorem rxReturn_linkBaud (status : Word) : (rxReturn status s).linkBaud = s.linkBaud := rfl
@[simp] theorem rxReturn_freeIdx (status : Word) : (rxReturn status s).freeIdx = s.freeIdx := rfl
@[simp] theorem rxReturn_mapper (status : Word) : (rxReturn status s).mapper = s.mapper := rfl

/-! `startHeader` -/

@[simp] theorem startHeader_cfg : (startHeader s).cfg = s.cfg := rfl
@[simp] theorem startHeader_map : (startHeader s).map = s.map := rfl
@[simp] theorem startHeader_phase : (startHeader s).phase = .header := rfl
@[simp] theorem startHeader_rxlen : (startHeader s).rxlen = 0 := rfl
@[simp] theorem startHeader_need : (startHeader s).need = 2 := rfl
@[simp] theorem startHeader_rxbuf : (startHeader s).rxbuf = s.rxbuf := rfl
@[simp] theorem startHeader_tries : (startHeader s).tries = s.tries := rfl
@[simp] theorem startHeader_rxStatus : (startHeader s).rxStatus = s.rxStatus := rfl
@[simp] theorem startHeader_rsp : (startHeader s).rsp = s.rsp := rfl
@[simp] theorem startHeader_rsplen : (startHeader s).rsplen = s.rsplen := rfl
@[simp] theorem startHeader_ctrl : (startHeader s).ctrl = s.ctrl := rfl
@[simp] theorem startHeader_queue : (startHeader s).queue = s.queue := rfl
@[simp] theorem startHeader_arrivals : (startHeader s).arrivals = s.arrivals := rfl
@[simp] theorem startHeader_agenda : (startHeader s).agenda = s.agenda := rfl
@[simp] theorem startHeader_txLog : (startHeader s).txLog = s.txLog := rfl
@[simp] theorem startHeader_delayLog : (startHeader s).delayLog = s.delayLog := rfl
@[simp] theorem startHeader_snapshot : (startHeader s).snapshot = s.snapshot := rfl
@[simp] theorem startHeader_linkBaud : (startHeader s).linkBaud = s.linkBaud := rfl
@[simp] theorem startHeader_freeIdx : (startHeader s).freeIdx = s.freeIdx := rfl
@[simp] theorem startHeader_mapper : (startHeader s).mapper = s.mapper := rfl

/-! `startMeta` -/

@[simp] theorem startMeta_cfg : (startMeta s).cfg = s.cfg := rfl
@[simp] theorem startMeta_map : (startMeta s).map = s.map := rfl
@[simp] theorem startMeta_phase : (startMeta s).phase = .metadata := rfl
@[simp] theorem startMeta_rxlen : (startMeta s).rxlen = s.rxlen := rfl
@[simp] theorem startMeta_need : (startMeta s).need = metaLen (byteAt s.rxbuf 1) := rfl
@[simp] theorem startMeta_rxbuf : (startMeta s).rxbuf = s.rxbuf := rfl
@[simp] theorem startMeta_tries : (startMeta s).tries = s.tries := rfl
@[simp] theorem startMeta_rxStatus : (startMeta s).rxStatus = s.rxStatus := rfl
@[simp] theorem startMeta_rsp : (startMeta s).rsp = s.rsp := rfl
@[simp] theorem startMeta_rsplen : (startMeta s).rsplen = s.rsplen := rfl
@[simp] theorem startMeta_ctrl : (startMeta s).ctrl = s.ctrl := rfl
@[simp] theorem startMeta_queue : (startMeta s).queue = s.queue := rfl
@[simp] theorem startMeta_arrivals : (startMeta s).arrivals = s.arrivals := rfl
@[simp] theorem startMeta_agenda : (startMeta s).agenda = s.agenda := rfl
@[simp] theorem startMeta_txLog : (startMeta s).txLog = s.txLog := rfl
@[simp] theorem startMeta_delayLog : (startMeta s).delayLog = s.delayLog := rfl
@[simp] theorem startMeta_snapshot : (startMeta s).snapshot = s.snapshot := rfl
@[simp] theorem startMeta_linkBaud : (startMeta s).linkBaud = s.linkBaud := rfl
@[simp] theorem startMeta_freeIdx : (startMeta s).freeIdx = s.freeIdx := rfl
@[simp] theorem startMeta_mapper : (startMeta s).mapper = s.mapper := rfl

/-! `startData` -/

@[simp] theorem startData_cfg : (startData s).cfg = s.cfg := rfl
@[simp] theorem startData_map : (startData s).map = s.map := rfl
@[simp] theorem startData_phase : (startData s).phase = .data := rfl
@[simp] theorem startData_rxlen : (startData s).rxlen = s.rxlen := rfl
@[simp] theorem startData_need : (startData s).need = dataLen s.rxbuf + 2 := rfl
@[simp] theorem startData_rxbuf : (startData s).rxbuf = s.rxbuf := rfl
@[simp] theorem startData_tries : (startData s).tries = s.tries := rfl
@[simp] theorem startData_rxStatus : (startData s).rxStatus = s.rxStatus := rfl
@[simp] theorem startData_rsp : (startData s).rsp = s.rsp := rfl
@[simp] theorem startData_rsplen : (startData s).rsplen = s.rsplen := rfl
@[simp] theorem startData_ctrl : (startData s).ctrl = s.ctrl := rfl
@[simp] theorem startData_queue : (startData s).queue = s.queue := rfl
@[simp] theorem startData_arrivals : (startData s).arrivals = s.arrivals := rfl
@[simp] theorem startData_agenda : (startData s).agenda = s.agenda := rfl
@[simp] theorem startData_txLog : (startData s).txLog = s.txLog := rfl
@[simp] theorem startData_delayLog : (startData s).delayLog = s.delayLog := rfl
@[simp] theorem startData_snapshot : (startData s).snapshot = s.snapshot := rfl
@[simp] theorem startData_linkBaud : (startData s).linkBaud = s.linkBaud := rfl
@[simp] theorem startData_freeIdx : (startData s).freeIdx = s.freeIdx := rfl
@[simp] theorem startData_mapper : (startData s).mapper = s.mapper := rfl

/-! `sampleCoils` -/

@[simp] theorem sampleCoils_cfg : (sampleCoils s).cfg = s.cfg := rfl
@[simp] theorem sampleCoils_map : (sampleCoils s).map = s.map := rfl
@[simp] theorem sampleCoils_phase : (sampleCoils s).phase = s.phase := rfl
@[simp] theorem sampleCoils_rxlen : (sampleCoils s).rxlen = s.rxlen := rfl
@[simp] theorem sampleCoils_need : (sampleCoils s).need = s.need := rfl
@[simp] theorem sampleCoils_rxbuf : (sampleCoils s).rxbuf = s.rxbuf := rfl
@[simp] theorem sampleCoils_tries : (sampleCoils s).tries = s.tries := rfl
@[simp] theorem sampleCoils_rxStatus : (sampleCoils s).rxStatus = s.rxStatus := rfl
@[simp] theorem sampleCoils_rsp : (sampleCoils s).rsp = s.rsp := rfl
@[simp] theorem sampleCoils_rsplen : (sampleCoils s).rsplen = s.rsplen := rfl
@[simp] theorem sampleCoils_ctrl : (sampleCoils s).ctrl = s.ctrl := rfl
@[simp] theorem sampleCoils_queue : (sampleCoils s).queue = s.queue := rfl
@[simp] theorem sampleCoils_arrivals : (sampleCoils s).arrivals = s.arrivals := rfl
@[simp] theorem sampleCoils_agenda : (sampleCoils s).agenda = s.agenda := rfl
@[simp] theorem sampleCoils_txLog : (sampleCoils s).txLog = s.txLog := rfl
@[simp] theorem sampleCoils_delayLog : (sampleCoils s).delayLog = s.delayLog := rfl
@[simp] theorem sampleCoils_snapshot : (sampleCoils s).snapshot = coilSnapshot s := rfl
@[simp] theorem sampleCoils_linkBaud : (sampleCoils s).linkBaud = s.linkBaud := rfl
@[simp] theorem sampleCoils_freeIdx : (sampleCoils s).freeIdx = s.freeIdx := rfl
@[simp] theorem sampleCoils_mapper : (sampleCoils s).mapper = s.mapper := rfl

/-! `consumed`, whose update depends on the agenda and the mapper. -/

/-- Taking the next move changes the agenda, the counter of free choices and the mapper's record only. -/
theorem consumed_frame : consumed s = { s with agenda := (consumed s).agenda, freeIdx := (consumed s).freeIdx,
                                               mapper := (consumed s).mapper } := by
  unfold consumed schedule; split <;> rfl

@[simp] theorem consumed_cfg : (consumed s).cfg = s.cfg := by rw [consumed_frame]
@[simp] theorem consumed_map : (consumed s).map = s.map := by rw [consumed_frame]
@[simp] theorem consumed_phase : (consumed s).phase = s.phase := by rw [consumed_frame]
@[simp] theorem consumed_rxlen : (consumed s).rxlen = s.rxlen := by rw [consumed_frame]
@[simp] theorem consumed_need : (consumed s).need = s.need := by rw [consumed_frame]
@[simp] theorem consumed_rxbuf : (consumed s).rxbuf = s.rxbuf := by rw [consumed_frame]
@[simp] theorem consumed_tries : (consumed s).tries = s.tries := by rw [consumed_frame]
@[simp] theorem consumed_rxStatus : (consumed s).rxStatus = s.rxStatus := by rw [consumed_frame]
@[simp] theorem consumed_rsp : (consumed s).rsp = s.rsp := by rw [consumed_frame]
@[simp] theorem consumed_rsplen : (consumed s).rsplen = s.rsplen := by rw [consumed_frame]
@[simp] theorem consumed_ctrl : (consumed s).ctrl = s.ctrl := by rw [consumed_frame]
@[simp] theorem consumed_queue : (consumed s).queue = s.queue := by rw [consumed_frame]
@[simp] theorem consumed_arrivals : (consumed s).arrivals = s.arrivals := by rw [consumed_frame]
@[simp] theorem consumed_txLog : (consumed s).txLog = s.txLog := by rw [consumed_frame]
@[simp] theorem consumed_delayLog : (consumed s).delayLog = s.delayLog := by rw [consumed_frame]
@[simp] theorem consumed_snapshot : (consumed s).snapshot = s.snapshot := by rw [consumed_frame]
@[simp] theorem consumed_linkBaud : (consumed s).linkBaud = s.linkBaud := by rw [consumed_frame]
@[simp] theorem consumed_mapper : (consumed s).mapper = mapperAfter (nextMove s) s.mapper := rfl

/-! `poll`, whose update depends on the arrivals. -/

@[simp] theorem poll_cfg : (poll s).cfg = s.cfg := by unfold poll; split <;> rfl
@[simp] theorem poll_map : (poll s).map = s.map := by unfold poll; split <;> rfl
@[simp] theorem poll_phase : (poll s).phase = s.phase := by unfold poll; split <;> rfl
@[simp] theorem poll_rxlen : (poll s).rxlen = s.rxlen := by unfold poll; split <;> rfl
@[simp] theorem poll_need : (poll s).need = s.need := by unfold poll; split <;> rfl
@[simp] theorem poll_rxbuf : (poll s).rxbuf = s.rxbuf := by unfold poll; split <;> rfl
@[simp] theorem poll_tries : (poll s).tries = s.tries := by unfold poll; split <;> rfl
@[simp] theorem poll_rxStatus : (poll s).rxStatus = s.rxStatus := by unfold poll; split <;> rfl
@[simp] theorem poll_rsp : (poll s).rsp = s.rsp := by unfold poll; split <;> rfl
@[simp] theorem poll_rsplen : (poll s).rsplen = s.rsplen := by unfold poll; split <;> rfl
@[simp] theorem poll_ctrl : (poll s).ctrl = s.ctrl := by unfold poll; split <;> rfl
@[simp] theorem poll_agenda : (poll s).agenda = s.agenda := by unfold poll; split <;> rfl
@[simp] theorem poll_txLog : (poll s).txLog = s.txLog := by unfold poll; split <;> rfl
@[simp] theorem poll_delayLog : (poll s).delayLog = s.delayLog := by unfold poll; split <;> rfl
@[simp] theorem poll_snapshot : (poll s).snapshot = s.snapshot := by unfold poll; split <;> rfl
@[simp] theorem poll_linkBaud : (poll s).linkBaud = s.linkBaud := by unfold poll; split <;> rfl
@[simp] theorem poll_freeIdx : (poll s).freeIdx = s.freeIdx := by unfold poll; split <;> rfl
@[simp] theorem poll_mapper : (poll s).mapper = s.mapper := by unfold poll; split <;> rfl

end Sys2Proof.Machine
end

