-- ==== Sys2Proof/Laws/Engine.lean ====
section
/-! SUPPORT. What the Reply Engine can do: the response operations, the one inversion lemma of `engine`, and what the
handlers leave of the Register Map. -/

namespace Sys2Proof.Machine

/-! ### Buffers and responses -/

@[simp] theorem bufLoad_take (buf bs : List Byte) : (bufLoad buf bs).take bs.length = bs := by
  simp [bufLoad]

theorem bufLoad_length (buf bs : List Byte) (h : bs.length ≤ buf.length) :
    (bufLoad buf bs).length = buf.length := by
  simp only [bufLoad, List.length_append, List.length_drop]; omega

/-- The bytes a response leaves in the buffer: the ADU, or the body alone when a broadcast is not answered. -/
def responseBytes (c : Cfg) (slave : Byte) (body : List Byte) : List Byte :=
  if slave = Config.broadcastAddr ∧ c.broadcastReply = false then body else appendCrc body

/-- The bytes a response adds to the transmitted writes. -/
def responseWrites (c : Cfg) (slave : Byte) (body : List Byte) : List (List Byte) :=
  if slave = Config.broadcastAddr ∧ c.broadcastReply = false then [] else [appendCrc body]

/-- Everything `respond` does: the response buffer and the transmitted writes, and nothing else. -/
theorem respond_eq (slave : Byte) (body : List Byte) (s : State) : ∃ rsp,
    respond slave body s =
      { s with rsp := rsp, rsplen := (responseBytes s.cfg slave body).length,
               txLog := s.txLog ++ responseWrites s.cfg slave body }
    ∧ rsp.take (responseBytes s.cfg slave body).length = responseBytes s.cfg slave body
    ∧ (body.length + 2 ≤ s.rsp.length → rsp.length = s.rsp.length) := by
  unfold respond responseBytes responseWrites
  split
  · refine ⟨bufLoad s.rsp body, by simp [setResponse], bufLoad_take _ _, fun h => bufLoad_length _ _ (by omega)⟩
  · refine ⟨bufLoad (bufLoad s.rsp body) (appendCrc body), by simp [send, setResponse], bufLoad_take _ _, fun h => ?_⟩
    rw [bufLoad_length _ _ (by rw [bufLoad_length _ _ (by omega), appendCrc_length]; exact h),
      bufLoad_length _ _ (by omega)]

/-- The one inversion lemma of `engine`: a foreign request is dropped, any other is answered, with the handler's map
and body or with the exception. -/
theorem engine_cases {slave fc : Byte} {handled : Handled} {s t : State}
    (h : engine slave fc handled s = .next t) :
    (Foreign s.cfg slave ∧ t = s)
    ∨ (¬ Foreign s.cfg slave ∧ ∃ m body, handled = .ok (m, body) ∧ t = respond slave body { s with map := m })
    ∨ (¬ Foreign s.cfg slave ∧ ∃ e, handled = .error e ∧ t = takeException slave fc e s) := by
  unfold engine at h
  split at h
  · next hf => cases h; exact .inl ⟨hf, rfl⟩
  · next hf =>
    split at h
    · cases h; exact .inr (.inl ⟨hf, _, _, rfl, rfl⟩)
    · cases h; exact .inr (.inr ⟨hf, _, rfl, rfl⟩)

/-- `engine` always answers a next state: no request traps or hangs (`00_scope.md` R11). -/
theorem engine_next (slave fc : Byte) (handled : Handled) (s : State) : ∃ t, engine slave fc handled s = .next t := by
  unfold engine
  split
  · exact ⟨_, rfl⟩
  · split <;> exact ⟨_, rfl⟩

/-- What an accepted request answers when its handler succeeds. -/
theorem engine_ok {slave fc : Byte} {m : RegMap} {body : List Byte} {s : State} (h : ¬ Foreign s.cfg slave) :
    engine slave fc (.ok (m, body)) s = .next (respond slave body { s with map := m }) := by
  simp [engine, h]

/-- What an accepted request answers when its handler raises an exception. -/
theorem engine_error {slave fc : Byte} {e : ProtocolException} {s : State} (h : ¬ Foreign s.cfg slave) :
    engine slave fc (.error e) s = .next (takeException slave fc e s) := by
  simp [engine, h]

/-! ### The handlers -/

/-- The handler an instruction runs in state `s`. -/
def handlerOf (s : State) : Instr → Handled
  | .rdcoils slave addr qty => readBitsHandler .coils slave fcReadCoils addr qty s
  | .rddisc slave addr qty => readBitsHandler .dinputs slave fcReadDiscreteInputs addr qty s
  | .rdhold slave addr qty => readRegsHandler .hold slave fcReadHoldingRegisters addr qty s
  | .rdinreg slave addr qty => readRegsHandler .inregs slave fcReadInputRegisters addr qty s
  | .wrcoil slave addr val => writeSingleCoil slave addr val s
  | .wrreg slave addr val => writeSingleRegister slave addr val s
  | .wrmcoils slave addr qty bytecount data => writeMultipleCoils slave addr qty bytecount data s
  | .wrmregs slave addr qty bytecount data => writeMultipleRegisters slave addr qty bytecount data s
  | .maskwr _ _ => .error .illegalFunction
  | .wrrdregs _ _ _ => .error .illegalFunction
  | .other _ _ => .error .illegalFunction

/-- Every instruction is its handler inside the engine's common frame. -/
theorem exec_eq (i : Instr) (s : State) : exec i s = engine i.slave i.code (handlerOf s i) s := by
  cases i <;> rfl

/-- What a handler that succeeds answers: its body begins with the address byte and the function code and is at most
253 bytes long, and the map is the old one or the result of one run of writes inside an extent. -/
theorem handlerOf_ok {s : State} {i : Instr} {m : RegMap} {body : List Byte} (h : handlerOf s i = .ok (m, body)) :
    (∃ tail, body = i.slave :: i.code :: tail ∧ 1 ≤ tail.length ∧ tail.length ≤ 251)
    ∧ (m = s.map
      ∨ (∃ k vs, m = writeBits s.map .coils k vs ∧ k + vs.length ≤ s.cfg.coilCount)
      ∨ ∃ k vs, m = writeRegs s.map .hold k vs ∧ k + vs.length ≤ s.cfg.holdCount) := by
  cases i <;> simp only [handlerOf, readBitsHandler, readRegsHandler, writeSingleCoil, writeSingleRegister,
    writeMultipleCoils, writeMultipleRegisters, translate_eq, Config.qtyMaxReadBits, Config.qtyMaxReadRegs] at h
  case maskwr => cases h
  case wrrdregs => cases h
  case other => cases h
  case rdcoils slave addr qty =>
    split at h; · cases h
    next hq =>
    split at h; · cases h
    injection h with h; injection h with h1 h2; subst h1 h2
    exact ⟨⟨_, rfl, by simp, by simp [readBits]; omega⟩, .inl rfl⟩
  case rddisc slave addr qty =>
    split at h; · cases h
    next hq =>
    split at h; · cases h
    injection h with h; injection h with h1 h2; subst h1 h2
    exact ⟨⟨_, rfl, by simp, by simp [readBits]; omega⟩, .inl rfl⟩
  case rdhold slave addr qty =>
    split at h; · cases h
    next hq =>
    split at h; · cases h
    injection h with h; injection h with h1 h2; subst h1 h2
    exact ⟨⟨_, rfl, by simp, by simp [readRegs]; omega⟩, .inl rfl⟩
  case rdinreg slave addr qty =>
    split at h; · cases h
    next hq =>
    split at h; · cases h
    injection h with h; injection h with h1 h2; subst h1 h2
    exact ⟨⟨_, rfl, by simp, by simp [readRegs]; omega⟩, .inl rfl⟩
  case wrcoil slave addr val =>
    split at h; · cases h
    split at h; · cases h
    next k hk =>
    split at hk
    · next hr =>
      injection hk with hk; subst hk
      split at h; · cases h
      injection h with h; injection h with h1 h2; subst h1 h2
      exact ⟨⟨_, rfl, by simp [beBytes], by simp [beBytes]⟩, .inr (.inl ⟨_, [_], rfl, hr.2⟩)⟩
    · cases hk
  case wrreg slave addr val =>
    split at h; · cases h
    next k hk =>
    split at hk
    · next hr =>
      injection hk with hk; subst hk
      split at h; · cases h
      injection h with h; injection h with h1 h2; subst h1 h2
      exact ⟨⟨_, rfl, by simp [beBytes], by simp [beBytes]⟩, .inr (.inr ⟨_, [_], rfl, hr.2⟩)⟩
    · cases hk
  case wrmcoils slave addr qty bytecount data =>
    split at h; · cases h
    split at h; · cases h
    split at h; · cases h
    next k hk =>
    split at hk
    · next hr =>
      injection hk with hk; subst hk
      injection h with h; injection h with h1 h2; subst h1 h2
      exact ⟨⟨_, rfl, by simp [beBytes], by simp [beBytes]⟩, .inr (.inl ⟨_, _, rfl, by simpa [extent] using hr.2⟩)⟩
    · cases hk
  case wrmregs slave addr qty bytecount data =>
    split at h; · cases h
    split at h; · cases h
    split at h; · cases h
    next k hk =>
    split at hk
    · next hr =>
      injection hk with hk; subst hk
      injection h with h; injection h with h1 h2; subst h1 h2
      exact ⟨⟨_, rfl, by simp [beBytes], by simp [beBytes]⟩, .inr (.inr ⟨_, _, rfl, by simpa [extent] using hr.2⟩)⟩
    · cases hk

end Sys2Proof.Machine
end

