-- ==== Sys2Proof/Laws/PerInstr.lean ====
section
/-! SUPPORT. Per-instruction laws of the encoding. `FrameShape` says of one instruction that the length inference and
the field extraction read its own bytes back, whatever follows them. -/

namespace Sys2Proof.Laws.FrameShape

open Sys2Proof.Machine

/-- The bytes of a well-formed request, whatever follows them, have the inferred length, hold all the metadata the
inference needs, fit into `MAX_ADU` with their CRC, and are read back field by field. -/
def Statement (i : Instr) : Prop :=
  i.wellFormed = true → ∀ rest,
    totalLen (encodeBody i ++ rest) = (encodeBody i).length + 2
    ∧ 2 + metaLen (byteAt (encodeBody i ++ rest) 1) ≤ (encodeBody i).length
    ∧ (encodeBody i).length ≤ 258
    ∧ parse (encodeBody i ++ rest) = i

/-- The six function codes of format RQ4 (`30_encoding.md` R54). -/
theorem rq4 (slave fc : Byte) (addr val : Word) (rest : List Byte)
    (h : fc = 0x01 ∨ fc = 0x02 ∨ fc = 0x03 ∨ fc = 0x04 ∨ fc = 0x05 ∨ fc = 0x06) :
    totalLen ([slave, fc] ++ beBytes addr ++ beBytes val ++ rest) = 8
    ∧ metaLen (byteAt ([slave, fc] ++ beBytes addr ++ beBytes val ++ rest) 1) = 4
    ∧ wordAt ([slave, fc] ++ beBytes addr ++ beBytes val ++ rest) 2 = addr
    ∧ wordAt ([slave, fc] ++ beBytes addr ++ beBytes val ++ rest) 4 = val := by
  rcases h with h | h | h | h | h | h <;> subst h <;>
    simp [totalLen, metaLen, dataLen, byteAt, wordAt, beBytes, fcReadCoils, fcReadDiscreteInputs,
      fcReadHoldingRegisters, fcReadInputRegisters, fcWriteSingleCoil, fcWriteSingleRegister, fcWriteMultipleCoils,
      fcWriteMultipleRegisters, fcWriteAndReadRegisters]

theorem rdcoils (slave : Byte) (addr qty : Word) : Statement (.rdcoils slave addr qty) := by
  intro _ rest
  obtain ⟨h1, h2, h3, h4⟩ := rq4 slave 0x01 addr qty rest (by simp)
  refine ⟨h1, ?_, by simp [encodeBody], ?_⟩
  · show 2 + metaLen _ ≤ 6; exact Nat.le_of_eq (congrArg (2 + ·) h2)
  · show Instr.rdcoils slave (wordAt _ 2) (wordAt _ 4) = _; exact congr (congrArg _ h3) h4

theorem rddisc (slave : Byte) (addr qty : Word) : Statement (.rddisc slave addr qty) := by
  intro _ rest
  obtain ⟨h1, h2, h3, h4⟩ := rq4 slave 0x02 addr qty rest (by simp)
  refine ⟨h1, ?_, by simp [encodeBody], ?_⟩
  · show 2 + metaLen _ ≤ 6; exact Nat.le_of_eq (congrArg (2 + ·) h2)
  · show Instr.rddisc slave (wordAt _ 2) (wordAt _ 4) = _; exact congr (congrArg _ h3) h4

theorem rdhold (slave : Byte) (addr qty : Word) : Statement (.rdhold slave addr qty) := by
  intro _ rest
  obtain ⟨h1, h2, h3, h4⟩ := rq4 slave 0x03 addr qty rest (by simp)
  refine ⟨h1, ?_, by simp [encodeBody], ?_⟩
  · show 2 + metaLen _ ≤ 6; exact Nat.le_of_eq (congrArg (2 + ·) h2)
  · show Instr.rdhold slave (wordAt _ 2) (wordAt _ 4) = _; exact congr (congrArg _ h3) h4

theorem rdinreg (slave : Byte) (addr qty : Word) : Statement (.rdinreg slave addr qty) := by
  intro _ rest
  obtain ⟨h1, h2, h3, h4⟩ := rq4 slave 0x04 addr qty rest (by simp)
  refine ⟨h1, ?_, by simp [encodeBody], ?_⟩
  · show 2 + metaLen _ ≤ 6; exact Nat.le_of_eq (congrArg (2 + ·) h2)
  · show Instr.rdinreg slave (wordAt _ 2) (wordAt _ 4) = _; exact congr (congrArg _ h3) h4

theorem wrcoil (slave : Byte) (addr val : Word) : Statement (.wrcoil slave addr val) := by
  intro _ rest
  obtain ⟨h1, h2, h3, h4⟩ := rq4 slave 0x05 addr val rest (by simp)
  refine ⟨h1, ?_, by simp [encodeBody], ?_⟩
  · show 2 + metaLen _ ≤ 6; exact Nat.le_of_eq (congrArg (2 + ·) h2)
  · show Instr.wrcoil slave (wordAt _ 2) (wordAt _ 4) = _; exact congr (congrArg _ h3) h4

theorem wrreg (slave : Byte) (addr val : Word) : Statement (.wrreg slave addr val) := by
  intro _ rest
  obtain ⟨h1, h2, h3, h4⟩ := rq4 slave 0x06 addr val rest (by simp)
  refine ⟨h1, ?_, by simp [encodeBody], ?_⟩
  · show 2 + metaLen _ ≤ 6; exact Nat.le_of_eq (congrArg (2 + ·) h2)
  · show Instr.wrreg slave (wordAt _ 2) (wordAt _ 4) = _; exact congr (congrArg _ h3) h4

theorem wrmcoils (slave : Byte) (addr qty : Word) (bytecount : Byte) (data : List Byte) :
    Statement (.wrmcoils slave addr qty bytecount data) := by
  intro hw rest
  simp only [Instr.wellFormed, Instr.wellFormedRqm, Bool.and_eq_true, beq_iff_eq, decide_eq_true_eq] at hw
  obtain ⟨hl, hb⟩ := hw
  simp [encodeBody, totalLen, metaLen, dataLen, parse, byteAt, wordAt, beBytes, fcReadCoils, fcReadDiscreteInputs,
    fcReadHoldingRegisters, fcReadInputRegisters, fcWriteSingleCoil, fcWriteSingleRegister, fcWriteMultipleCoils,
    fcWriteMultipleRegisters, ← hl]
  omega

theorem wrmregs (slave : Byte) (addr qty : Word) (bytecount : Byte) (data : List Byte) :
    Statement (.wrmregs slave addr qty bytecount data) := by
  intro hw rest
  simp only [Instr.wellFormed, Instr.wellFormedRqm, Bool.and_eq_true, beq_iff_eq, decide_eq_true_eq] at hw
  obtain ⟨hl, hb⟩ := hw
  simp [encodeBody, totalLen, metaLen, dataLen, parse, byteAt, wordAt, beBytes, fcReadCoils, fcReadDiscreteInputs,
    fcReadHoldingRegisters, fcReadInputRegisters, fcWriteSingleCoil, fcWriteSingleRegister, fcWriteMultipleCoils,
    fcWriteMultipleRegisters, ← hl]
  omega

theorem maskwr (slave : Byte) (mdata : List Byte) : Statement (.maskwr slave mdata) := by
  intro hw rest
  simp only [Instr.wellFormed, Instr.wellFormedRqk, beq_iff_eq] at hw
  match mdata, hw with
  | [_, _, _, _, _, _], _ =>
    simp [encodeBody, totalLen, metaLen, dataLen, parse, byteAt, fcReadCoils, fcReadDiscreteInputs,
      fcReadHoldingRegisters, fcReadInputRegisters, fcWriteSingleCoil, fcWriteSingleRegister, fcWriteMultipleCoils,
      fcWriteMultipleRegisters, fcMaskWriteRegister, fcWriteAndReadRegisters]

theorem wrrdregs (slave : Byte) (mdata data : List Byte) : Statement (.wrrdregs slave mdata data) := by
  intro hw rest
  simp only [Instr.wellFormed, Instr.wellFormedRqw, Bool.and_eq_true, beq_iff_eq, decide_eq_true_eq] at hw
  obtain ⟨⟨hm, hl⟩, hb⟩ := hw
  match mdata, hm, hl with
  | [_, _, _, _, _, _, _, _, n], _, hl =>
    have hl : data.length = n.toNat := hl
    simp [encodeBody, totalLen, metaLen, dataLen, parse, byteAt, fcReadCoils, fcReadDiscreteInputs,
      fcReadHoldingRegisters, fcReadInputRegisters, fcWriteSingleCoil, fcWriteSingleRegister, fcWriteMultipleCoils,
      fcWriteMultipleRegisters, fcMaskWriteRegister, fcWriteAndReadRegisters, ← hl]
    omega

theorem other (slave fc : Byte) : Statement (.other slave fc) := by
  intro hw rest
  simp only [Instr.wellFormed, Instr.wellFormedRq0, listedCodes, Bool.not_eq_true', List.contains_eq_mem,
    decide_eq_false_iff_not, List.mem_cons, List.not_mem_nil, or_false, not_or] at hw
  obtain ⟨h1, h2, h3, h4, h5, h6, h7, h8, h9, h10⟩ := hw
  simp [encodeBody, totalLen, metaLen, dataLen, parse, byteAt, h1, h2, h3, h4, h5, h6, h7, h8, h9, h10]

end Sys2Proof.Laws.FrameShape
end

