-- ==== Sys2Proof/Laws/Receiver.lean ====
section
/-! SUPPORT. What the Frame Receiver can do: one lemma for each of its shared operations, saying which bytes it takes
and what it leaves. -/

namespace Sys2Proof.Machine

open Sys2Proof.Safety

/-- From `s` to `t` only the receive state and the transport changed. -/
def ReceiverOnly (s t : State) : Prop :=
  t = { s with phase := t.phase, rxlen := t.rxlen, need := t.need, rxbuf := t.rxbuf, tries := t.tries,
               rxStatus := t.rxStatus, queue := t.queue, arrivals := t.arrivals, delayLog := t.delayLog }

theorem ReceiverOnly.refl (s : State) : ReceiverOnly s s := rfl

theorem ReceiverOnly.trans {s t u : State} (h : ReceiverOnly s t) (h' : ReceiverOnly t u) : ReceiverOnly s u := by
  unfold ReceiverOnly at *
  rw [h'] ; rw [h]

theorem ReceiverOnly.cfg {s t : State} (h : ReceiverOnly s t) : t.cfg = s.cfg := by rw [h]

/-- From `s` to `t` only the byte wait changed anything: the retry counter, the transport, the delays. -/
def WaitOnly (s t : State) : Prop :=
  t = { s with tries := t.tries, queue := t.queue, arrivals := t.arrivals, delayLog := t.delayLog }

theorem WaitOnly.receiverOnly {s t : State} (h : WaitOnly s t) : ReceiverOnly s t := by
  unfold ReceiverOnly; unfold WaitOnly at h; rw [h]

/-! ### Polls -/

/-- A poll takes no byte: arrivals join the queue. -/
@[simp] theorem poll_incoming (s : State) : incoming (poll s) = incoming s := by
  unfold poll incoming
  split <;> simp_all

/-- A poll uses one batch of the arrival script. -/
@[simp] theorem poll_arrivals (s : State) : (poll s).arrivals = s.arrivals.tail := by
  unfold poll; split <;> simp_all

theorem poll_receiverOnly (s : State) : ReceiverOnly s (poll s) := by
  unfold ReceiverOnly poll; split <;> rfl

theorem poll_queue (s : State) : ∃ more, (poll s).queue = s.queue ++ more := by
  unfold poll; split
  · exact ⟨[], by simp⟩
  · exact ⟨_, rfl⟩

/-! ### Byte acquisition -/

/-- What `AcquireByte` can do: take the oldest byte, or find nothing after the last retry and take none. -/
theorem acquireLoop_cases (left : Nat) (s : State) :
    (∃ b t, acquireLoop left s = .byte b t ∧ WaitOnly s t ∧ incoming s = b :: incoming t
        ∧ s.tries ≤ t.tries ∧ t.tries ≤ s.tries + left)
    ∨ ∃ t, acquireLoop left s = .gap t ∧ WaitOnly s t ∧ incoming t = incoming s ∧ t.queue = []
        ∧ t.tries = s.tries + left := by
  induction left generalizing s with
  | zero =>
    have hp := poll_receiverOnly s
    unfold acquireLoop
    split
    · next b q hq =>
      refine .inl ⟨_, _, rfl, ?_, ?_, by simp, by simp⟩
      · unfold WaitOnly poll; split <;> rfl
      · rw [← poll_incoming s]; simp [incoming, hq]
    · next hq =>
      refine .inr ⟨_, rfl, ?_, poll_incoming s, hq, by simp⟩
      unfold WaitOnly poll; split <;> rfl
  | succ left ih =>
    unfold acquireLoop
    split
    · next b q hq =>
      refine .inl ⟨_, _, rfl, ?_, ?_, by simp, by simp⟩
      · unfold WaitOnly poll; split <;> rfl
      · rw [← poll_incoming s]; simp [incoming, hq]
    · next hq =>
      have hw : WaitOnly s { delay (poll s) with tries := s.tries + 1 } := by
        unfold WaitOnly poll; split <;> rfl
      have hi : incoming { delay (poll s) with tries := s.tries + 1 } = incoming s := by
        rw [← poll_incoming s]; rfl
      have tr {t : State} (h : WaitOnly { delay (poll s) with tries := s.tries + 1 } t) : WaitOnly s t := by
        unfold WaitOnly at *; rw [h, hw]
      rcases ih { delay (poll s) with tries := s.tries + 1 } with ⟨b, t, h1, h2, h3, h4, h5⟩ | ⟨t, h1, h2, h3, h4, h5⟩
      · exact .inl ⟨b, t, h1, tr h2, hi ▸ h3, by simp at h4; omega, by simp at h5; omega⟩
      · exact .inr ⟨t, h1, tr h2, h3.trans hi, h4, by simp at h5; omega⟩

/-- A byte that is already in the queue is taken at the first poll, without a delay. -/
theorem acquireByte_queued {s : State} {b : Byte} {q : List Byte} (h : s.queue = b :: q) :
    ∃ t more, acquireByte s = .byte b t ∧ WaitOnly s t ∧ t.queue = q ++ more ∧ t.delayLog = s.delayLog
      ∧ t.tries = 0 ∧ incoming s = b :: incoming t := by
  obtain ⟨more, hm⟩ := poll_queue { s with tries := 0 }
  have hq : (poll { s with tries := 0 }).queue = b :: (q ++ more) := by rw [hm]; simp [h]
  refine ⟨{ poll { s with tries := 0 } with queue := q ++ more }, more, ?_, ?_, rfl, by simp, by simp, ?_⟩
  · unfold acquireByte acquireLoop; rw [hq]
  · unfold WaitOnly poll; split <;> rfl
  · have := poll_incoming { s with tries := 0 }
    have e : incoming { s with tries := 0 } = incoming s := rfl
    rw [← e, ← this]; simp [incoming, hq]

/-! ### Reading a number of bytes -/

/-- Writing the byte after the written part extends the written part by that byte. -/
theorem bufSet_take (buf : List Byte) (i : Nat) (b : Byte) (h : i ≤ buf.length) :
    (bufSet buf i b).take (i + 1) = buf.take i ++ [b] := by
  have : (buf.take i).length = i := by simp [h]
  rw [bufSet, List.take_append, this, List.take_of_length_le (by omega)]
  simp

theorem bufSet_length_ge (buf : List Byte) (i : Nat) (b : Byte) (h : i ≤ buf.length) :
    i + 1 ≤ (bufSet buf i b).length := by
  simp only [bufSet, List.length_append, List.length_take, List.length_cons]; omega

theorem bufSet_length (buf : List Byte) (i : Nat) (b : Byte) (h : i < buf.length) :
    (bufSet buf i b).length = buf.length := by
  simp only [bufSet, List.length_append, List.length_take, List.length_cons, List.length_drop]; omega

/-- What `readBytes` can do: store the next `n` bytes of the stream after those already there, or store fewer and end
in a gap. -/
theorem readBytes_cases (n : Nat) (s : State) (hb : s.rxlen ≤ s.rxbuf.length) :
    (∃ bs t, readBytes n s = .all t ∧ bs.length = n ∧ incoming s = bs ++ incoming t ∧ ReceiverOnly s t
        ∧ t.phase = s.phase ∧ t.rxStatus = s.rxStatus ∧ t.rxlen = s.rxlen + n ∧ t.need = s.need - n
        ∧ t.rxlen ≤ t.rxbuf.length ∧ t.rxbuf.take t.rxlen = s.rxbuf.take s.rxlen ++ bs
        ∧ (s.rxlen + n ≤ s.rxbuf.length → t.rxbuf.length = s.rxbuf.length)
        ∧ (s.tries ≤ s.cfg.rxRetries → t.tries ≤ s.cfg.rxRetries))
    ∨ ∃ bs t, readBytes n s = .gap t ∧ bs.length < n ∧ incoming s = bs ++ incoming t ∧ ReceiverOnly s t
        ∧ t.phase = s.phase ∧ t.rxStatus = s.rxStatus ∧ t.rxlen = s.rxlen + bs.length
        ∧ t.need = s.need - bs.length ∧ t.queue = []
        ∧ t.rxlen ≤ t.rxbuf.length ∧ t.rxbuf.take t.rxlen = s.rxbuf.take s.rxlen ++ bs
        ∧ (s.rxlen + n ≤ s.rxbuf.length → t.rxbuf.length = s.rxbuf.length)
        ∧ t.tries = s.cfg.rxRetries := by
  induction n generalizing s with
  | zero =>
    exact .inl ⟨[], s, rfl, rfl, rfl, ReceiverOnly.refl s, rfl, rfl, rfl, rfl, hb, by simp, fun _ => rfl, id⟩
  | succ n ih =>
    rcases acquireLoop_cases s.cfg.rxRetries { s with tries := 0 } with
      ⟨b, t, h1, h2, h3, -, h5⟩ | ⟨t, h1, h2, h3, h4, h5⟩
    · have ht : t = { s with tries := t.tries, queue := t.queue, arrivals := t.arrivals, delayLog := t.delayLog } := h2
      have hbuf : (storeByte b t).rxlen ≤ (storeByte b t).rxbuf.length := by
        have : t.rxlen ≤ t.rxbuf.length := by rw [ht]; exact hb
        simpa using bufSet_length_ge _ _ b this
      have htake : (storeByte b t).rxbuf.take (storeByte b t).rxlen = s.rxbuf.take s.rxlen ++ [b] := by
        have e1 : t.rxbuf = s.rxbuf := by rw [ht]
        have e2 : t.rxlen = s.rxlen := by rw [ht]
        simp only [storeByte_rxbuf, storeByte_rxlen, e1, e2]
        exact bufSet_take _ _ _ hb
      have hro : ReceiverOnly s (storeByte b t) := by
        unfold ReceiverOnly storeByte; rw [ht]
      have hin : incoming s = b :: incoming (storeByte b t) := h3
      have hcfg : (storeByte b t).cfg = s.cfg := hro.cfg
      have hrxlen : (storeByte b t).rxlen = s.rxlen + 1 := by simp only [storeByte_rxlen]; rw [ht]
      have hneed : (storeByte b t).need = s.need - 1 := by simp only [storeByte_need]; rw [ht]
      have hphase : (storeByte b t).phase = s.phase := by simp only [storeByte_phase]; rw [ht]
      have hst : (storeByte b t).rxStatus = s.rxStatus := by simp only [storeByte_rxStatus]; rw [ht]
      have hlen : s.rxlen + (n + 1) ≤ s.rxbuf.length → (storeByte b t).rxbuf.length = s.rxbuf.length := by
        intro h
        have e1 : t.rxbuf = s.rxbuf := by rw [ht]
        have e2 : t.rxlen = s.rxlen := by rw [ht]
        simp only [storeByte_rxbuf, e1, e2]
        exact bufSet_length _ _ _ (by omega)
      have htries : (storeByte b t).tries ≤ s.cfg.rxRetries := by simpa using h5
      have hread : readBytes (n + 1) s = readBytes n (storeByte b t) := by
        simp only [readBytes, acquireByte, h1]
      rcases ih (storeByte b t) hbuf with
        ⟨bs, u, k1, k2, k3, k4, k5, k6, k7, k8, k9, k10, k11, k12⟩ |
        ⟨bs, u, k1, k2, k3, k4, k5, k6, k7, k8, k9, k10, k11, k12, k13⟩
      · refine .inl ⟨b :: bs, u, hread.trans k1, by simp [k2], by rw [hin, k3]; rfl, hro.trans k4, k5.trans hphase,
          k6.trans hst, by rw [k7, hrxlen]; omega, by rw [k8, hneed]; omega, k9, ?_, fun h => ?_, fun _ => ?_⟩
        · rw [k10, htake]; simp
        · rw [k11 (by rw [hrxlen, hlen h]; omega), hlen h]
        · rw [← hcfg]; exact k12 (by rw [hcfg]; exact htries)
      · refine .inr ⟨b :: bs, u, hread.trans k1, by simp only [List.length_cons]; omega, by rw [hin, k3]; rfl,
          hro.trans k4, k5.trans hphase, k6.trans hst, by rw [k7, hrxlen]; simp only [List.length_cons]; omega,
          by rw [k8, hneed]; simp only [List.length_cons]; omega, k9, k10, ?_, fun h => ?_, ?_⟩
        · rw [k11, htake]; simp
        · rw [k12 (by rw [hrxlen, hlen h]; omega), hlen h]
        · rw [k13, hcfg]
    · have ht : t = { s with tries := t.tries, queue := t.queue, arrivals := t.arrivals, delayLog := t.delayLog } := h2
      refine .inr ⟨[], t, by simp only [readBytes, acquireByte, h1], by simp, ?_, ?_, by rw [ht], by rw [ht],
        by rw [ht]; rfl, by rw [ht]; rfl, h4, by rw [ht]; exact hb, by rw [ht]; simp, fun _ => by rw [ht], by simpa using h5⟩
      · rw [h3]; rfl
      · unfold ReceiverOnly; rw [ht]

/-- After at least one byte was waited for, the retry counter is within its bound. -/
theorem readBytes_tries (n : Nat) (s : State) :
    match readBytes (n + 1) s with
    | .all t => t.tries ≤ s.cfg.rxRetries
    | .gap t => t.tries ≤ s.cfg.rxRetries := by
  have hacq (s : State) : (∃ b t, acquireByte s = .byte b t ∧ t.tries ≤ s.cfg.rxRetries ∧ t.cfg = s.cfg)
      ∨ ∃ t, acquireByte s = .gap t ∧ t.tries ≤ s.cfg.rxRetries := by
    rcases acquireLoop_cases s.cfg.rxRetries { s with tries := 0 } with ⟨b, t, h1, h2, -, -, h5⟩ | ⟨t, h1, -, -, -, h5⟩
    · exact .inl ⟨b, t, h1, by simpa using h5, h2.receiverOnly.cfg⟩
    · exact .inr ⟨t, h1, by simpa using Nat.le_of_eq h5⟩
  induction n generalizing s with
  | zero =>
    rcases hacq s with ⟨b, t, h1, h2, h3⟩ | ⟨t, h1, h2⟩
    · simp only [readBytes, h1]; exact h2
    · simp only [readBytes, h1]; exact h2
  | succ n ih =>
    rcases hacq s with ⟨b, t, h1, h2, h3⟩ | ⟨t, h1, h2⟩
    · have := ih (storeByte b t)
      rw [readBytes, h1]
      simpa [h3] using this
    · rw [readBytes, h1]; exact h2

/-- When the next `n` bytes are in the queue, they are all read, without a delay. -/
theorem readBytes_queued (bs : List Byte) (s : State) (rest : List Byte) (hb : s.rxlen ≤ s.rxbuf.length)
    (h : s.queue = bs ++ rest) :
    ∃ t more, readBytes bs.length s = .all t ∧ incoming s = bs ++ incoming t ∧ t.queue = rest ++ more
      ∧ t.delayLog = s.delayLog ∧ ReceiverOnly s t ∧ t.phase = s.phase ∧ t.rxStatus = s.rxStatus
      ∧ t.rxlen = s.rxlen + bs.length ∧ t.need = s.need - bs.length ∧ t.rxlen ≤ t.rxbuf.length
      ∧ t.rxbuf.take t.rxlen = s.rxbuf.take s.rxlen ++ bs := by
  induction bs generalizing s rest with
  | nil =>
    exact ⟨s, [], rfl, rfl, by simpa using h, rfl, ReceiverOnly.refl s, rfl, rfl, rfl, rfl, hb, by simp⟩
  | cons b bs ih =>
    obtain ⟨t, more, h1, h2, h3, h4, -, h6⟩ := acquireByte_queued (s := s) (b := b) (q := bs ++ rest) (by simpa using h)
    have ht : t = { s with tries := t.tries, queue := t.queue, arrivals := t.arrivals, delayLog := t.delayLog } := h2
    have e1 : t.rxbuf = s.rxbuf := by rw [ht]
    have e2 : t.rxlen = s.rxlen := by rw [ht]
    have hbuf : (storeByte b t).rxlen ≤ (storeByte b t).rxbuf.length := by
      simpa [e1, e2] using bufSet_length_ge _ _ b hb
    obtain ⟨u, more', k1, k2, k3, k4, k5, k6, k7, k8, k9, k10, k11⟩ :=
      ih (storeByte b t) (rest ++ more) hbuf (by simp [h3])
    refine ⟨u, more ++ more', by simp only [List.length_cons, readBytes, h1, k1], ?_, by rw [k3]; simp,
      k4.trans h4, ?_, k6.trans (by rw [storeByte_phase, ht]), k7.trans (by rw [storeByte_rxStatus, ht]), ?_, ?_, k10, ?_⟩
    · have hin : incoming s = b :: incoming (storeByte b t) := h6
      rw [hin, k2]; rfl
    · refine ReceiverOnly.trans ?_ k5
      unfold ReceiverOnly storeByte; rw [ht]
    · rw [k8, storeByte_rxlen, e2, List.length_cons]; omega
    · have e3 : t.need = s.need := by rw [ht]
      rw [k9, storeByte_need, e3, List.length_cons]; omega
    · rw [k11, storeByte_rxbuf, storeByte_rxlen, e1, e2, bufSet_take _ _ _ hb]; simp

/-! ### The flush -/

/-- What `Flush` does: it takes at most `left` bytes from the front of the stream, stops short of them only where a poll
finds nothing, polls once before each byte and once more where it stops short, and touches nothing but the
transport. -/
theorem flush_cases (left : Nat) (s : State) :
    ∃ bs, bs.length ≤ left ∧ incoming s = bs ++ incoming (flush left s)
      ∧ flush left s = { s with queue := (flush left s).queue, arrivals := (flush left s).arrivals }
      ∧ (bs.length = left ∨ (flush left s).queue = [])
      ∧ (flush left s).arrivals = s.arrivals.drop (min left (bs.length + 1)) := by
  induction left generalizing s with
  | zero => exact ⟨[], by simp, rfl, rfl, .inl rfl, by simp [flush]⟩
  | succ left ih =>
    have hp : poll s = { s with queue := (poll s).queue, arrivals := (poll s).arrivals } := by
      unfold poll; split <;> rfl
    unfold flush
    split
    · next hq => exact ⟨[], by simp, by simp, hp, .inr hq, by simp⟩
    · next b q hq =>
      obtain ⟨bs, h1, h2, h3, h4, h5⟩ := ih { poll s with queue := q }
      refine ⟨b :: bs, by simpa using h1, ?_, ?_, ?_, ?_⟩
      · rw [← poll_incoming s]
        have : incoming (poll s) = b :: incoming { poll s with queue := q } := by simp [incoming, hq]
        rw [this, h2]; rfl
      · rw [h3, hp]
      · exact h4.imp_left fun h => by simp [h]
      · rw [h5, poll_arrivals, List.drop_tail]
        congr 1
        simp only [List.length_cons]
        omega

/-! ### The receive -/

/-- A byte of the written part of the buffer. -/
theorem byteAt_of_take {buf bs : List Byte} {n k : Nat} (h : buf.take n = bs) (hk : k < n) :
    byteAt buf k = byteAt bs k := by
  rw [← h]; simp [byteAt, List.getD_eq_getElem?_getD, hk]

/-- The data length is read from the metadata, so it is the same for two byte sequences that agree there. -/
theorem dataLen_congr {a b : List Byte} (h : ∀ k, k < 2 + metaLen (byteAt b 1) → byteAt a k = byteAt b k) :
    dataLen a = dataLen b := by
  have h1 := h 1 (by omega)
  unfold dataLen
  rw [h1]
  split
  · next hc =>
    have : metaLen (byteAt b 1) = 5 := by rcases hc with hc | hc <;> rw [hc] <;> decide
    rw [h 6 (by omega)]
  · split
    · next hc =>
      have : metaLen (byteAt b 1) = 9 := by rw [hc]; decide
      rw [h 10 (by omega)]
    · rfl

/-- The ways a receive ends, after the bytes `bs` were stored and the bytes `more` were flushed. -/
inductive ReceiveEnd (s r : State) (bs more : List Byte) : Prop where
  /-- A gap in the HEADER phase. -/
  | headerGap (status : r.rxStatus = rxTimeout) (flushed : more = []) (phase : r.phase = .header)
      (stored : bs.length < 2) (need : r.need = 2 - bs.length) (queue : r.queue = []) (tries : r.tries = s.cfg.rxRetries)
  /-- A foreign address byte. -/
  | foreign (status : r.rxStatus = rxNotAddressed) (flushed : more.length ≤ 260) (phase : r.phase = .header)
      (stored : bs.length = 2) (need : r.need = 0) (address : Foreign s.cfg (byteAt bs 0))
  /-- A gap in the META phase. -/
  | metaGap (status : r.rxStatus = rxTimeout) (flushed : more = []) (phase : r.phase = .metadata)
      (header : 2 ≤ bs.length) (stored : bs.length < 2 + metaLen (byteAt bs 1))
      (need : r.need = 2 + metaLen (byteAt bs 1) - bs.length) (queue : r.queue = [])
      (tries : r.tries = s.cfg.rxRetries) (address : ¬ Foreign s.cfg (byteAt bs 0))
  /-- A projected length beyond `MAX_ADU`. -/
  | oversize (status : r.rxStatus = rxInvalid) (flushed : more = []) (phase : r.phase = .data)
      (stored : bs.length = 2 + metaLen (byteAt bs 1)) (need : r.need = dataLen bs + 2) (total : 260 < totalLen bs)
      (address : ¬ Foreign s.cfg (byteAt bs 0))
  /-- A gap in the DATA phase. -/
  | dataGap (status : r.rxStatus = rxTimeout) (flushed : more = []) (phase : r.phase = .data)
      (header : 2 + metaLen (byteAt bs 1) ≤ bs.length) (stored : bs.length < totalLen bs)
      (need : r.need = totalLen bs - bs.length) (queue : r.queue = []) (tries : r.tries = s.cfg.rxRetries)
      (total : totalLen bs ≤ 260) (address : ¬ Foreign s.cfg (byteAt bs 0))
  /-- A complete frame with a wrong CRC. -/
  | badCrc (status : r.rxStatus = rxInvalid) (flushed : more = []) (phase : r.phase = .data)
      (stored : bs.length = totalLen bs) (need : r.need = 0) (total : totalLen bs ≤ 260) (crc : validate bs = none)
      (address : ¬ Foreign s.cfg (byteAt bs 0))
  /-- An accepted frame. -/
  | accepted (status : r.rxStatus = rxAccepted bs.length) (flushed : more = []) (phase : r.phase = .data)
      (stored : bs.length = totalLen bs) (need : r.need = 0) (total : totalLen bs ≤ 260) (crc : validate bs ≠ none)
      (address : ¬ Foreign s.cfg (byteAt bs 0))

/-- Everything a receive can do. -/
theorem receive_cases (s : State) : ∃ bs more,
    ReceiverOnly s (receive s) ∧ incoming s = bs ++ more ++ incoming (receive s)
    ∧ (receive s).rxlen = bs.length ∧ (receive s).rxbuf.take (receive s).rxlen = bs
    ∧ (receive s).rxlen ≤ (receive s).rxbuf.length
    ∧ (260 ≤ s.rxbuf.length → (receive s).rxbuf.length = s.rxbuf.length)
    ∧ (receive s).tries ≤ s.cfg.rxRetries ∧ ReceiveEnd s (receive s) bs more := by
  have hstart : ReceiverOnly s (startHeader s) := rfl
  have hin : incoming (startHeader s) = incoming s := rfl
  rcases readBytes_cases 2 (startHeader s) (by simp) with
    ⟨h, t, r1, r2, r3, r4, r5, r6, r7, r8, r9, r10, r11, -⟩ |
    ⟨h, t, r1, r2, r3, r4, r5, r6, r7, r8, r9, r10, r11, r12, r13⟩
  rotate_left
  · have hr : receive s = rxReturn rxTimeout t := by unfold receive; rw [startHeader_need, r1]
    rw [hr]
    have hlen : t.rxlen = h.length := by rw [r7]; simp
    refine ⟨h, [], (hstart.trans r4).trans rfl, by rw [← hin, r3]; simp; rfl, hlen, by simpa using r11, r10, fun h' => ?_, ?_,
      .headerGap rfl rfl r5 r2 (by simpa using r8) r9 (by simpa using r13)⟩
    · exact r12 (by simp; omega)
    · simpa using Nat.le_of_eq r13
  have htake : t.rxbuf.take 2 = h := by simpa [r7] using r10
  have htlen : t.rxlen = 2 := by simpa using r7
  have hlt : 260 ≤ s.rxbuf.length → t.rxbuf.length = s.rxbuf.length := fun h' => by
    simpa using r11 (by simp; omega)
  have htries : t.tries ≤ s.cfg.rxRetries := by
    have := readBytes_tries 1 (startHeader s)
    rw [r1] at this
    simpa using this
  have hcfg : t.cfg = s.cfg := (hstart.trans r4).cfg
  have b0 : byteAt t.rxbuf 0 = byteAt h 0 := byteAt_of_take htake (by omega)
  have b1 : byteAt t.rxbuf 1 = byteAt h 1 := byteAt_of_take htake (by omega)
  have hr : receive s = endHeader t := by unfold receive; rw [startHeader_need, r1]
  rw [hr]
  unfold endHeader
  split
  · next hf =>
    obtain ⟨more, f1, f2, f3, -⟩ := flush_cases Config.maxAdu t
    refine ⟨h, more, ?_, ?_, ?_, ?_, ?_, ?_, ?_, .foreign rfl f1 ?_ r2 ?_ ?_⟩
    · refine (hstart.trans r4).trans ?_
      unfold ReceiverOnly rxReturn; rw [f3]
    · rw [← hin, r3, f2]; simp; rfl
    · simp only [rxReturn_rxlen]; rw [f3, r2]; exact htlen
    · simp only [rxReturn_rxlen, rxReturn_rxbuf]; rw [f3]; simp only; rw [htlen]; exact htake
    · simp only [rxReturn_rxlen, rxReturn_rxbuf]; rw [f3]; exact r9
    · simp only [rxReturn_rxbuf]; rw [f3]; exact hlt
    · simp only [rxReturn_tries]; rw [f3]; exact htries
    · simp only [rxReturn_phase]; rw [f3]; exact r5
    · simp only [rxReturn_need]; rw [f3]; simpa using r8
    · rw [← b0, ← hcfg]; exact hf
  · next hf =>
    have hf' : ¬ Foreign s.cfg (byteAt h 0) := by rw [← b0, ← hcfg]; exact hf
    have hm9 : metaLen (byteAt h 1) ≤ 9 := by unfold metaLen; split_ifs <;> omega
    have hro : ReceiverOnly s (startMeta t) := (hstart.trans r4).trans rfl
    rcases readBytes_cases (startMeta t).need (startMeta t) (by simpa using r9) with
      ⟨m, u, q1, q2, q3, q4, q5, q6, q7, q8, q9, q10, q11, q12⟩ |
      ⟨m, u, q1, q2, q3, q4, q5, q6, q7, q8, q9, q10, q11, q12, q13⟩
    rotate_left
    · rw [q1]
      simp only [startMeta_need, startMeta_rxlen, startMeta_rxbuf, startMeta_cfg, htlen, b1] at q2 q7 q8 q11 q12 q13
      have hb1 : byteAt (h ++ m) 1 = byteAt h 1 := by
        rcases h with _ | ⟨x, _ | ⟨y, h⟩⟩ <;> simp at r2
        rfl
      have hb0 : byteAt (h ++ m) 0 = byteAt h 0 := by
        rcases h with _ | ⟨x, h⟩ <;> simp at r2
        rfl
      refine ⟨h ++ m, [], (hro.trans q4).trans rfl, ?_, ?_, ?_, q10, fun h' => ?_, ?_,
        .metaGap rfl rfl q5 (by simp; omega) ?_ ?_ q9 ?_ (by rw [hb0]; exact hf')⟩
      · rw [← hin, r3, show incoming t = incoming (startMeta t) from rfl, q3]; simp; rfl
      · simp only [rxReturn_rxlen, q7, List.length_append, r2]
      · simp only [rxReturn_rxlen, rxReturn_rxbuf, q11, htake]
      · simp only [rxReturn_rxbuf]; rw [q12 (by rw [hlt h']; omega), hlt h']
      · simp only [rxReturn_tries, q13, hcfg]; omega
      · rw [hb1, List.length_append]; omega
      · rw [hb1, List.length_append, rxReturn_need, q8]; omega
      · rw [rxReturn_tries, q13, hcfg]
    rw [q1]
    simp only [startMeta_need, startMeta_rxlen, startMeta_rxbuf, startMeta_cfg, startMeta_tries, htlen, b1, hcfg]
      at q2 q7 q8 q10 q11 q12
    have hb1 : byteAt (h ++ m) 1 = byteAt h 1 := by
      rcases h with _ | ⟨x, _ | ⟨y, h⟩⟩ <;> simp at r2
      rfl
    have hb0 : byteAt (h ++ m) 0 = byteAt h 0 := by
      rcases h with _ | ⟨x, h⟩ <;> simp at r2
      rfl
    have hmlen : (h ++ m).length = 2 + metaLen (byteAt (h ++ m) 1) := by rw [hb1]; simp [r2, q2]
    rw [htake] at q10
    have hulen : u.rxlen = (h ++ m).length := by rw [q7, hmlen, hb1]
    have hdata : dataLen u.rxbuf = dataLen (h ++ m) :=
      dataLen_congr fun k hk => byteAt_of_take q10 (by rw [hulen, hmlen]; exact hk)
    have hul : 260 ≤ s.rxbuf.length → u.rxbuf.length = s.rxbuf.length := fun h' => by
      rw [q11 (by rw [hlt h']; omega), hlt h']
    have hinu : incoming s = (h ++ m) ++ incoming u := by
      rw [← hin, r3, show incoming t = incoming (startMeta t) from rfl, q3]; simp
    have hrou : ReceiverOnly s (startData u) := (hro.trans q4).trans rfl
    have hucfg : u.cfg = s.cfg := hrou.cfg
    have htot : u.rxlen + (dataLen u.rxbuf + 2) = totalLen (h ++ m) := by
      rw [hulen, hmlen, hdata]; unfold totalLen; omega
    unfold endMeta
    simp only [startData_need, htot]
    split
    · next hbig =>
      refine ⟨h ++ m, [], hrou.trans rfl, by rw [List.append_nil]; exact hinu, hulen, q10, q9, hul, q12 htries,
        .oversize rfl rfl rfl hmlen ?_ hbig (by rw [hb0]; exact hf')⟩
      rw [rxReturn_need, startData_need, hdata]
    · next hsmall =>
      have hsmall : totalLen (h ++ m) ≤ 260 := by simpa [Config.maxAdu] using hsmall
      have htail (d : List Byte) : totalLen (h ++ m ++ d) = totalLen (h ++ m)
          ∧ byteAt (h ++ m ++ d) 1 = byteAt (h ++ m) 1 ∧ byteAt (h ++ m ++ d) 0 = byteAt h 0 := by
        have key : ∀ k, k < (h ++ m).length → byteAt (h ++ m ++ d) k = byteAt (h ++ m) k := fun k hk => by
          simp only [byteAt, List.getD_eq_getElem?_getD]
          rw [List.getElem?_append_left hk]
        have k1 := key 1 (by simp; omega)
        refine ⟨?_, k1, (key 0 (by simp; omega)).trans hb0⟩
        unfold totalLen
        rw [k1, dataLen_congr fun k hk => key k (by rw [hmlen]; exact hk)]
      rcases readBytes_cases (dataLen u.rxbuf + 2) (startData u) (by simpa using q9) with
        ⟨d, v, p1, p2, p3, p4, p5, p6, p7, p8, p9, p10, p11, p12⟩ |
        ⟨d, v, p1, p2, p3, p4, p5, p6, p7, p8, p9, p10, p11, p12, p13⟩
      rotate_left
      · obtain ⟨t1, t2, t3⟩ := htail d
        rw [p1]
        simp only [startData_rxlen, startData_need, startData_rxbuf, startData_cfg, hucfg] at p7 p8 p11 p12 p13
        rw [q10] at p11
        refine ⟨h ++ m ++ d, [], (hrou.trans p4).trans rfl, ?_, ?_, by simpa using p11, p10, fun h' => ?_, ?_,
          .dataGap rfl rfl p5 ?_ ?_ ?_ p9 p13 (by rw [t1]; exact hsmall) (by rw [t3]; exact hf')⟩
        · rw [hinu, show incoming u = incoming (startData u) from rfl, p3]; simp; rfl
        · rw [rxReturn_rxlen, p7, hulen, List.length_append (as := h ++ m)]
        · rw [rxReturn_rxbuf, p12 (by rw [hul h', htot]; omega), hul h']
        · rw [rxReturn_tries, p13]
        · rw [t2, ← hmlen, List.length_append (as := h ++ m)]; omega
        · rw [t1, List.length_append (as := h ++ m), ← htot]; omega
        · rw [t1, List.length_append (as := h ++ m), ← htot, rxReturn_need, p8]; omega
      · obtain ⟨t1, t2, t3⟩ := htail d
        rw [p1]
        simp only [startData_rxlen, startData_need, startData_rxbuf, startData_cfg, startData_tries, hucfg]
          at p7 p8 p10 p11 p12
        rw [q10] at p10
        have hvlen : v.rxlen = (h ++ m ++ d).length := by rw [p7, List.length_append (as := h ++ m), hulen, p2]
        have hfull : (h ++ m ++ d).length = totalLen (h ++ m ++ d) := by rw [← hvlen, p7, htot, t1]
        have common (status : Word) : ReceiverOnly s (rxReturn status v)
            ∧ incoming s = h ++ m ++ d ++ [] ++ incoming (rxReturn status v)
            ∧ (rxReturn status v).rxlen = (h ++ m ++ d).length
            ∧ (rxReturn status v).rxbuf.take (rxReturn status v).rxlen = h ++ m ++ d
            ∧ (rxReturn status v).rxlen ≤ (rxReturn status v).rxbuf.length
            ∧ (260 ≤ s.rxbuf.length → (rxReturn status v).rxbuf.length = s.rxbuf.length)
            ∧ (rxReturn status v).tries ≤ s.cfg.rxRetries := by
          refine ⟨(hrou.trans p4).trans rfl, ?_, hvlen, p10, p9, fun h' => ?_, p12 (q12 htries)⟩
          · rw [hinu, show incoming u = incoming (startData u) from rfl, p3]; simp; rfl
          · rw [rxReturn_rxbuf, p11 (by rw [hul h', htot]; omega), hul h']
        have hneed : v.need = 0 := by rw [p8]; omega
        simp only [endData, p10]
        split
        · next hv =>
          obtain ⟨a, b, c, e, f, g, k⟩ := common rxInvalid
          exact ⟨_, _, a, b, c, e, f, g, k, .badCrc rfl rfl p5 hfull hneed (by rw [t1]; exact hsmall) hv
            (by rw [t3]; exact hf')⟩
        · next hv =>
          obtain ⟨a, b, c, e, f, g, k⟩ := common (rxAccepted v.rxlen)
          exact ⟨_, _, a, b, c, e, f, g, k, .accepted (by rw [rxReturn_rxStatus, hvlen]) rfl p5 hfull hneed
            (by rw [t1]; exact hsmall) (by rw [hv]; simp) (by rw [t3]; exact hf')⟩

end Sys2Proof.Machine
end

