-- ==== Sys2Proof/Laws/Session.lean ====
section
/-! SUPPORT. What a request, an iteration and a step can do: one lemma for each, which says everything a next state can
be. -/

namespace Sys2Proof.Machine

open Sys2Proof.Safety

/-- Every request is answered with a next state. -/
theorem exec_next (i : Instr) (s : State) : ∃ t, exec i s = .next t := by
  rw [exec_eq]; exact engine_next _ _ _ _

/-- The first move of the agenda is the next move, unless the mapper's contract puts another before it. -/
theorem schedule_head {s : State} {m : HostMove} {rest : List HostMove} (h : s.agenda = m :: rest)
    (ht : m = .tick → s.mapper ≠ .late) (hs : m = .sample → s.mapper ≠ .early) :
    nextMove s = m ∧ consumed s = { s with agenda := rest, mapper := mapperAfter m s.mapper } := by
  have hc : schedule s = (m, { s with agenda := rest }) := by
    unfold schedule
    rw [h]
    cases m <;> cases hm : s.mapper <;> first | rfl | exact absurd hm (ht rfl) | exact absurd hm (hs rfl)
  unfold consumed nextMove
  rw [hc]
  exact ⟨rfl, rfl⟩

/-- A load or a reset is the next move only as the first of the agenda. -/
theorem schedule_other {s : State} {m : HostMove} (h : nextMove s = m) (ht : m ≠ .tick) (hs : m ≠ .sample) :
    ∃ rest, s.agenda = m :: rest ∧ consumed s = { s with agenda := rest } := by
  cases ha : s.agenda with
  | nil =>
    unfold nextMove schedule at h
    rw [ha] at h
    cases hm : s.mapper with
    | late => rw [hm] at h; exact absurd h.symm hs
    | early => rw [hm] at h; exact absurd h.symm ht
    | even =>
      rw [hm] at h
      simp only [freeMove] at h
      split at h
      · exact absurd h.symm hs
      · exact absurd h.symm ht
  | cons m' rest =>
    have hsame : mapperAfter m s.mapper = s.mapper := by
      cases m <;> first | rfl | exact absurd rfl ht | exact absurd rfl hs
    by_cases hd : (m' = .tick → s.mapper ≠ .late) ∧ (m' = .sample → s.mapper ≠ .early)
    · obtain ⟨hn, hc⟩ := schedule_head ha hd.1 hd.2
      rw [h] at hn
      subst hn
      exact ⟨rest, rfl, by rw [hc, hsame]⟩
    · unfold nextMove schedule at h
      rw [ha] at h
      cases m' <;> cases hm : s.mapper <;> simp_all

/-- The mapper's contract: no sample is next while the coming tick has had its own, no tick while the last is owed
one. -/
theorem nextMove_contract (s : State) :
    (s.mapper = .late → nextMove s ≠ .tick) ∧ (s.mapper = .early → nextMove s ≠ .sample) := by
  unfold nextMove schedule
  split <;> simp_all

/-- What follows a receive: nothing, or the execution of the request that was received. -/
theorem afterReceive_cases {s t : State} (h : afterReceive s = .next t) :
    (rxPositive s.rxStatus = false ∧ t = endTick s)
    ∨ ∃ i rest u, rxPositive s.rxStatus = true ∧ decode (s.rxbuf.take s.rxStatus.toNat) = .ok (i, rest)
        ∧ exec i { s with ctrl := .replying } = .next u ∧ t = endTick u := by
  unfold afterReceive at h
  split at h
  · next hp =>
    unfold reply at h
    split at h
    · next i rest hd =>
      obtain ⟨u, hu⟩ := exec_next i { s with ctrl := .replying }
      rw [hu] at h
      simp only [afterReply, Host.Outcome.next.injEq] at h
      exact .inr ⟨i, rest, u, hp, hd, hu, h.symm⟩
    · cases h
  · next hp =>
    simp only [Host.Outcome.next.injEq] at h
    exact .inl ⟨by simpa using hp, h.symm⟩

/-- What an iteration does: nothing when no byte is available, else a receive and what follows it. -/
theorem iteration_cases {s t : State} (h : iteration s = .next t) :
    ((poll s).queue = [] ∧ t = endTick (poll s))
    ∨ (poll s).queue ≠ [] ∧ afterReceive (receive { poll s with ctrl := .receiving }) = .next t := by
  unfold iteration at h
  split at h
  · next hq => simp only [Host.Outcome.next.injEq] at h; exact .inl ⟨hq, h.symm⟩
  · next hq => exact .inr ⟨hq, h⟩

/-- An iteration leaves the agenda, the mapper and its last snapshot, the free choices, the configuration and the link
alone. -/
theorem iteration_frame {s t : State} (h : iteration s = .next t) :
    t.agenda = s.agenda ∧ t.mapper = s.mapper ∧ t.snapshot = s.snapshot ∧ t.freeIdx = s.freeIdx ∧ t.cfg = s.cfg
      ∧ t.linkBaud = s.linkBaud := by
  rcases iteration_cases h with ⟨-, rfl⟩ | ⟨-, h⟩
  · simp
  · obtain ⟨bs, more, hr, -⟩ := receive_cases { poll s with ctrl := .receiving }
    rcases afterReceive_cases h with ⟨-, rfl⟩ | ⟨i, rest, u, -, -, hu, rfl⟩
    · rw [hr]; simp
    · rw [exec_eq] at hu
      rcases engine_cases hu with ⟨-, rfl⟩ | ⟨-, m, body, -, rfl⟩ | ⟨-, e, -, rfl⟩
      · rw [hr]; simp
      · obtain ⟨rsp, hq, -⟩ := respond_eq i.slave body
          { { receive { poll s with ctrl := .receiving } with ctrl := .replying } with map := m }
        rw [hq, hr]; simp
      · obtain ⟨rsp, hq, -⟩ := respond_eq i.slave (exceptionBody i.slave i.code e)
          { receive { poll s with ctrl := .receiving } with ctrl := .replying }
        rw [takeException, hq, hr]; simp

/-- A step of an idle block with a configuration of this hardware is the environment's next move. -/
theorem step_eq {s : State} (hl : s.cfg.Legal) (hc : s.ctrl = .idle) : step s = perform (nextMove s) (consumed s) := by
  unfold step advance
  rw [if_neg (not_not.2 hl), if_neg (not_not.2 hc)]

/-- A step whose next move is a tick is one iteration. -/
theorem step_of_tick {s : State} (hl : s.cfg.Legal) (hc : s.ctrl = .idle) (ht : TickNext s) :
    step s = iteration (consumed s) := by
  rw [step_eq hl hc, ht, perform]

/-- Everything a step can do: a tick, a coil sample, an input load of an existing element, or a reset. -/
theorem step_cases {s t : State} (h : step s = .next t) :
    s.cfg.Legal ∧ s.ctrl = .idle
    ∧ ((TickNext s ∧ iteration (consumed s) = .next t)
      ∨ (nextMove s = .sample ∧ t = sampleCoils (consumed s))
      ∨ (∃ k v rest, nextMove s = .loadDinput k v ∧ s.agenda = .loadDinput k v :: rest ∧ k < s.cfg.dinputCount
          ∧ t = { s with agenda := rest, map := writeBit s.map .dinputs k v })
      ∨ (∃ k v rest, nextMove s = .loadInreg k v ∧ s.agenda = .loadInreg k v :: rest ∧ k < s.cfg.inregCount
          ∧ t = { s with agenda := rest, map := writeReg s.map .inregs k v })
      ∨ ∃ rest, nextMove s = .reset ∧ s.agenda = .reset :: rest ∧ t = resetMove { s with agenda := rest }) := by
  by_cases hl : s.cfg.Legal
  swap
  · unfold step advance at h; rw [if_pos hl] at h; cases h
  by_cases hc : s.ctrl = .idle
  swap
  · unfold step advance at h; rw [if_neg (not_not.2 hl), if_pos hc] at h; cases h
  refine ⟨hl, hc, ?_⟩
  rw [step_eq hl hc] at h
  cases hn : nextMove s with
  | tick => rw [hn] at h; exact .inl ⟨hn, h⟩
  | sample => rw [hn] at h; injection h with h; exact .inr (.inl ⟨rfl, h.symm⟩)
  | loadDinput k v =>
    obtain ⟨rest, ha, hs⟩ := schedule_other hn (by simp) (by simp)
    rw [hn, hs, perform, loadDinput] at h
    split at h
    · next hk => injection h with h; exact .inr (.inr (.inl ⟨_, _, _, rfl, ha, hk, h.symm⟩))
    · cases h
  | loadInreg k v =>
    obtain ⟨rest, ha, hs⟩ := schedule_other hn (by simp) (by simp)
    rw [hn, hs, perform, loadInreg] at h
    split at h
    · next hk => injection h with h; exact .inr (.inr (.inr (.inl ⟨_, _, _, rfl, ha, hk, h.symm⟩)))
    · cases h
  | reset =>
    obtain ⟨rest, ha, hs⟩ := schedule_other hn (by simp) (by simp)
    rw [hn, hs] at h
    injection h with h
    exact .inr (.inr (.inr (.inr ⟨_, rfl, ha, h.symm⟩)))

end Sys2Proof.Machine
end

