-- ==== Sys2Proof/Tests/Slice0.lean ====
section
/-! SUPPORT. Tests of single functions and single steps, with expected results from `spec/95_test_vectors.md` (its
vector names are given), and for each statement about the machine a witness that its hypotheses, and each of its
clauses, are met. -/

namespace Sys2Proof.Tests

open Sys2Proof.Machine Sys2Proof.Safety

/-! ### Helpers -/

/-- A state with a configuration, a map and the bytes in the transport, whose next move is a tick. -/
def withBytes (c : Cfg) (m : RegMap) (bytes : List Byte) : State :=
  { State.startup c with map := m, queue := bytes, agenda := [.tick] }

/-- The conventions of `95_test_vectors.md` with the bytes in the transport. -/
def conv (bytes : List Byte) : State := withBytes Config.default RegMap.zero bytes

/-- The writes to the transport so far, after one step. -/
def sent (s : State) : Option (List (List Byte)) :=
  match step s with
  | .next t => some t.txLog
  | _ => none

/-- The Register Map after one step. -/
def mapAfter (s : State) : Option RegMap :=
  match step s with
  | .next t => some t.map
  | _ => none

/-- Status, remaining bytes and number of delays after one receive. -/
def received (bytes : List Byte) : Word × List Byte × Nat :=
  ((receive (conv bytes)).rxStatus, (receive (conv bytes)).queue, (receive (conv bytes)).delayLog.length)

/-- The state in which the Reply Engine is called with an 8-byte frame. -/
def replying8 : State := { State.reset with rxStatus := 8 }

/-- A configuration with another base and count of `hold` (program P1). -/
def cfgP1 : Cfg := { Config.default with holdStart := 0x0100, holdCount := 8 }

/-- A configuration with an empty array of coils. -/
def cfgNoCoils : Cfg := { Config.default with coilCount := 0 }

/-- The conventions with BROADCAST_REPLY false. -/
def cfgSilent : Cfg := { Config.default with broadcastReply := false }

/-- `coils[0..10)` of V-RD-1 and `inregs[1]` of V-RD-4. -/
def mapRd : RegMap :=
  writeReg (writeBits RegMap.zero .coils 0 [true, false, true, true, false, false, true, true, true, false])
    .inregs 1 0x1234

/-! ### Well-formedness -/

theorem test_wf_rqm_length : (Instr.wrmcoils 5 0 8 2 [0xFF]).wellFormed = false := by decide

theorem test_wf_rqm_count : (Instr.wrmregs 5 0 8 252 (List.replicate 252 0)).wellFormed = false := by
  set_option maxRecDepth 100000 in decide

theorem test_wf_rqm_max : (Instr.wrmcoils 5 0 1968 251 (List.replicate 251 0xFF)).wellFormed = true := by
  set_option maxRecDepth 100000 in decide

theorem test_wf_rqk_length : (Instr.maskwr 5 [0, 4, 0, 0xF2, 0]).wellFormed = false := by decide

theorem test_wf_rqw_metadata : (Instr.wrrdregs 5 [0, 0, 0, 1, 0, 0, 0, 0] []).wellFormed = false := by decide

theorem test_wf_rqw_data : (Instr.wrrdregs 5 [0, 0, 0, 1, 0, 0, 0, 0, 1] []).wellFormed = false := by decide

theorem test_wf_rqw_count :
    (Instr.wrrdregs 5 [0, 0, 0, 1, 0, 0, 0, 0, 248] (List.replicate 248 0)).wellFormed = false := by
  set_option maxRecDepth 100000 in decide

theorem test_wf_rqw_max :
    (Instr.wrrdregs 5 [0, 0, 0, 1, 0, 0, 0, 0x7B, 247] (List.replicate 247 0)).wellFormed = true := by
  set_option maxRecDepth 100000 in decide

theorem test_wf_rq0_listed : (Instr.other 5 0x10).wellFormed = false := by decide

theorem test_wf_rq0_unlisted : (Instr.other 5 0x99).wellFormed = true := by decide

/-! ### The checksum -/

/-- V-CK-1, V-CK-2, V-CK-4, V-CK-8. -/
theorem test_crc_values :
    crcStd [] = 0xFFFF ∧ crcStd [0x00] = 0x40BF ∧ crcStd [0xFF] = 0x00FF
      ∧ crc16 [0x01, 0x03, 0x00, 0x00, 0x00, 0x0A] = 0xC5CD := by
  set_option maxRecDepth 100000 in decide

/-- V-CK-14, V-CK-15, V-CK-17, V-CK-19. -/
theorem test_validate :
    validate [0xFF] = none ∧ validate [0xFF, 0xFF] = some 2 ∧ validate [0x00, 0xBF, 0x40] = some 3
      ∧ validate [0x05, 0x03, 0x00, 0x00, 0x00, 0x02, 0x8F, 0xC5] = none := by
  set_option maxRecDepth 100000 in decide

/-! ### The decoder: one word of each row, written from its encoding -/

set_option maxRecDepth 100000

/-- V-RD-10, all 16 bits of the address set. -/
theorem test_decode_rdcoils :
    decode [0x05, 0x01, 0xFF, 0xFF, 0x00, 0x00, 0x3D, 0xAA] = .ok (.rdcoils 5 0xFFFF 0, []) := by decide

/-- V-RD-15. -/
theorem test_decode_rddisc :
    decode [0x05, 0x02, 0x00, 0x00, 0x00, 0x11, 0xB9, 0x82] = .ok (.rddisc 5 0 0x0011, []) := by decide

/-- V-BC-2, the broadcast address. -/
theorem test_decode_rdhold :
    decode [0x00, 0x03, 0x00, 0x00, 0x00, 0x01, 0x85, 0xDB] = .ok (.rdhold 0 0 1, []) := by decide

/-- V-RD-4. -/
theorem test_decode_rdinreg :
    decode [0x05, 0x04, 0x00, 0x01, 0x00, 0x01, 0x61, 0x8E] = .ok (.rdinreg 5 1 1, []) := by decide

/-- V-WR-3, with bytes of a next frame behind it. -/
theorem test_decode_wrcoil :
    decode [0x05, 0x05, 0x00, 0x02, 0x12, 0x34, 0x60, 0xF9, 0x05, 0x06]
      = .ok (.wrcoil 5 2 0x1234, [0x05, 0x06]) := by decide

/-- V-WR-6. -/
theorem test_decode_wrreg :
    decode [0x05, 0x06, 0x00, 0x03, 0xAB, 0xCD, 0xC6, 0xEB] = .ok (.wrreg 5 3 0xABCD, []) := by decide

/-- V-WR-12, a byte count larger than needed. -/
theorem test_decode_wrmcoils :
    decode [0x05, 0x0F, 0x00, 0x04, 0x00, 0x01, 0x03, 0xFE, 0xFF, 0xFF, 0x39, 0xE3]
      = .ok (.wrmcoils 5 4 1 3 [0xFE, 0xFF, 0xFF], []) := by decide

/-- V-WR-16, no data bytes. -/
theorem test_decode_wrmregs :
    decode [0x05, 0x10, 0x00, 0x01, 0x00, 0x00, 0x00, 0x4D, 0x6C] = .ok (.wrmregs 5 1 0 0 [], []) := by decide

/-- V-UN-1. -/
theorem test_decode_maskwr :
    decode [0x05, 0x16, 0x00, 0x04, 0x00, 0xF2, 0x00, 0x25, 0x66, 0x1D]
      = .ok (.maskwr 5 [0x00, 0x04, 0x00, 0xF2, 0x00, 0x25], []) := by decide

/-- V-UN-2. -/
theorem test_decode_wrrdregs :
    decode [0x05, 0x17, 0x00, 0x03, 0x00, 0x06, 0x00, 0x0E, 0x00, 0x03, 0x06, 0x00, 0xFF, 0x00, 0xFF, 0x00, 0xFF, 0x04,
        0x50]
      = .ok (.wrrdregs 5 [0x00, 0x03, 0x00, 0x06, 0x00, 0x0E, 0x00, 0x03, 0x06]
          [0x00, 0xFF, 0x00, 0xFF, 0x00, 0xFF], []) := by decide

/-- V-UN-10, a function code with bit 7 set. -/
theorem test_decode_other : decode [0x05, 0x83, 0x43, 0x41] = .ok (.other 5 0x83, []) := by decide

/-- V-RX-2: a frame without its last byte. -/
theorem test_decode_truncated :
    decode [0x05, 0x03, 0x00, 0x00, 0x00, 0x02, 0xC5] = .error .truncated := by decide

/-- V-RX-9: a byte count of 252. -/
theorem test_decode_oversize :
    decode [0x05, 0x0F, 0x00, 0x00, 0x00, 0x0A, 0xFC] = .error .oversize := by decide

/-- V-RX-14: one bit of the CRC wrong. -/
theorem test_decode_badCrc :
    decode [0x05, 0x03, 0x00, 0x00, 0x00, 0x02, 0xC5, 0x8E] = .error .badCrc := by decide

/-- The table's numbering: the function code is the lowest byte, the address follows it high byte first. -/
theorem test_table_rdcoils : decodeTableWord 40 0x0A00130001 = some (.rdcoils 0 0x0013 10) := by decide

/-- A table word of RQM with a byte count of 0. -/
theorem test_table_wrmregs : decodeTableWord 48 0x000200010010 = some (.wrmregs 0 1 2 0 []) := by decide

/-- The word placed where the next step fetches is the word that the decoder reads there. -/
theorem test_withFetchWord :
    ((State.reset.withFetchWord 40 0x0A00130001).queue.take 8)
      = [0x00, 0x01, 0x00, 0x13, 0x00, 0x0A, 0x4C, 0x19] := by decide

/-! ### One step for each instruction, two for most -/

/-- V-RD-1. -/
theorem test_rdcoils_packed :
    sent (withBytes Config.default mapRd [0x05, 0x01, 0x00, 0x00, 0x00, 0x0A, 0xBD, 0x89])
      = some [[0x05, 0x01, 0x02, 0xCD, 0x01, 0xDD, 0x6C]] := by decide

/-- V-RD-10: a bad quantity wins over a bad address. -/
theorem test_rdcoils_order :
    sent (conv [0x05, 0x01, 0xFF, 0xFF, 0x00, 0x00, 0x3D, 0xAA]) = some [[0x05, 0x81, 0x03, 0x41, 0x90]] := by decide

/-- V-RD-16: exactly the extent. -/
theorem test_rddisc_extent :
    sent (conv [0x05, 0x02, 0x00, 0x00, 0x00, 0x10, 0x78, 0x42])
      = some [[0x05, 0x02, 0x02, 0x00, 0x00, 0x48, 0x78]] := by decide

/-- V-RD-15: one past the extent. -/
theorem test_rddisc_past :
    sent (conv [0x05, 0x02, 0x00, 0x00, 0x00, 0x11, 0xB9, 0x82]) = some [[0x05, 0x82, 0x02, 0x80, 0xA0]] := by decide

/-- V-RD-3, scenario S7. -/
theorem test_rdhold_zero :
    sent (conv [0x05, 0x03, 0x00, 0x00, 0x00, 0x02, 0xC5, 0x8F])
      = some [[0x05, 0x03, 0x04, 0x00, 0x00, 0x00, 0x00, 0xBF, 0xF3]] := by decide

/-- Base translation: an address below the base. -/
theorem test_rdhold_below :
    sent (withBytes cfgP1 RegMap.zero [0x05, 0x03, 0x00, 0xFF, 0x00, 0x01, 0xB5, 0xBE])
      = some [[0x05, 0x83, 0x02, 0x81, 0x30]] := by decide

/-- V-RD-4: big-endian. -/
theorem test_rdinreg_value :
    sent (withBytes Config.default mapRd [0x05, 0x04, 0x00, 0x01, 0x00, 0x01, 0x61, 0x8E])
      = some [[0x05, 0x04, 0x02, 0x12, 0x34, 0x45, 0x87]] := by decide

/-- V-RD-14. -/
theorem test_rdinreg_past :
    sent (conv [0x05, 0x04, 0x00, 0x10, 0x00, 0x01, 0x31, 0x8B]) = some [[0x05, 0x84, 0x02, 0x83, 0x00]] := by decide

/-- V-WR-1. -/
theorem test_wrcoil_sets :
    (mapAfter (conv [0x05, 0x05, 0x00, 0x02, 0xFF, 0x00, 0x2C, 0x7E])).map (fun m => readBits m .coils 0 4)
      = some [false, false, true, false] := by decide

/-- V-WR-3, scenario S9. -/
theorem test_wrcoil_badValue :
    sent (conv [0x05, 0x05, 0x00, 0x02, 0x12, 0x34, 0x60, 0xF9]) = some [[0x05, 0x85, 0x03, 0x43, 0x50]] := by decide

/-- V-WR-6. -/
theorem test_wrreg_writes :
    (mapAfter (conv [0x05, 0x06, 0x00, 0x03, 0xAB, 0xCD, 0xC6, 0xEB])).map (fun m => m.hold)
      = some [(3, 0xABCD)] := by decide

/-- V-BC-3: a broadcast is executed and not answered. -/
theorem test_wrreg_broadcast :
    sent (withBytes cfgSilent RegMap.zero [0x00, 0x06, 0x00, 0x00, 0x55, 0xAA, 0x37, 0x34]) = some []
      ∧ (mapAfter (withBytes cfgSilent RegMap.zero [0x00, 0x06, 0x00, 0x00, 0x55, 0xAA, 0x37, 0x34])).map
          (fun m => m.hold) = some [(0, 0x55AA)] := by decide

/-- V-WR-13: the surplus bit is ignored. -/
theorem test_wrmcoils_surplus :
    (mapAfter (conv [0x05, 0x0F, 0x00, 0x0C, 0x00, 0x03, 0x01, 0xFD, 0x5F, 0x24])).map
      (fun m => readBits m .coils 11 5) = some [false, true, false, true, false] := by decide

/-- V-WR-9: one data byte for nine coils. -/
theorem test_wrmcoils_short :
    sent (conv [0x05, 0x0F, 0x00, 0x00, 0x00, 0x09, 0x01, 0xFF, 0xEE, 0xE6])
      = some [[0x05, 0x8F, 0x03, 0x45, 0xF0]] := by decide

/-- V-WR-14. -/
theorem test_wrmregs_writes :
    (mapAfter (conv [0x05, 0x10, 0x00, 0x01, 0x00, 0x02, 0x04, 0x00, 0x0A, 0x01, 0x02, 0x87, 0x00])).map
      (fun m => m.hold) = some [(1, 0x000A), (2, 0x0102)] := by decide

/-- V-WR-17: no register is written when the last one does not exist. -/
theorem test_wrmregs_past :
    sent (conv [0x05, 0x10, 0x00, 0x0F, 0x00, 0x02, 0x04, 0x00, 0x01, 0x00, 0x02, 0x76, 0xDE])
        = some [[0x05, 0x90, 0x02, 0x8C, 0x00]]
      ∧ mapAfter (conv [0x05, 0x10, 0x00, 0x0F, 0x00, 0x02, 0x04, 0x00, 0x01, 0x00, 0x02, 0x76, 0xDE])
        = some RegMap.zero := by decide

/-- V-UN-1. -/
theorem test_maskwr :
    sent (conv [0x05, 0x16, 0x00, 0x04, 0x00, 0xF2, 0x00, 0x25, 0x66, 0x1D])
      = some [[0x05, 0x96, 0x01, 0xCF, 0xA1]] := by decide

/-- V-UN-3. -/
theorem test_wrrdregs :
    sent (conv [0x05, 0x17, 0x00, 0x00, 0x00, 0x01, 0x00, 0x00, 0x00, 0x00, 0x00, 0xA6, 0xB6])
      = some [[0x05, 0x97, 0x01, 0xCE, 0x31]] := by decide

/-- V-UN-4, scenario S8. -/
theorem test_other : sent (conv [0x05, 0x99, 0xC2, 0x8A]) = some [[0x05, 0x99, 0x01, 0xCA, 0x51]] := by decide

/-- V-UN-11: a broadcast exception, not answered. -/
theorem test_other_silent : sent (withBytes cfgSilent RegMap.zero [0x00, 0x2B, 0x41, 0xAF]) = some [] := by decide

/-! ### The receiver and the session -/

/-- V-RX-2, scenario S10: seven bytes consumed, then ten delays. -/
theorem test_receive_timeout : received [0x05, 0x03, 0x00, 0x00, 0x00, 0x02, 0xC5] = (-2, [], 10) := by decide

/-- V-RX-5: two bytes read, six flushed. -/
theorem test_receive_foreign : received [0x09, 0x03, 0x00, 0x00, 0x00, 0x02, 0xC5, 0x43] = (0, [], 0) := by decide

/-- V-RX-15: a code framed as four bytes, the rest stays. -/
theorem test_receive_residue :
    received [0x05, 0x08, 0x00, 0x00, 0xA5, 0x37, 0xDB, 0x09] = (-1, [0xA5, 0x37, 0xDB, 0x09], 0) := by decide

/-- V-SL-2, tick 1: one frame per tick, the second stays. -/
theorem test_one_frame_per_tick :
    (match step (conv [0x05, 0x06, 0x00, 0x01, 0x00, 0x07, 0x98, 0x4C, 0x05, 0x03, 0x00, 0x01, 0x00, 0x01, 0xD4, 0x4E])
      with
      | .next t => some (t.queue, t.txLog)
      | _ => none)
      = some ([0x05, 0x03, 0x00, 0x01, 0x00, 0x01, 0xD4, 0x4E],
          [[0x05, 0x06, 0x00, 0x01, 0x00, 0x07, 0x98, 0x4C]]) := by decide

/-- The poll-level trace of V-RX: a byte that arrives at the third poll costs two delays. -/
theorem test_third_poll :
    (match acquireByte { State.reset with arrivals := [[], [], [0x2A]] } with
      | .byte b t => some (b, t.delayLog, t.tries)
      | .gap _ => none) = some (0x2A, [1, 1], 2) := by decide

/-- The start-up map is in canonical form. -/
theorem test_reset_map : Memory.wf State.reset.cfg State.reset.map := by decide

/-! ### Witnesses: the hypotheses of the statements can be met, clause by clause -/

theorem witness_crcRoundTrip_coil : ∃ t adu, exec (.wrcoil 5 2 0xFF00) replying8 = .next t
    ∧ t.txLog = replying8.txLog ++ [adu] ∧ byteAt adu 1 = 0x05 :=
  ⟨_, [0x05, 0x05, 0x00, 0x02, 0xFF, 0x00, 0x2C, 0x7E], rfl, by decide, by decide⟩

theorem witness_crcRoundTrip_register : ∃ t adu, exec (.wrreg 5 3 0xABCD) replying8 = .next t
    ∧ t.txLog = replying8.txLog ++ [adu] ∧ byteAt adu 1 = 0x06 :=
  ⟨_, [0x05, 0x06, 0x00, 0x03, 0xAB, 0xCD, 0xC6, 0xEB], rfl, by decide, by decide⟩

/-- V-CK-18, with the function code replaced. -/
theorem witness_crcDetects :
    (0x03 : Byte) ≠ 0x04 ∧ validate ([0x05] ++ 0x03 :: [0x00, 0x00, 0x00, 0x02, 0xC5, 0x8F]) = some 8 := by decide

theorem witness_encodeOfDecode : ∃ i rest, decode [0x05, 0x99, 0xC2, 0x8A, 0x01] = .ok (i, rest) :=
  ⟨.other 5 0x99, [0x01], by decide⟩

/-- Below the base; an empty space; past the extent by one; exactly the extent; on the way an index of 7. -/
theorem witness_translateBounds :
    ((0x00FF#16).toNat < base cfgP1 (.regs .hold))
    ∧ (extent cfgNoCoils (.bits .coils) = 0)
    ∧ ((0x0107#16).toNat + 2 > base cfgP1 (.regs .hold) + extent cfgP1 (.regs .hold))
    ∧ (base cfgP1 (.regs .hold) ≤ (0x0107#16).toNat
        ∧ (0x0107#16).toNat + 1 = base cfgP1 (.regs .hold) + extent cfgP1 (.regs .hold))
    ∧ translate cfgP1 (.regs .hold) 0x0107 1 = .ok 7 := by
  refine ⟨?_, ?_, ?_, ?_, ?_⟩ <;> decide

/-- Both accepted addresses, and the three clauses of the bit reads at quantity 0, 2001, 2000 and 16. -/
theorem witness_readBits :
    Accepted replying8.cfg 5 ∧ Accepted replying8.cfg 0
    ∧ ((0#16).toNat < 1 ∧ 2000 < (2001#16).toNat)
    ∧ (¬ ((2000#16).toNat < 1 ∨ 2000 < (2000#16).toNat)
        ∧ ¬ InExtent replying8.cfg (.bits .coils) 0 (2000#16).toNat)
    ∧ (InExtent replying8.cfg (.bits .coils) 0 (16#16).toNat ∧ InExtent replying8.cfg (.bits .dinputs) 15 1
        ∧ ¬ InExtent replying8.cfg (.bits .dinputs) 15 2) := by decide

/-- The three clauses of the register reads at quantity 0, 126, 125 and at both ends of the window. -/
theorem witness_readRegs :
    ((0#16).toNat < 1 ∧ 125 < (126#16).toNat)
    ∧ (¬ ((125#16).toNat < 1 ∨ 125 < (125#16).toNat)
        ∧ ¬ InExtent replying8.cfg (.regs .inregs) 0 (125#16).toNat)
    ∧ (InExtent cfgP1 (.regs .hold) 0x0100 8 ∧ ¬ InExtent cfgP1 (.regs .hold) 0x00FF 1
        ∧ ¬ InExtent cfgP1 (.regs .hold) 0x0107 2) := by decide

/-- The four clauses of WRCOIL: a bad value, a bad address, another frame length, the write. -/
theorem witness_writeSingleCoil :
    ((0x1234#16) ≠ 0x0000 ∧ (0x1234#16) ≠ 0xFF00)
    ∧ ¬ ((0xFF00#16) ≠ 0x0000 ∧ (0xFF00#16) ≠ 0xFF00) ∧ ¬ ((0x0000#16) ≠ 0x0000 ∧ (0x0000#16) ≠ 0xFF00)
    ∧ ¬ InExtent replying8.cfg (.bits .coils) 16 1 ∧ InExtent replying8.cfg (.bits .coils) 15 1
    ∧ State.reset.rxStatus ≠ 8 ∧ replying8.rxStatus = 8 := by decide

/-- The three clauses of WRREG. -/
theorem witness_writeSingleRegister :
    Accepted replying8.cfg 5 ∧ ¬ InExtent replying8.cfg (.regs .hold) 16 1
    ∧ InExtent replying8.cfg (.regs .hold) 15 1 ∧ State.reset.rxStatus ≠ 8 ∧ replying8.rxStatus = 8 := by decide

/-- The clauses of WRMCOILS: quantity 0, 1969, 1968; a byte count just too small and just large enough; the extent. -/
theorem witness_writeMultipleCoils :
    ((0#16).toNat < 1 ∧ 1968 < (1969#16).toNat ∧ (1#8).toNat * 8 < (9#16).toNat)
    ∧ ¬ ((1968#16).toNat < 1 ∨ 1968 < (1968#16).toNat ∨ (246#8).toNat * 8 < (1968#16).toNat)
    ∧ ¬ InExtent replying8.cfg (.bits .coils) 10 7 ∧ InExtent replying8.cfg (.bits .coils) 10 6 := by decide

/-- The clauses of WRMREGS: quantity 0, 124, 123; a byte count of 3 and of 4 for two registers; the extent. -/
theorem witness_writeMultipleRegisters :
    ((0#16).toNat < 1 ∧ 123 < (124#16).toNat ∧ (3#8).toNat ≠ 2 * (2#16).toNat)
    ∧ ¬ ((123#16).toNat < 1 ∨ 123 < (123#16).toNat ∨ (246#8).toNat ≠ 2 * (123#16).toNat)
    ∧ ¬ InExtent replying8.cfg (.regs .hold) 15 2 ∧ InExtent replying8.cfg (.regs .hold) 14 2 := by decide

theorem witness_unsupported : Accepted State.reset.cfg 5 ∧ Accepted cfgSilent 0 := by decide

/-- A foreign address, and a receive that accepts. -/
theorem witness_foreign :
    ¬ Accepted State.reset.cfg (Instr.other 9 0x99).slave
    ∧ rxPositive (receive (conv [0x05, 0x99, 0xC2, 0x8A])).rxStatus = true := by decide

/-- For RequestFrame, MapAccessRights, ExceptionLeavesMapUnchanged and RequestsAreIdempotent: a request that reads and
one that writes, each accepted and answered. -/
theorem witness_exec :
    (∃ t, exec (.rdhold 5 0 2) replying8 = .next t)
    ∧ (∃ t, exec (.wrreg 5 3 0xABCD) replying8 = .next t)
    ∧ Accepted replying8.cfg (Instr.rdhold 5 0 2).slave
    ∧ (Instr.rdhold 5 0 2).code ≠ 0x05 ∧ (Instr.rdhold 5 0 2).code ≠ 0x0F
    ∧ (Instr.rdhold 5 0 2).code ≠ 0x06 ∧ (Instr.rdhold 5 0 2).code ≠ 0x10
    ∧ Memory.wf replying8.cfg replying8.map :=
  ⟨⟨_, rfl⟩, ⟨_, rfl⟩, by decide⟩

/-- An exception response (V-WR-7): five bytes, the shortest. -/
theorem witness_responseShape : ∃ t adu, exec (.wrreg 5 16 1) replying8 = .next t
    ∧ t.txLog = replying8.txLog ++ [adu] :=
  ⟨_, [0x05, 0x86, 0x02, 0x82, 0x60], rfl, by decide⟩

theorem witness_broadcast : (Instr.wrcoil 0 0 0xFF00).slave = 0 := by decide

/-- V-WR-8, at the largest byte count its quantity leaves room for and at the smallest. -/
theorem witness_writeCoilsReadBack :
    Accepted replying8.cfg 5 ∧ 1 ≤ (10#16).toNat ∧ (10#16).toNat ≤ 1968 ∧ (10#16).toNat ≤ (2#8).toNat * 8
    ∧ InExtent replying8.cfg (.bits .coils) 6 (10#16).toNat := by decide

/-- V-WR-14. -/
theorem witness_writeRegistersReadBack :
    Accepted replying8.cfg 5 ∧ 1 ≤ (2#16).toNat ∧ (2#16).toNat ≤ 123 ∧ (4#8).toNat = 2 * (2#16).toNat
    ∧ ([0x00, 0x0A, 0x01, 0x02] : List Byte).length = (4#8).toNat
    ∧ InExtent replying8.cfg (.regs .hold) 14 (2#16).toNat := by decide

/-- A byte in the queue; a byte at the last poll that still counts; eleven empty polls. -/
theorem witness_byteWait :
    (conv [0x05]).queue = 0x05 :: []
    ∧ (State.reset.queue = [] ∧ State.reset.cfg.rxRetries = 10
        ∧ ({ State.reset with arrivals := List.replicate 10 [] ++ [[0x05]] } : State).arrivals
          = List.replicate 10 [] ++ (0x05 :: []) :: [])
    ∧ ∀ batch ∈ ({ State.reset with arrivals := List.replicate 11 [] ++ [[0x05]] } : State).arrivals.take
        (State.reset.cfg.rxRetries + 1), batch = [] := by decide

/-- For ReceiveAcceptsRequests and StepRunsDecodedInstruction: V-UN-4 in the queue, and the next move a tick. -/
theorem witness_acceptedFrame :
    (Instr.other 5 0x99).wellFormed = true ∧ Accepted (conv [0x05, 0x99, 0xC2, 0x8A]).cfg (Instr.other 5 0x99).slave
    ∧ (conv [0x05, 0x99, 0xC2, 0x8A]).queue = encode (.other 5 0x99) ++ []
    ∧ decode (conv [0x05, 0x99, 0xC2, 0x8A]).queue = .ok (.other 5 0x99, [])
    ∧ (conv [0x05, 0x99, 0xC2, 0x8A]).cfg.Legal ∧ (conv [0x05, 0x99, 0xC2, 0x8A]).ctrl = .idle
    ∧ TickNext (conv [0x05, 0x99, 0xC2, 0x8A]) := by
  refine ⟨?_, ?_, ?_, ?_, ?_, ?_, rfl⟩ <;> decide

/-- V-RX-2 (all but the last byte) and V-RX-4 (a lone foreign byte). -/
theorem witness_silence :
    ((conv [0x05, 0x03, 0x00, 0x00, 0x00, 0x02, 0xC5]).queue = [0x05, 0x03, 0x00, 0x00, 0x00, 0x02, 0xC5]
      ∧ (conv [0x05, 0x03, 0x00, 0x00, 0x00, 0x02, 0xC5]).arrivals = []
      ∧ (Instr.rdhold 5 0 2).wellFormed = true
      ∧ Accepted (conv [0x05, 0x03, 0x00, 0x00, 0x00, 0x02, 0xC5]).cfg (Instr.rdhold 5 0 2).slave
      ∧ ([0x8F] : List Byte) ≠ []
      ∧ encode (.rdhold 5 0 2) = [0x05, 0x03, 0x00, 0x00, 0x00, 0x02, 0xC5] ++ [0x8F])
    ∧ ([0x09] : List Byte).length = 1 ∧ (conv [0x09]).queue = [0x09] ∧ (conv [0x09]).arrivals = [] := by decide

/-- V-RX-5. -/
theorem witness_foreignFlushed :
    ¬ Accepted (conv [0x09, 0x03]).cfg 0x09 ∧ (conv [0x09, 0x03]).queue = 0x09 :: 0x03 :: []
    ∧ (conv [0x09, 0x03]).arrivals = []
    ∧ ({ conv [0x09, 0x03] with arrivals := [[], [], [0x01], [], [0x02]] } : State).queue = 0x09 :: 0x03 :: [] := by
  decide

/-- While a flush goes on a byte arrives at its first poll and is discarded, the second poll finds none and ends it, and
what arrives later stays (`41_receiver.md` R88). -/
theorem test_flush_arrivals :
    (receive { conv [0x09, 0x03] with arrivals := [[], [], [0x01], [], [0x02]] }).arrivals = [[0x02]] := by decide

/-- V-RX-9 and V-RX-11, the smallest byte counts that are too large, and the largest. -/
theorem witness_oversized :
    (Accepted (conv [0x05, 0x0F, 0x00, 0x00, 0x00, 0x0A, 0xFC]).cfg 5
      ∧ ([0x00, 0x00, 0x00, 0x0A] : List Byte).length = 4 ∧ 252 ≤ (0xFC#8).toNat ∧ ¬ 252 ≤ (0xFB#8).toNat
      ∧ (conv [0x05, 0x0F, 0x00, 0x00, 0x00, 0x0A, 0xFC]).queue
          = [0x05, 0x0F] ++ [0x00, 0x00, 0x00, 0x0A] ++ [0xFC] ++ [])
    ∧ Accepted (conv [0x05, 0x17, 0x00, 0x00, 0x00, 0x01, 0x00, 0x00, 0x00, 0x01, 0xF8]).cfg 5
    ∧ ([0x00, 0x00, 0x00, 0x01, 0x00, 0x00, 0x00, 0x01] : List Byte).length = 8 ∧ 248 ≤ (0xF8#8).toNat
    ∧ ¬ 248 ≤ (0xF7#8).toNat
    ∧ (conv [0x05, 0x17, 0x00, 0x00, 0x00, 0x01, 0x00, 0x00, 0x00, 0x01, 0xF8]).queue
        = [0x05, 0x17] ++ [0x00, 0x00, 0x00, 0x01, 0x00, 0x00, 0x00, 0x01] ++ [0xF8] ++ [] := by decide

/-- V-RX-14. -/
theorem witness_wrongCrc :
    (Instr.rdhold 5 0 2).wellFormed = true
    ∧ Accepted (conv [0x05, 0x03, 0x00, 0x00, 0x00, 0x02, 0xC5, 0x8E]).cfg (Instr.rdhold 5 0 2).slave
    ∧ encode (.rdhold 5 0 2) ≠ encodeBody (.rdhold 5 0 2) ++ [0xC5, 0x8E]
    ∧ (conv [0x05, 0x03, 0x00, 0x00, 0x00, 0x02, 0xC5, 0x8E]).queue
        = encodeBody (.rdhold 5 0 2) ++ [0xC5, 0x8E] ++ [] := by decide

/-- For ReceiverFrame and ReceiveCounters: a receive ends in each phase, with a status that is not
`RX_NOT_ADDRESSED`. -/
theorem witness_receivePhases :
    ((receive (conv [0x05])).phase = .header ∧ (receive (conv [0x05])).rxStatus ≠ 0)
    ∧ (receive (conv [0x05, 0x03, 0x00])).phase = .metadata
    ∧ (receive (conv [0x05, 0x99, 0xC2, 0x8A])).phase = .data
    ∧ (receive (conv [0x05, 0x0F, 0x00, 0x00, 0x00, 0x0A, 0xFC])).phase = .data
    ∧ (receive (conv [0x05, 0x0F, 0x00, 0x00, 0x00, 0x0A, 0xFC])).rxStatus = -1 := by decide

/-- V-SL-1: no byte is available. -/
theorem witness_tickWithoutBytes :
    (conv []).cfg.Legal ∧ (conv []).ctrl = .idle ∧ TickNext (conv []) ∧ (conv []).queue = []
    ∧ (conv []).arrivals.head?.getD [] = []
    ∧ ({ conv [] with arrivals := [[], [0x05]] } : State).arrivals.head?.getD [] = [] :=
  ⟨by decide, by decide, rfl, by decide⟩

/-- V-RX-14 under a tick. -/
theorem witness_receiveFailure :
    (conv [0x05, 0x03, 0x00, 0x00, 0x00, 0x02, 0xC5, 0x8E]).cfg.Legal
    ∧ (conv [0x05, 0x03, 0x00, 0x00, 0x00, 0x02, 0xC5, 0x8E]).ctrl = .idle
    ∧ TickNext (conv [0x05, 0x03, 0x00, 0x00, 0x00, 0x02, 0xC5, 0x8E])
    ∧ (poll (conv [0x05, 0x03, 0x00, 0x00, 0x00, 0x02, 0xC5, 0x8E])).queue ≠ []
    ∧ rxPositive (receive { poll (consumed (conv [0x05, 0x03, 0x00, 0x00, 0x00, 0x02, 0xC5, 0x8E])) with
        ctrl := .receiving }).rxStatus = false :=
  ⟨by decide, by decide, rfl, by decide⟩

/-- Two states that differ in a transient and nothing else. -/
theorem witness_forget : forget State.reset = forget replying8 ∧ State.reset ≠ replying8 := by decide

/-- For EveryStepKeepsInvariant, AtMostOneWritePerStep, ConfigurationIsFixed and TicksLeaveInputsUnchanged: the state
after reset, with a tick before it, meets the invariant and takes a step. -/
theorem witness_step :
    Inv State.reset ∧ Inv { State.reset with agenda := [.tick] } ∧ TickNext { State.reset with agenda := [.tick] }
    ∧ ∃ t, step { State.reset with agenda := [.tick] } = .next t := ⟨by decide, by decide, rfl, ⟨_, rfl⟩⟩

/-- For CoilSnapshotOncePerTick: a sample is next, another move is next, and nothing is owed. -/
theorem witness_coilSnapshot :
    State.reset.cfg.Legal ∧ State.reset.ctrl = .idle ∧ nextMove { State.reset with agenda := [.sample] } = .sample
    ∧ nextMove { State.reset with agenda := [.tick] } ≠ .sample
    ∧ (∃ t, step { State.reset with agenda := [.tick] } = .next t) ∧ State.reset.mapper = .even :=
  ⟨by decide, rfl, rfl, by decide, ⟨_, rfl⟩, rfl⟩

/-- P2, after tick 1: the sample shows coils 1, 0, 1; and there is nothing to show of an array without coils (U9). -/
theorem test_sample :
    (match step { State.reset with map := mapRd, agenda := [.sample] } with
      | .next t => some t.snapshot
      | _ => none) = some [true, false, true]
    ∧ (sampleCoils (State.startup cfgNoCoils)).snapshot = [] := by decide

/-- The mapper's contract (`46_session_loop.md` R133): a tick waits for an owed sample, a second sample for its tick. -/
theorem test_contract :
    nextMove { State.reset with mapper := .late, agenda := [.tick] } = .sample
    ∧ nextMove { State.reset with mapper := .early, agenda := [.sample] } = .tick
    ∧ nextMove { State.reset with mapper := .late } = .sample
    ∧ nextMove { State.reset with mapper := .early } = .tick
    ∧ nextMove { State.reset with mapper := .late, agenda := [.reset] } = .reset := by decide

theorem witness_resetMayPrecedeSample :
    ({ State.reset with map := mapRd, agenda := [.tick, .reset, .sample] } : State).cfg.Legal
    ∧ ({ State.reset with map := mapRd, agenda := [.tick, .reset, .sample] } : State).ctrl = .idle
    ∧ ({ State.reset with map := mapRd, agenda := [.tick, .reset, .sample] } : State).mapper = .even
    ∧ ({ State.reset with map := mapRd, agenda := [.tick, .reset, .sample] } : State).agenda
        = HostMove.tick :: HostMove.reset :: HostMove.sample :: [] := by decide

/-- For EveryMoveButBadLoadCompletes: an idle block whose next move is a load of the last element. -/
theorem witness_everyMove :
    ({ State.reset with agenda := [.loadDinput 15 true] } : State).cfg.Legal
    ∧ ({ State.reset with agenda := [.loadDinput 15 true] } : State).ctrl = .idle
    ∧ NoBadLoad { State.reset with agenda := [.loadDinput 15 true] } := by
  refine ⟨by decide, rfl, ?_, ?_⟩
  · intro i v rest h; injection h with h; injection h with h; subst h; decide
  · intro i v rest h; injection h with h; cases h

/-- The two clauses of InputLoadEffect for each array, at the last element and just past it. -/
theorem witness_inputLoad :
    State.reset.cfg.Legal ∧ State.reset.ctrl = .idle
    ∧ 15 < State.reset.cfg.dinputCount ∧ ¬ 16 < State.reset.cfg.dinputCount
    ∧ 15 < State.reset.cfg.inregCount ∧ ¬ 16 < State.reset.cfg.inregCount
    ∧ ({ State.reset with agenda := [.loadDinput 15 true] } : State).agenda = HostMove.loadDinput 15 true :: []
    ∧ ({ State.reset with agenda := [.loadInreg 15 0x8001] } : State).agenda
        = HostMove.loadInreg 15 0x8001 :: [] := by decide

theorem witness_resetMove :
    ({ State.reset with agenda := [.reset], map := mapRd } : State).cfg.Legal
    ∧ ({ State.reset with agenda := [.reset], map := mapRd } : State).agenda = HostMove.reset :: []
    ∧ ({ State.reset with agenda := [.reset], map := mapRd } : State).ctrl = .idle := by decide

/-- Both ends of the illegal identities, and a block that is not idle. -/
theorem witness_outsideContract :
    ({ State.reset with cfg := { Config.default with slaveId := 0 } } : State).cfg.slaveId = 0
    ∧ 246 < ({ State.reset with cfg := { Config.default with slaveId := 247 } } : State).cfg.slaveId.toNat
    ∧ ({ State.reset with ctrl := .receiving } : State).cfg.Legal
    ∧ ({ State.reset with ctrl := .receiving } : State).ctrl ≠ .idle := by decide

/-- V-SL-2. -/
theorem witness_secondTick :
    let s : State := { conv [0x05, 0x06, 0x00, 0x01, 0x00, 0x07, 0x98, 0x4C, 0x05, 0x03, 0x00, 0x01, 0x00, 0x01, 0xD4,
      0x4E] with agenda := [.tick, .sample, .tick] }
    s.cfg.Legal ∧ s.ctrl = .idle ∧ s.mapper ≠ .late
    ∧ s.agenda = HostMove.tick :: HostMove.sample :: HostMove.tick :: []
    ∧ (5 : Byte) = s.cfg.slaveId ∧ InExtent s.cfg (.regs .hold) 1 1
    ∧ s.queue = encode (.wrreg 5 1 7) ++ encode (.rdhold 5 1 1) ++ [] := by decide

end Sys2Proof.Tests
end

/-! PROOFS. The statements of `10_state.md`: the invariant, the access rights of the Register Map, the receiver's
counters, and what a step and a host load leave unchanged. -/

namespace Sys2Proof.Proofs

open Sys2Proof.Machine Sys2Proof.Safety

/-! ### Which arrays a handler writes -/

/-- A run of coil writes leaves the other three arrays as they are. -/
theorem writeBits_coils_frame (vs : List Bool) (m : RegMap) (k : Nat) :
    (writeBits m .coils k vs).dinputs = m.dinputs ∧ (writeBits m .coils k vs).inregs = m.inregs
      ∧ (writeBits m .coils k vs).hold = m.hold := by
  induction vs generalizing m k with
  | nil => exact ⟨rfl, rfl, rfl⟩
  | cons v vs ih => exact ih (writeBit m .coils k v) (k + 1)

/-- A run of holding-register writes leaves the other three arrays as they are. -/
theorem writeRegs_hold_frame (vs : List Word) (m : RegMap) (k : Nat) :
    (writeRegs m .hold k vs).dinputs = m.dinputs ∧ (writeRegs m .hold k vs).inregs = m.inregs
      ∧ (writeRegs m .hold k vs).coils = m.coils := by
  induction vs generalizing m k with
  | nil => exact ⟨rfl, rfl, rfl⟩
  | cons v vs ih => exact ih (writeReg m .hold k v) (k + 1)

section
variable {slave fc bytecount : Byte} {addr qty val : Word} {data body : List Byte} {s : State} {m : RegMap}

theorem readBitsHandler_map {sp : BitSpace} (h : readBitsHandler sp slave fc addr qty s = .ok (m, body)) :
    m = s.map := by
  unfold readBitsHandler at h
  split at h
  · cases h
  · split at h <;> cases h
    rfl

theorem readRegsHandler_map {sp : RegSpace} (h : readRegsHandler sp slave fc addr qty s = .ok (m, body)) :
    m = s.map := by
  unfold readRegsHandler at h
  split at h
  · cases h
  · split at h <;> cases h
    rfl

theorem writeSingleCoil_map (h : writeSingleCoil slave addr val s = .ok (m, body)) :
    ∃ k vs, m = writeBits s.map .coils k vs := by
  unfold writeSingleCoil at h
  split at h
  · cases h
  · split at h
    · cases h
    · split at h <;> cases h
      exact ⟨_, [_], rfl⟩

theorem writeSingleRegister_map (h : writeSingleRegister slave addr val s = .ok (m, body)) :
    ∃ k vs, m = writeRegs s.map .hold k vs := by
  unfold writeSingleRegister at h
  split at h
  · cases h
  · split at h <;> cases h
    exact ⟨_, [_], rfl⟩

theorem writeMultipleCoils_map (h : writeMultipleCoils slave addr qty bytecount data s = .ok (m, body)) :
    ∃ k vs, m = writeBits s.map .coils k vs := by
  unfold writeMultipleCoils at h
  split at h
  · cases h
  · split at h
    · cases h
    · split at h <;> cases h
      exact ⟨_, _, rfl⟩

theorem writeMultipleRegisters_map (h : writeMultipleRegisters slave addr qty bytecount data s = .ok (m, body)) :
    ∃ k vs, m = writeRegs s.map .hold k vs := by
  unfold writeMultipleRegisters at h
  split at h
  · cases h
  · split at h
    · cases h
    · split at h <;> cases h
      exact ⟨_, _, rfl⟩

end

/-- The access rights of `20_memory.md` R33 on a handler that succeeds: the map is the old one, or a coil-write request
wrote a run of coils, or a register-write request a run of holding registers. -/
theorem handlerOf_map {s : State} {i : Instr} {m : RegMap} {body : List Byte} (h : handlerOf s i = .ok (m, body)) :
    m = s.map
    ∨ ((i.code = 0x05 ∨ i.code = 0x0F) ∧ ∃ k vs, m = writeBits s.map .coils k vs)
    ∨ ((i.code = 0x06 ∨ i.code = 0x10) ∧ ∃ k vs, m = writeRegs s.map .hold k vs) := by
  cases i with
  | rdcoils => exact .inl (readBitsHandler_map h)
  | rddisc => exact .inl (readBitsHandler_map h)
  | rdhold => exact .inl (readRegsHandler_map h)
  | rdinreg => exact .inl (readRegsHandler_map h)
  | wrcoil => exact .inr (.inl ⟨.inl rfl, writeSingleCoil_map h⟩)
  | wrreg => exact .inr (.inr ⟨.inl rfl, writeSingleRegister_map h⟩)
  | wrmcoils => exact .inr (.inl ⟨.inr rfl, writeMultipleCoils_map h⟩)
  | wrmregs => exact .inr (.inr ⟨.inr rfl, writeMultipleRegisters_map h⟩)
  | maskwr => cases h
  | wrrdregs => cases h
  | other => cases h

/-- A handler that succeeds keeps the canonical form of the map. -/
theorem handlerOf_wf {s : State} {i : Instr} {m : RegMap} {body : List Byte} (h : handlerOf s i = .ok (m, body))
    (hwf : Memory.wf s.cfg s.map) : Memory.wf s.cfg m := by
  obtain ⟨-, rfl | ⟨k, vs, rfl, hk⟩ | ⟨k, vs, rfl, hk⟩⟩ := handlerOf_ok h
  · exact hwf
  · exact writeBits_wf .coils vs hwf hk
  · exact writeRegs_wf .hold vs hwf hk

/-! ### What a request does -/

@[simp] theorem respond_map (slave : Byte) (body : List Byte) (s : State) : (respond slave body s).map = s.map := by
  obtain ⟨rsp, h, -⟩ := respond_eq slave body s
  rw [h]

/-- A response and its CRC together are at most two bytes longer than the body. -/
theorem responseBytes_length_le (c : Cfg) (slave : Byte) (body : List Byte) :
    (responseBytes c slave body).length ≤ body.length + 2 := by
  unfold responseBytes
  split <;> simp

/-- Everything a request can do: nothing, or a response of at most 253 bytes before the CRC, on the old map or on the
one its handler answers. -/
theorem exec_cases {i : Instr} {s t : State} (h : exec i s = .next t) :
    t = s ∨ ∃ m body, t = respond i.slave body { s with map := m } ∧ body.length ≤ 253
      ∧ (m = s.map ∨ handlerOf s i = .ok (m, body)) := by
  rw [exec_eq] at h
  obtain ⟨-, rfl⟩ | ⟨-, m, body, hok, rfl⟩ | ⟨-, e, -, rfl⟩ := engine_cases h
  · exact .inl rfl
  · obtain ⟨⟨tail, rfl, -, htail⟩, -⟩ := handlerOf_ok hok
    exact .inr ⟨m, _, rfl, by simp only [List.length_cons]; omega, .inr hok⟩
  · exact .inr ⟨s.map, exceptionBody i.slave i.code e, rfl, by simp [exceptionBody], .inl rfl⟩

/-- The map after a request is the old one or the one its handler answers. -/
theorem exec_map {i : Instr} {s t : State} (h : exec i s = .next t) :
    t.map = s.map ∨ ∃ body, handlerOf s i = .ok (t.map, body) := by
  obtain rfl | ⟨m, body, rfl, -, rfl | hok⟩ := exec_cases h
  · exact .inl rfl
  · exact .inl (respond_map _ _ _)
  · exact .inr ⟨body, by rw [respond_map]; exact hok⟩

/-- Settles O20: a handler that succeeds writes one run of its own array, and nothing else reaches the map. -/
theorem mapAccessRights : Obligations.MapAccessRights := by
  intro i s t h
  obtain hmap | ⟨body, hok⟩ := exec_map h
  · simp [hmap]
  obtain hmap | ⟨hcode, k, vs, hmap⟩ | ⟨hcode, k, vs, hmap⟩ := handlerOf_map hok
  · simp [hmap]
  · obtain ⟨hdinputs, hinregs, hhold⟩ := writeBits_coils_frame vs s.map k
    rw [hmap]
    exact ⟨hdinputs, hinregs, fun h5 hF => absurd hcode (not_or.2 ⟨h5, hF⟩), fun _ _ => hhold⟩
  · obtain ⟨hdinputs, hinregs, hcoils⟩ := writeRegs_hold_frame vs s.map k
    rw [hmap]
    exact ⟨hdinputs, hinregs, fun _ _ => hcoils, fun h6 h10 => absurd hcode (not_or.2 ⟨h6, h10⟩)⟩

/-! ### The invariant

`Inv (endTick s)` is the invariant of `s` but for `ctrl`, which is not idle inside a tick. -/

theorem inv_endTick {s : State} (h : Inv s) : Inv (endTick s) := by
  obtain ⟨hlegal, -, hrest⟩ := h
  exact ⟨hlegal, rfl, hrest⟩

/-- A receive does not touch the Register Map (`41_receiver.md` R98). -/
theorem receive_map (s : State) : (receive s).map = s.map := by
  obtain ⟨bs, more, hframe, -⟩ := receive_cases s
  rw [hframe]

/-- A receive keeps the invariant but for `ctrl`. -/
theorem inv_endTick_receive {s : State} (h : Inv (endTick s)) : Inv (endTick (receive s)) := by
  obtain ⟨hlegal, -, hwf, hrxbuf, hrsp, -, hrsplen, -⟩ := h
  obtain ⟨bs, more, hframe, -, -, -, hle, hlen, htries, -⟩ := receive_cases s
  have hbuf : (receive s).rxbuf.length = 260 := (hlen hrxbuf.ge).trans hrxbuf
  have hrxlen : (receive s).rxlen ≤ 260 := hle.trans hbuf.le
  have hcfg : (receive s).cfg = s.cfg := hframe.cfg
  have hrsp' : (receive s).rsp = s.rsp := by rw [hframe]
  have hrsplen' : (receive s).rsplen = s.rsplen := by rw [hframe]
  simp only [Safety.Inv, endTick_cfg, endTick_map, endTick_rxbuf, endTick_rsp, endTick_rxlen, endTick_rsplen,
    endTick_tries, endTick_ctrl, hcfg, receive_map, hrsp', hrsplen']
  exact ⟨hlegal, trivial, hwf, hbuf, hrsp, hrxlen, hrsplen, htries⟩

/-- A response of at most 253 bytes before the CRC, on a map in canonical form, keeps the invariant but for `ctrl`. -/
theorem inv_endTick_respond {s : State} {m : RegMap} {body : List Byte} (slave : Byte) (h : Inv (endTick s))
    (hm : Memory.wf s.cfg m) (hbody : body.length ≤ 253) :
    Inv (endTick (respond slave body { s with map := m })) := by
  obtain ⟨hlegal, -, -, hrxbuf, hrsp, hrxlen, -, htries⟩ := h
  obtain ⟨rsp, heq, -, hlen⟩ := respond_eq slave body { s with map := m }
  have hbytes := responseBytes_length_le s.cfg slave body
  have hroom : body.length + 2 ≤ s.rsp.length := by
    rw [endTick_rsp] at hrsp
    omega
  rw [heq]
  exact ⟨hlegal, rfl, hm, hrxbuf, (hlen hroom).trans hrsp, hrxlen, hbytes.trans (by omega), htries⟩

/-- A request keeps the invariant but for `ctrl`. -/
theorem inv_endTick_exec {i : Instr} {s t : State} (h : Inv (endTick s)) (ht : exec i s = .next t) :
    Inv (endTick t) := by
  obtain rfl | ⟨m, body, rfl, hbody, hm⟩ := exec_cases ht
  · exact h
  · obtain ⟨-, -, hwf, -⟩ := id h
    refine inv_endTick_respond i.slave h ?_ hbody
    obtain rfl | hok := hm
    · exact hwf
    · exact handlerOf_wf hok hwf

/-- A poll keeps the invariant. -/
theorem inv_poll {s : State} (h : Inv s) : Inv (poll s) := by
  simpa only [Safety.Inv, poll_cfg, poll_ctrl, poll_map, poll_rxbuf, poll_rsp, poll_rxlen, poll_rsplen,
    poll_tries] using h

/-- Taking the next move off the agenda keeps the invariant. -/
theorem inv_consumed {s : State} (h : Inv s) : Inv (consumed s) := by
  simpa only [Safety.Inv, consumed_cfg, consumed_ctrl, consumed_map, consumed_rxbuf, consumed_rsp, consumed_rxlen,
    consumed_rsplen, consumed_tries] using h

/-- What follows a receive makes the block idle again, and keeps the rest of the invariant. -/
theorem inv_afterReceive {s t : State} (h : Inv (endTick s)) (ht : afterReceive s = .next t) : Inv t := by
  obtain ⟨-, rfl⟩ | ⟨i, rest, u, -, -, hu, rfl⟩ := afterReceive_cases ht
  · exact h
  · exact inv_endTick_exec (s := { s with ctrl := .replying }) h hu

/-- An iteration keeps the invariant. -/
theorem inv_iteration {s t : State} (h : Inv s) (ht : iteration s = .next t) : Inv t := by
  have hpoll : Inv (endTick (poll s)) := inv_endTick (inv_poll h)
  obtain ⟨-, rfl⟩ | ⟨-, hafter⟩ := iteration_cases ht
  · exact hpoll
  · exact inv_afterReceive (inv_endTick_receive (s := { poll s with ctrl := .receiving }) hpoll) hafter

/-- Another agenda and a map in canonical form keep the invariant. -/
theorem inv_with_map {s : State} (h : Inv s) {m : RegMap} (hm : Memory.wf s.cfg m) (rest : List HostMove) :
    Inv { s with agenda := rest, map := m } := by
  obtain ⟨hlegal, hctrl, -, hbounds⟩ := h
  exact ⟨hlegal, hctrl, hm, hbounds⟩

/-- Settles O43, by the moves a step can make. -/
theorem everyStepKeepsInvariant : Obligations.EveryStepKeepsInvariant := by
  intro s t h ht
  obtain ⟨-, -, hwf, -⟩ := id h
  obtain ⟨-, -, htick | hsample | hdinput | hinreg | hreset⟩ := step_cases ht
  · obtain ⟨-, hiter⟩ := htick
    exact inv_iteration (inv_consumed h) hiter
  · obtain ⟨-, rfl⟩ := hsample
    exact inv_consumed h
  · obtain ⟨k, v, rest, -, -, hk, rfl⟩ := hdinput
    exact inv_with_map h (writeBit_wf hwf .dinputs hk v) rest
  · obtain ⟨k, v, rest, -, -, hk, rfl⟩ := hinreg
    exact inv_with_map h (writeReg_wf hwf .inregs hk v) rest
  · obtain ⟨rest, -, -, rfl⟩ := hreset
    exact inv_with_map (inv_endTick h) (RegMap.zero_wf s.cfg) rest

/-- The invariant holds after start-up with a configuration of this hardware. -/
theorem inv_startup {c : Cfg} (h : c.Legal) : Inv (State.startup c) :=
  ⟨h, rfl, RegMap.zero_wf c, List.length_replicate, List.length_replicate, Nat.zero_le _, Nat.zero_le _,
    Nat.zero_le _⟩

/-- Settles O42: reset is the start-up with the default configuration, which is legal. -/
theorem invariantAtStartup : Obligations.InvariantAtStartup :=
  ⟨inv_startup (by decide), fun _ => inv_startup⟩

/-! ### What a step leaves unchanged -/

/-- Settles O44, by the moves a step can make. -/
theorem configurationIsFixed : Obligations.ConfigurationIsFixed := by
  intro s t ht
  obtain ⟨-, -, htick | hsample | hdinput | hinreg | hreset⟩ := step_cases ht
  · obtain ⟨-, hiter⟩ := htick
    obtain ⟨-, -, -, -, hcfg, hbaud⟩ := iteration_frame hiter
    exact ⟨by rw [hcfg, consumed_cfg], by rw [hbaud, consumed_linkBaud]⟩
  · obtain ⟨-, rfl⟩ := hsample
    simp
  · obtain ⟨_, _, _, -, -, -, rfl⟩ := hdinput
    exact ⟨rfl, rfl⟩
  · obtain ⟨_, _, _, -, -, -, rfl⟩ := hinreg
    exact ⟨rfl, rfl⟩
  · obtain ⟨_, -, -, rfl⟩ := hreset
    simp

/-- The map after what follows a receive is the old one or what one request made of it. -/
theorem afterReceive_map {s t : State} (h : afterReceive s = .next t) :
    t.map = s.map ∨ ∃ i u, exec i { s with ctrl := .replying } = .next u ∧ t.map = u.map := by
  obtain ⟨-, rfl⟩ | ⟨i, rest, u, -, -, hu, rfl⟩ := afterReceive_cases h
  · exact .inl rfl
  · exact .inr ⟨i, u, hu, rfl⟩

/-- An iteration leaves the input arrays alone: it changes the map only by one request, and no request writes an input
array. -/
theorem iteration_inputs {s t : State} (h : iteration s = .next t) :
    t.map.dinputs = s.map.dinputs ∧ t.map.inregs = s.map.inregs := by
  obtain ⟨-, rfl⟩ | ⟨-, hafter⟩ := iteration_cases h
  · simp
  have hreceive : (receive { poll s with ctrl := .receiving }).map = s.map := (receive_map _).trans (poll_map s)
  obtain hmap | ⟨i, u, hexec, hmap⟩ := afterReceive_map hafter
  · rw [hmap, hreceive]
    exact ⟨rfl, rfl⟩
  · obtain ⟨hdinputs, hinregs, -⟩ := mapAccessRights i _ u hexec
    rw [hmap, hdinputs, hinregs, hreceive]
    exact ⟨rfl, rfl⟩

/-- Settles O46: a tick is an iteration, in the state with the tick taken off the agenda. -/
theorem ticksLeaveInputsUnchanged : Obligations.TicksLeaveInputsUnchanged := by
  intro s t htick ht
  obtain ⟨hlegal, hidle, -⟩ := step_cases ht
  rw [step_of_tick hlegal hidle htick] at ht
  simpa using iteration_inputs ht

/-! ### INPUT_LOAD -/

theorem writeBit_onlyBits (m : RegMap) (sp : BitSpace) (k : Nat) (v : Bool) :
    OnlyBits m (writeBit m sp k v) sp k 1 := by
  refine ⟨fun sp' j hj => ?_, fun r j => readReg_writeBit m sp k v r j⟩
  rw [readBit_writeBit, if_neg]
  rintro ⟨rfl, rfl⟩
  simp at hj

theorem writeReg_onlyRegs (m : RegMap) (sp : RegSpace) (k : Nat) (v : Word) :
    OnlyRegs m (writeReg m sp k v) sp k 1 := by
  refine ⟨fun sp' j hj => ?_, fun b j => readBit_writeReg m sp k v b j⟩
  rw [readReg_writeReg, if_neg]
  rintro ⟨rfl, rfl⟩
  simp at hj

/-- Settles O47: a load at the head of the agenda is the next move, and writes one element if it exists. -/
theorem inputLoadEffect : Obligations.InputLoadEffect := by
  constructor
  case left =>
    intro s k v rest hlegal hidle hagenda
    obtain ⟨hnext, hconsumed⟩ := schedule_head hagenda (by simp) (by simp)
    rw [step_eq hlegal hidle, hnext, hconsumed, perform, loadDinput, mapperAfter]
    split
    · exact ⟨_, rfl, rfl, by rw [readBit_writeBit]; simp, writeBit_onlyBits s.map .dinputs k v⟩
    · rfl
  case right =>
    intro s k v rest hlegal hidle hagenda
    obtain ⟨hnext, hconsumed⟩ := schedule_head hagenda (by simp) (by simp)
    rw [step_eq hlegal hidle, hnext, hconsumed, perform, loadInreg, mapperAfter]
    split
    · exact ⟨_, rfl, rfl, by rw [readReg_writeReg]; simp, writeReg_onlyRegs s.map .inregs k v⟩
    · rfl

/-! ### The receiver's counters -/

/-- The longest metadata is that of format RQW (`41_receiver.md` R86). -/
theorem metaLen_le (fc : Byte) : metaLen fc ≤ 9 := by
  unfold metaLen
  split_ifs <;> omega

/-- The data length is one byte of the frame, or 0 (`41_receiver.md` R90). -/
theorem dataLen_le (frame : List Byte) : dataLen frame ≤ 255 := by
  unfold dataLen
  split_ifs <;> omega

/-- The counters where a receive ends, in terms of the bytes it stored. -/
theorem receiveEnd_counters {s r : State} {bs more : List Byte} (h : ReceiveEnd s r bs more)
    (hlen : r.rxlen = bs.length) :
    r.rxlen ≤ 260 ∧ r.need ≤ 257
    ∧ (r.phase = .header → r.rxlen + r.need = 2)
    ∧ (r.phase = .metadata → 2 ≤ r.rxlen ∧ r.rxlen + r.need = 2 + metaLen (byteAt bs 1))
    ∧ (r.phase = .data → 2 + metaLen (byteAt bs 1) ≤ r.rxlen
        ∧ (r.rxlen + r.need ≤ 260
          ∨ r.rxStatus = -1 ∧ r.rxlen = 2 + metaLen (byteAt bs 1) ∧ r.need = dataLen bs + 2
            ∧ 260 < r.rxlen + r.need)) := by
  have hmeta := metaLen_le (byteAt bs 1)
  have hdata := dataLen_le bs
  have htotal : totalLen bs = 2 + metaLen (byteAt bs 1) + dataLen bs + 2 := rfl
  cases h with
  | headerGap _ _ phase stored need =>
    rw [phase]
    exact ⟨by omega, by omega, fun _ => by omega, nofun, nofun⟩
  | foreign _ _ phase stored need =>
    rw [phase]
    exact ⟨by omega, by omega, fun _ => by omega, nofun, nofun⟩
  | metaGap _ _ phase header stored need =>
    rw [phase]
    exact ⟨by omega, by omega, nofun, fun _ => ⟨by omega, by omega⟩, nofun⟩
  | oversize status _ phase stored need total =>
    rw [phase]
    exact ⟨by omega, by omega, nofun, nofun, fun _ => ⟨by omega, .inr ⟨status, by omega, need, by omega⟩⟩⟩
  | dataGap _ _ phase header stored need _ _ total =>
    rw [phase]
    exact ⟨by omega, by omega, nofun, nofun, fun _ => ⟨by omega, .inl (by omega)⟩⟩
  | badCrc _ _ phase stored need total =>
    rw [phase]
    exact ⟨by omega, by omega, nofun, nofun, fun _ => ⟨by omega, .inl (by omega)⟩⟩
  | accepted _ _ phase stored need total =>
    rw [phase]
    exact ⟨by omega, by omega, nofun, nofun, fun _ => ⟨by omega, .inl (by omega)⟩⟩

/-- Settles O35: the counters in terms of the stored bytes, which stand in the buffer. -/
theorem receiveCounters : Obligations.ReceiveCounters := by
  intro s
  obtain ⟨bs, more, -, -, hlen, hstored, hbuf, -, htries, hend⟩ := receive_cases s
  obtain ⟨hrxlen, hneed, hheader, hmeta, hdata⟩ := receiveEnd_counters hend hlen
  have hcode (h : 2 ≤ (receive s).rxlen) : byteAt (receive s).rxbuf 1 = byteAt bs 1 := byteAt_of_take hstored h
  refine ⟨hrxlen, hbuf, hneed, htries, hheader, fun hphase => ?_, fun hphase => ?_⟩
  · obtain ⟨htwo, hsum⟩ := hmeta hphase
    have hbound := metaLen_le (byteAt bs 1)
    rw [hcode htwo]
    exact ⟨hsum, by omega⟩
  · obtain ⟨hmetadata, hsum⟩ := hdata hphase
    have hlength : dataLen (receive s).rxbuf = dataLen bs :=
      dataLen_congr fun k hk => byteAt_of_take hstored (hk.trans_le hmetadata)
    rw [hcode (by omega), hlength]
    exact hsum

end Sys2Proof.Proofs

/-! PROOFS. The statements of `20_memory.md`: address translation, requests applied twice, and a write that the next
tick reads back. -/

namespace Sys2Proof.Proofs

open Sys2Proof.Machine Sys2Proof.Safety

/-! ### Translation -/

/-- Settles O10, by the reading of `Translate` in natural numbers. -/
theorem translateBounds : Obligations.TranslateBounds := by
  intro c sp addr n
  rw [translate_eq]
  refine ⟨fun k => ?_, fun hbelow => if_neg (by omega), fun hempty hn => if_neg (by omega),
    fun hpast => if_neg (by omega), fun hbase hend => if_pos (by omega)⟩
  split
  · rw [Except.ok.injEq]
    omega
  · simp only [reduceCtorEq, false_iff]
    omega

/-! ### Requests applied twice -/

/-- A handler reads the configuration, the Register Map and the frame length, and nothing else. -/
theorem handlerOf_congr {s t : State} (hcfg : t.cfg = s.cfg) (hmap : t.map = s.map) (hstatus : t.rxStatus = s.rxStatus)
    (i : Instr) : handlerOf t i = handlerOf s i := by
  cases s
  cases t
  cases hcfg
  cases hmap
  cases hstatus
  cases i <;> rfl

section
variable {slave bytecount : Byte} {addr qty val : Word} {data body : List Byte} {s : State} {m : RegMap}

theorem writeSingleCoil_onMap (h : writeSingleCoil slave addr val s = .ok (m, body)) :
    ∃ k vs, ∀ m', writeSingleCoil slave addr val { s with map := m' } = .ok (writeBits m' .coils k vs, body) := by
  unfold writeSingleCoil at h ⊢
  split at h
  · cases h
  next hval =>
  split at h
  · cases h
  next k hk =>
  split at h <;> cases h
  next hn =>
  exact ⟨k, [decide (val = 0xFF00#16)], fun m' => by simp [hval, hk, hn, writeBits]⟩

theorem writeSingleRegister_onMap (h : writeSingleRegister slave addr val s = .ok (m, body)) :
    ∃ k vs, ∀ m', writeSingleRegister slave addr val { s with map := m' } = .ok (writeRegs m' .hold k vs, body) := by
  unfold writeSingleRegister at h ⊢
  split at h
  · cases h
  next k hk =>
  split at h <;> cases h
  next hn =>
  exact ⟨k, [val], fun m' => by simp [hk, hn, writeRegs]⟩

theorem writeMultipleCoils_onMap (h : writeMultipleCoils slave addr qty bytecount data s = .ok (m, body)) :
    ∃ k vs, ∀ m', writeMultipleCoils slave addr qty bytecount data { s with map := m' } =
      .ok (writeBits m' .coils k vs, body) := by
  unfold writeMultipleCoils at h ⊢
  split at h
  · cases h
  next hqty =>
  split at h
  · cases h
  next hcount =>
  split at h <;> cases h
  next k hk =>
  exact ⟨k, unpackBits data qty.toNat, fun m' => by simp only [hqty, hcount, hk, if_false]⟩

theorem writeMultipleRegisters_onMap (h : writeMultipleRegisters slave addr qty bytecount data s = .ok (m, body)) :
    ∃ k vs, ∀ m', writeMultipleRegisters slave addr qty bytecount data { s with map := m' } =
      .ok (writeRegs m' .hold k vs, body) := by
  unfold writeMultipleRegisters at h ⊢
  split at h
  · cases h
  next hqty =>
  split at h
  · cases h
  next hcount =>
  split at h <;> cases h
  next k hk =>
  exact ⟨k, unpackRegs data qty.toNat, fun m' => by simp only [hqty, hcount, hk, if_false]⟩

end

/-- A handler that succeeds leaves the map as it is, or it succeeds on every map, with the same response, and writes the
same run of elements there. -/
theorem handlerOf_onMap {s : State} {i : Instr} {m : RegMap} {body : List Byte} (h : handlerOf s i = .ok (m, body)) :
    m = s.map
    ∨ (∃ k vs, ∀ m', handlerOf { s with map := m' } i = .ok (writeBits m' .coils k vs, body))
    ∨ ∃ k vs, ∀ m', handlerOf { s with map := m' } i = .ok (writeRegs m' .hold k vs, body) := by
  cases i with
  | rdcoils => exact .inl (readBitsHandler_map h)
  | rddisc => exact .inl (readBitsHandler_map h)
  | rdhold => exact .inl (readRegsHandler_map h)
  | rdinreg => exact .inl (readRegsHandler_map h)
  | wrcoil => exact .inr (.inl (writeSingleCoil_onMap h))
  | wrreg => exact .inr (.inr (writeSingleRegister_onMap h))
  | wrmcoils => exact .inr (.inl (writeMultipleCoils_onMap h))
  | wrmregs => exact .inr (.inr (writeMultipleRegisters_onMap h))
  | maskwr => cases h
  | wrrdregs => cases h
  | other => cases h

/-- Writing a run of bits twice is writing it once, where both maps are in canonical form. -/
theorem writeBits_twice {c : Cfg} {m : RegMap} {sp : BitSpace} {k : Nat} {vs : List Bool}
    (honce : Memory.wf c (writeBits m sp k vs)) (htwice : Memory.wf c (writeBits (writeBits m sp k vs) sp k vs)) :
    writeBits (writeBits m sp k vs) sp k vs = writeBits m sp k vs := by
  refine RegMap.ext_read htwice honce (fun sp' j => ?_) fun r j => readReg_writeBits sp vs _ k r j
  simp only [readBit_writeBits]
  split_ifs <;> rfl

/-- Writing a run of registers twice is writing it once, where both maps are in canonical form. -/
theorem writeRegs_twice {c : Cfg} {m : RegMap} {sp : RegSpace} {k : Nat} {vs : List Word}
    (honce : Memory.wf c (writeRegs m sp k vs)) (htwice : Memory.wf c (writeRegs (writeRegs m sp k vs) sp k vs)) :
    writeRegs (writeRegs m sp k vs) sp k vs = writeRegs m sp k vs := by
  refine RegMap.ext_read htwice honce (fun b j => readBit_writeRegs sp vs _ k b j) fun sp' j => ?_
  simp only [readReg_writeRegs]
  split_ifs <;> rfl

/-- A handler that succeeds answers the same on the map it has made: that map, and the same response. -/
theorem handlerOf_twice {s : State} {i : Instr} {m : RegMap} {body : List Byte} (hwf : Memory.wf s.cfg s.map)
    (h : handlerOf s i = .ok (m, body)) : handlerOf { s with map := m } i = .ok (m, body) := by
  have hm : Memory.wf s.cfg m := handlerOf_wf h hwf
  obtain rfl | ⟨k, vs, hall⟩ | ⟨k, vs, hall⟩ := handlerOf_onMap h
  · exact h
  · have htwice : Memory.wf s.cfg (writeBits m .coils k vs) := handlerOf_wf (s := { s with map := m }) (hall m) hm
    obtain rfl : writeBits s.map .coils k vs = m := by simpa using (hall s.map).symm.trans h
    rw [hall, writeBits_twice hm htwice]
  · have htwice : Memory.wf s.cfg (writeRegs m .hold k vs) := handlerOf_wf (s := { s with map := m }) (hall m) hm
    obtain rfl : writeRegs s.map .hold k vs = m := by simpa using (hall s.map).symm.trans h
    rw [hall, writeRegs_twice hm htwice]

@[simp] theorem respond_cfg (slave : Byte) (body : List Byte) (s : State) : (respond slave body s).cfg = s.cfg := by
  obtain ⟨rsp, h, -⟩ := respond_eq slave body s
  rw [h]

@[simp] theorem respond_rxStatus (slave : Byte) (body : List Byte) (s : State) :
    (respond slave body s).rxStatus = s.rxStatus := by
  obtain ⟨rsp, h, -⟩ := respond_eq slave body s
  rw [h]

@[simp] theorem respond_queue (slave : Byte) (body : List Byte) (s : State) :
    (respond slave body s).queue = s.queue := by
  obtain ⟨rsp, h, -⟩ := respond_eq slave body s
  rw [h]

@[simp] theorem respond_arrivals (slave : Byte) (body : List Byte) (s : State) :
    (respond slave body s).arrivals = s.arrivals := by
  obtain ⟨rsp, h, -⟩ := respond_eq slave body s
  rw [h]

@[simp] theorem respond_agenda (slave : Byte) (body : List Byte) (s : State) :
    (respond slave body s).agenda = s.agenda := by
  obtain ⟨rsp, h, -⟩ := respond_eq slave body s
  rw [h]

@[simp] theorem respond_mapper (slave : Byte) (body : List Byte) (s : State) :
    (respond slave body s).mapper = s.mapper := by
  obtain ⟨rsp, h, -⟩ := respond_eq slave body s
  rw [h]

/-- A response to any address but the broadcast address is sent, in one write (`42_reply_engine.md` R107). -/
theorem respond_txLog_of_ne {slave : Byte} (h : slave ≠ Config.broadcastAddr) (body : List Byte) (s : State) :
    (respond slave body s).txLog = s.txLog ++ [appendCrc body] := by
  obtain ⟨rsp, heq, -⟩ := respond_eq slave body s
  rw [heq, responseWrites, if_neg fun hbroadcast => h hbroadcast.1]

/-- The response that `respond` builds depends on the configuration alone. -/
theorem respond_response (slave : Byte) (body : List Byte) (s : State) :
    (respond slave body s).rsplen = (responseBytes s.cfg slave body).length
      ∧ (respond slave body s).rsp.take (respond slave body s).rsplen = responseBytes s.cfg slave body := by
  obtain ⟨rsp, h, htake, -⟩ := respond_eq slave body s
  rw [h]
  exact ⟨rfl, htake⟩

/-- The same response built in two states with the same configuration is the same. -/
theorem respond_response_congr {s t : State} (h : t.cfg = s.cfg) (slave : Byte) (body : List Byte) :
    (respond slave body t).rsplen = (respond slave body s).rsplen
      ∧ (respond slave body t).rsp.take (respond slave body t).rsplen =
          (respond slave body s).rsp.take (respond slave body s).rsplen := by
  obtain ⟨hlen, hbytes⟩ := respond_response slave body s
  obtain ⟨hlen', hbytes'⟩ := respond_response slave body t
  exact ⟨by rw [hlen', hlen, h], by rw [hbytes', hbytes, h]⟩

/-- Settles O24: the second time the handler answers as the first time, be it a response or an exception. -/
theorem requestsAreIdempotent : Obligations.RequestsAreIdempotent := by
  intro i s t hwf h
  have hexec := h
  rw [exec_eq] at h
  obtain ⟨-, rfl⟩ | ⟨hown, m, body, hok, rfl⟩ | ⟨hown, e, herror, rfl⟩ := engine_cases h
  · exact ⟨t, hexec, rfl, fun _ => ⟨rfl, rfl⟩⟩
  · have hagain : handlerOf (respond i.slave body { s with map := m }) i = .ok (m, body) :=
      (handlerOf_congr (by simp) (by simp) (by simp) i).trans (handlerOf_twice hwf hok)
    exact ⟨_, by rw [exec_eq, hagain, engine_ok (by simpa using hown)], by simp,
      fun _ => respond_response_congr (by simp) i.slave body⟩
  · unfold takeException
    have hagain : handlerOf (respond i.slave (exceptionBody i.slave i.code e) s) i = .error e :=
      (handlerOf_congr (by simp) (by simp) (by simp) i).trans herror
    exact ⟨_, by rw [exec_eq, hagain, engine_error (by simpa using hown), takeException], by simp,
      fun _ => respond_response_congr (by simp) i.slave (exceptionBody i.slave i.code e)⟩

/-! ### Encoding and decoding one request -/

/-- Every request's own bytes are read back, whatever follows them. -/
theorem frameShape (i : Instr) : Laws.FrameShape.Statement i := by
  cases i with
  | rdcoils => exact Laws.FrameShape.rdcoils _ _ _
  | rddisc => exact Laws.FrameShape.rddisc _ _ _
  | rdhold => exact Laws.FrameShape.rdhold _ _ _
  | rdinreg => exact Laws.FrameShape.rdinreg _ _ _
  | wrcoil => exact Laws.FrameShape.wrcoil _ _ _
  | wrreg => exact Laws.FrameShape.wrreg _ _ _
  | wrmcoils => exact Laws.FrameShape.wrmcoils _ _ _ _ _
  | wrmregs => exact Laws.FrameShape.wrmregs _ _ _ _ _
  | maskwr => exact Laws.FrameShape.maskwr _ _
  | wrrdregs => exact Laws.FrameShape.wrrdregs _ _ _
  | other => exact Laws.FrameShape.other _ _

/-- A byte sequence with its CRC appended validates (`40_checksum.md` R77). -/
theorem validate_appendCrc (body : List Byte) : validate (appendCrc body) = some (body.length + 2) := by
  have hcrc : ∀ k, byteAt (appendCrc body) (body.length + k) = byteAt (beBytes (crc16 body)) k := fun k => by
    rw [byteAt, byteAt, appendCrc, List.getD_append_right _ _ _ _ (Nat.le_add_right _ _), Nat.add_sub_cancel_left]
  have hbody : (appendCrc body).take body.length = body := List.take_left
  unfold validate
  rw [appendCrc_length, Nat.add_sub_cancel, hbody, if_neg (by omega),
    show body.length + 2 - 1 = body.length + 1 from rfl, hcrc 1,
    show byteAt (appendCrc body) body.length = _ from hcrc 0]
  exact if_pos ⟨rfl, rfl⟩

/-- The length inference finds the length of an encoded request, whatever follows it. -/
theorem totalLen_encode {i : Instr} (hw : i.wellFormed = true) (rest : List Byte) :
    totalLen (encode i ++ rest) = (encode i).length := by
  rw [encode, appendCrc_length, appendCrc, List.append_assoc]
  obtain ⟨htotal, -⟩ := frameShape i hw (beBytes (crc16 (encodeBody i)) ++ rest)
  exact htotal

/-- An encoded request is a whole frame: it holds its metadata and fits into `MAX_ADU` (`30_encoding.md` R51, R52). -/
theorem encode_length {i : Instr} (hw : i.wellFormed = true) (rest : List Byte) :
    2 + metaLen (byteAt (encode i ++ rest) 1) + 2 ≤ (encode i).length ∧ (encode i).length ≤ 260 := by
  rw [encode, appendCrc_length, appendCrc, List.append_assoc]
  obtain ⟨-, hmeta, hmax, -⟩ := frameShape i hw (beBytes (crc16 (encodeBody i)) ++ rest)
  omega

/-- Decoding an encoded request gives it back, with the bytes after it. -/
theorem decode_encode {i : Instr} (hw : i.wellFormed = true) (rest : List Byte) :
    decode (encode i ++ rest) = .ok (i, rest) := by
  obtain ⟨hmeta, hmax⟩ := encode_length hw rest
  obtain ⟨-, -, -, hparse⟩ := frameShape i hw (beBytes (crc16 (encodeBody i)))
  rw [← appendCrc, ← encode] at hparse
  have hvalid : validate (encode i) ≠ none := by rw [encode, validate_appendCrc]; exact nofun
  have hlen : (encode i ++ rest).length = (encode i).length + rest.length := List.length_append
  unfold decode
  rw [totalLen_encode hw, List.take_left, List.drop_left, hparse, if_neg (by omega), if_neg (by omega),
    if_neg (by rw [Config.maxAdu]; omega), if_neg (by omega), if_neg hvalid]

/-- The first byte of an encoded request is its address byte. -/
theorem byteAt_encode_zero (i : Instr) : byteAt (encode i) 0 = i.slave := by
  cases i <;> rfl

/-! ### The receive of a frame that stands in the queue -/

/-- From `s` to `t` the receiver has taken and stored the first `n` bytes of `frame`, without a delay; the rest of it
and the bytes `rest` after it still stand in the queue, where more may have arrived. -/
structure FrameRead (s t : State) (frame rest : List Byte) (n : Nat) : Prop where
  frameOnly : ReceiverOnly s t
  taken : incoming s = frame.take n ++ incoming t
  queued : ∃ more, t.queue = frame.drop n ++ (rest ++ more)
  delays : t.delayLog = s.delayLog
  rxlen : t.rxlen = n
  room : n ≤ t.rxbuf.length
  stored : t.rxbuf.take n = frame.take n

/-- The bytes read so far stand in the buffer. -/
theorem FrameRead.byteAt_rxbuf {s t : State} {frame rest : List Byte} {n k : Nat} (h : FrameRead s t frame rest n)
    (hk : k < n) : byteAt t.rxbuf k = byteAt frame k := by
  rw [byteAt_of_take h.stored hk, ← byteAt_of_take rfl hk]

/-- What a read leaves unchanged. -/
theorem FrameRead.state_eq {s t : State} {frame rest : List Byte} {n : Nat} (h : FrameRead s t frame rest n) :
    t = { s with phase := t.phase, rxlen := n, need := t.need, rxbuf := t.rxbuf, tries := t.tries,
                 rxStatus := t.rxStatus, queue := t.queue, arrivals := t.arrivals } := by
  have hframe := h.frameOnly
  rwa [ReceiverOnly, h.rxlen, h.delays] at hframe

/-- The phase, the count of bytes needed and the status tell nothing of what was read. -/
theorem FrameRead.congr {s t u : State} {frame rest : List Byte} {n : Nat} (h : FrameRead s t frame rest n)
    (hu : u = { t with phase := u.phase, need := u.need, rxStatus := u.rxStatus }) : FrameRead s u frame rest n := by
  rw [hu]
  exact ⟨h.frameOnly.trans rfl, h.taken, h.queued, h.delays, h.rxlen, h.room, h.stored⟩

/-- Reading on, within the frame. -/
theorem FrameRead.readBytes {s t : State} {frame rest : List Byte} {n k : Nat} (h : FrameRead s t frame rest n)
    (hk : n + k ≤ frame.length) : ∃ u, Machine.readBytes k t = .all u ∧ FrameRead s u frame rest (n + k)
      ∧ u.phase = t.phase ∧ u.need = t.need - k := by
  obtain ⟨more, hqueue⟩ := h.queued
  have hlen : ((frame.drop n).take k).length = k := by simp; omega
  have hsplit : t.queue = (frame.drop n).take k ++ (frame.drop (n + k) ++ (rest ++ more)) := by
    rw [hqueue, ← List.drop_drop, ← List.append_assoc (List.take _ _), List.take_append_drop]
  obtain ⟨u, more', hread, htaken, hleft, hdelays, honly, hphase, -, hrxlen, hneed, hroom, hstored⟩ :=
    readBytes_queued _ t _ (h.rxlen.trans_le h.room) hsplit
  rw [hlen] at hread hrxlen hneed
  rw [h.rxlen] at hrxlen hstored
  rw [hrxlen] at hroom hstored
  exact ⟨u, hread, {
    frameOnly := h.frameOnly.trans honly
    taken := by rw [h.taken, htaken, List.take_add, List.append_assoc]
    queued := ⟨more ++ more', by rw [hleft]; simp⟩
    delays := hdelays.trans h.delays
    rxlen := hrxlen
    room := hroom
    stored := by rw [hstored, h.stored, List.take_add] }, hphase, hneed⟩

/-- A frame for the block that stands in the queue, of the inferred length and within `MAX_ADU`, is read to its end:
what remains is the check of its CRC (`41_receiver.md` R92). -/
theorem receive_queued {s : State} {frame rest : List Byte} (hqueue : s.queue = frame ++ rest)
    (hlen : totalLen frame = frame.length) (hmax : frame.length ≤ 260) (hown : ¬ Foreign s.cfg (byteAt frame 0)) :
    ∃ t, receive s = endData t ∧ FrameRead s t frame rest frame.length ∧ t.phase = .data ∧ t.need = 0 := by
  have htotal : 2 + metaLen (byteAt frame 1) + (dataLen frame + 2) = frame.length := hlen
  have hstart : FrameRead s (startHeader s) frame rest 0 :=
    ⟨rfl, rfl, ⟨[], by simp [hqueue]⟩, rfl, rfl, Nat.zero_le _, rfl⟩
  obtain ⟨t, hread, ht, -, -⟩ := hstart.readBytes (k := 2) (by omega)
  have haddr : ¬ Foreign t.cfg (byteAt t.rxbuf 0) := by
    rwa [ht.frameOnly.cfg, ht.byteAt_rxbuf (by omega)]
  have hcode : byteAt t.rxbuf 1 = byteAt frame 1 := ht.byteAt_rxbuf (by omega)
  have hmeta : FrameRead s (startMeta t) frame rest 2 := ht.congr rfl
  obtain ⟨u, hread', hu, -, -⟩ := hmeta.readBytes (k := metaLen (byteAt frame 1)) (by omega)
  have hdata : dataLen u.rxbuf = dataLen frame := dataLen_congr fun k hk => hu.byteAt_rxbuf hk
  have hdataStart : FrameRead s (startData u) frame rest (2 + metaLen (byteAt frame 1)) := hu.congr rfl
  obtain ⟨v, hread'', hv, hphase, hneed⟩ := hdataStart.readBytes (k := dataLen frame + 2) (by omega)
  have hfits : ¬ u.rxlen + (startData u).need > Config.maxAdu := by
    rw [hu.rxlen, startData_need, hdata, Config.maxAdu]
    omega
  refine ⟨v, ?_, htotal ▸ hv, hphase, by rw [hneed, startData_need, hdata, Nat.sub_self]⟩
  calc receive s = endHeader t := by rw [receive, startHeader_need, hread]
    _ = endMeta u := by rw [endHeader, if_neg haddr, startMeta_need, hcode, hread']
    _ = endData v := by rw [endMeta, if_neg hfits, startData_need, hdata, hread'']

/-- A well-formed request for the block that stands in the queue is accepted whole (`41_receiver.md` R92, R93). -/
theorem receive_encode {s : State} {i : Instr} {rest : List Byte} (hqueue : s.queue = encode i ++ rest)
    (hw : i.wellFormed = true) (hown : ¬ Foreign s.cfg i.slave) :
    FrameRead s (receive s) (encode i) rest (encode i).length ∧ (receive s).phase = .data ∧ (receive s).need = 0
      ∧ (receive s).rxStatus = rxAccepted (encode i).length := by
  obtain ⟨-, hmax⟩ := encode_length hw []
  obtain ⟨t, hreceive, ht, hphase, hneed⟩ :=
    receive_queued hqueue (by simpa using totalLen_encode hw []) hmax (by rwa [byteAt_encode_zero])
  have haccept : receive s = rxReturn (rxAccepted (encode i).length) t := by
    rw [hreceive, endData, ht.rxlen, ht.stored, List.take_length, encode, validate_appendCrc]
  rw [haccept]
  exact ⟨ht.congr rfl, hphase, hneed, rfl⟩

/-! ### A tick with a request in the queue -/

/-- The status of an accepted frame is its length (`10_state.md` R22). -/
theorem rxAccepted_toNat {n : Nat} (hn : n ≤ 260) : (rxAccepted n).toNat = n := by
  rw [rxAccepted, BitVec.toNat_ofNat]
  exact Nat.mod_eq_of_lt (by omega)

theorem rxPositive_rxAccepted {n : Nat} (hpos : 0 < n) (hn : n ≤ 260) : rxPositive (rxAccepted n) = true := by
  have htoNat := rxAccepted_toNat hn
  rw [rxPositive, BitVec.toInt_eq_toNat_of_lt (by omega), htoNat]
  simpa using hpos

/-- An accepted request is the one that is executed. -/
theorem afterReceive_encode {r : State} {i : Instr} (hw : i.wellFormed = true)
    (hstatus : r.rxStatus = rxAccepted (encode i).length) (hbytes : r.rxbuf.take (encode i).length = encode i) :
    afterReceive r = afterReply (exec i { r with ctrl := .replying }) := by
  obtain ⟨hmin, hmax⟩ := encode_length hw []
  have hdecode : decode (r.rxbuf.take r.rxStatus.toNat) = .ok (i, []) := by
    rw [hstatus, rxAccepted_toNat hmax, hbytes]
    simpa using decode_encode hw []
  rw [afterReceive, if_pos (by rw [hstatus]; exact rxPositive_rxAccepted (by omega) hmax), reply, hdecode]

/-- An iteration that finds a well-formed request for the block in the queue executes it, in the state in which the
receive has taken exactly its bytes. -/
theorem iteration_encode {s : State} {i : Instr} {rest : List Byte} (hqueue : s.queue = encode i ++ rest)
    (hw : i.wellFormed = true) (hown : ¬ Foreign s.cfg i.slave) :
    ∃ r, iteration s = afterReply (exec i r)
      ∧ r = { s with
                ctrl := .replying, phase := .data, rxlen := (encode i).length, need := 0, rxbuf := r.rxbuf,
                tries := r.tries, rxStatus := rxAccepted (encode i).length, queue := r.queue,
                arrivals := r.arrivals }
      ∧ r.rxbuf.take r.rxlen = encode i ∧ incoming s = encode i ++ incoming r ∧ ∃ more, r.queue = rest ++ more := by
  obtain ⟨more, hmore⟩ := poll_queue s
  have hpolled : (poll s).queue = encode i ++ (rest ++ more) := by rw [hmore, hqueue, List.append_assoc]
  have hnonempty : (poll s).queue ≠ [] := by
    obtain ⟨hmin, -⟩ := encode_length hw []
    rw [hpolled, Ne, ← List.length_eq_zero_iff, List.length_append]
    omega
  have hincoming : incoming { poll s with ctrl := .receiving } = incoming s := poll_incoming s
  obtain ⟨hread, hphase, hneed, hstatus⟩ :=
    receive_encode (s := { poll s with ctrl := .receiving }) hpolled hw (by simpa using hown)
  rw [iteration, if_neg hnonempty]
  generalize receive _ = r at *
  have hbytes : r.rxbuf.take (encode i).length = encode i := by rw [hread.stored, List.take_length]
  obtain ⟨more', hleft⟩ := hread.queued
  rw [List.drop_length] at hleft
  have htaken := hread.taken
  rw [List.take_length, hincoming] at htaken
  have hframe := hread.state_eq
  rw [hphase, hneed, hstatus] at hframe
  refine ⟨_, afterReceive_encode hw hstatus hbytes, ?_, by rw [hread.rxlen, hbytes], htaken, more ++ more',
    by simp [hleft]⟩
  conv_lhs => rw [hframe]
  simp

/-- A tick that finds a request to `SLAVE_ID` in the queue, one whose handler succeeds there, answers it: the handler's
map, its response as the one write, and exactly the request's bytes taken. -/
theorem step_tick_answers {s : State} {i : Instr} {moves : List HostMove} {rest body : List Byte} {m : RegMap}
    (hlegal : s.cfg.Legal) (hidle : s.ctrl = .idle) (hmapper : s.mapper ≠ .late) (hagenda : s.agenda = .tick :: moves)
    (hqueue : s.queue = encode i ++ rest) (hw : i.wellFormed = true) (hslave : i.slave = s.cfg.slaveId)
    (hok : handlerOf { s with rxStatus := rxAccepted (encode i).length } i = .ok (m, body)) :
    ∃ t, step s = .next t ∧ t.cfg = s.cfg ∧ t.ctrl = .idle ∧ t.map = m ∧ t.agenda = moves
      ∧ t.mapper = mapperAfter .tick s.mapper ∧ t.txLog = s.txLog ++ [appendCrc body]
      ∧ incoming s = encode i ++ incoming t ∧ ∃ more, t.queue = rest ++ more := by
  obtain ⟨hnext, hconsumed⟩ := schedule_head hagenda (fun _ => hmapper) (by simp)
  have hown : ¬ Foreign s.cfg i.slave := fun hforeign => hforeign.1 hslave
  have hunicast : i.slave ≠ Config.broadcastAddr := by
    intro hzero
    have hmin : 1 ≤ s.cfg.slaveId.toNat := hlegal.1
    rw [← hslave, hzero] at hmin
    exact absurd hmin (by decide)
  obtain ⟨r, hiteration, hr, -, htaken, more, hleft⟩ :=
    iteration_encode (s := { s with agenda := moves, mapper := mapperAfter .tick s.mapper }) hqueue hw hown
  have hcfg : r.cfg = s.cfg := by rw [hr]
  have hmoves : r.agenda = moves := by rw [hr]
  have hafter : r.mapper = mapperAfter .tick s.mapper := by rw [hr]
  have hlog : r.txLog = s.txLog := by rw [hr]
  have hhandler : handlerOf r i = .ok (m, body) :=
    (handlerOf_congr (by rw [hr]) (by rw [hr]) (by rw [hr]) i).trans hok
  have hexec : exec i r = .next (respond i.slave body { r with map := m }) := by
    rw [exec_eq, hhandler, engine_ok (by rw [hcfg]; exact hown)]
  have hincoming : incoming (endTick (respond i.slave body { r with map := m })) = incoming r := by simp [incoming]
  refine ⟨endTick (respond i.slave body { r with map := m }),
    by rw [step_of_tick hlegal hidle hnext, hconsumed, hiteration, hexec, afterReply], by simpa using hcfg, rfl,
    by simp, by simpa using hmoves, by simpa using hafter, ?_, hincoming ▸ htaken, more, by simpa using hleft⟩
  rw [endTick_txLog, respond_txLog_of_ne hunicast, ← hlog]

/-- After a tick the mapper is not ahead. -/
theorem mapperAfter_tick_ne_early (m : Mapper) : mapperAfter .tick m ≠ .early := by
  cases m <;> decide

/-- After a sample the mapper owes none. -/
theorem mapperAfter_sample_ne_late (m : Mapper) : mapperAfter .sample m ≠ .late := by
  cases m <;> decide

/-- A sample at the head of the agenda, which the mapper has not had yet, is taken, and changes nothing that a request
reads and no byte of the transport. -/
theorem step_sample {s : State} {moves : List HostMove} (hlegal : s.cfg.Legal) (hidle : s.ctrl = .idle)
    (hmapper : s.mapper ≠ .early) (hagenda : s.agenda = .sample :: moves) :
    ∃ t, step s = .next t ∧ t.cfg = s.cfg ∧ t.ctrl = .idle ∧ t.map = s.map ∧ t.agenda = moves
      ∧ t.mapper = mapperAfter .sample s.mapper ∧ t.txLog = s.txLog ∧ incoming t = incoming s ∧ t.queue = s.queue := by
  obtain ⟨hnext, hconsumed⟩ := schedule_head hagenda (by simp) (fun _ => hmapper)
  have hstep : step s = .next (sampleCoils { s with agenda := moves, mapper := mapperAfter .sample s.mapper }) := by
    rw [step_eq hlegal hidle, hnext, hconsumed, perform]
  exact ⟨_, hstep, rfl, hidle, rfl, rfl, rfl, rfl, rfl, rfl⟩

/-- A single-register write inside the extent, in a frame of the expected length, writes the register and echoes. -/
theorem writeSingleRegister_ok {s : State} {slave : Byte} {addr val : Word} (hin : InExtent s.cfg (.regs .hold) addr 1)
    (hstatus : s.rxStatus = 8) : writeSingleRegister slave addr val s =
      .ok (writeReg s.map .hold (index s.cfg (.regs .hold) addr) val,
        echoBody slave fcWriteSingleRegister addr val) := by
  rw [writeSingleRegister, translate_eq, if_pos hin]
  exact if_neg (not_not.2 hstatus)

/-- A read of one register inside the extent answers its value. -/
theorem readRegsHandler_one {s : State} {slave fc : Byte} {addr : Word} {sp : RegSpace}
    (hin : InExtent s.cfg (.regs sp) addr 1) : readRegsHandler sp slave fc addr 1 s =
      .ok (s.map, [slave, fc, 2] ++ beBytes (readReg s.map sp (index s.cfg (.regs sp) addr))) := by
  rw [readRegsHandler, if_neg (by decide), translate_eq, show (1 : Word).toNat = 1 from rfl, if_pos hin]
  simp [readRegs, regBytes, index]

/-- Settles O52: the first tick writes the register and leaves the second frame at the head of the queue, the sample
reads the coils only, and the second tick finds the register as the first has left it. -/
theorem secondTickSeesFirstTicksWrite : Obligations.SecondTickSeesFirstTicksWrite := by
  intro s moves slave addr val rest hlegal hidle hmapper hagenda hslave hin hqueue
  rw [List.append_assoc] at hqueue
  obtain ⟨t, hwrite, hcfg, hctrl, hmap, hagenda', hmapper', hlog, htaken, more, hleft⟩ :=
    step_tick_answers hlegal hidle hmapper hagenda hqueue rfl hslave (writeSingleRegister_ok hin rfl)
  rw [← hcfg] at hlegal hslave hin
  obtain ⟨m, hsample, hcfg', hctrl', hmap', hagenda'', hmapper'', hlog', hincoming, hqueue'⟩ :=
    step_sample hlegal hctrl (hmapper' ▸ mapperAfter_tick_ne_early s.mapper) hagenda'
  rw [← hcfg'] at hlegal hslave hin
  rw [hleft, List.append_assoc] at hqueue'
  obtain ⟨u, hread, -, -, -, hmoves, -, hlog'', htaken', -⟩ :=
    step_tick_answers hlegal hctrl' (hmapper'' ▸ mapperAfter_sample_ne_late t.mapper) hagenda'' hqueue'
      (i := .rdhold slave addr 1) rfl hslave (readRegsHandler_one hin)
  have hvalue : readReg m.map .hold (index m.cfg (.regs .hold) addr) = val := by
    rw [hmap', hmap, readReg_writeReg, hcfg', hcfg, if_pos ⟨rfl, rfl⟩]
  refine ⟨t, m, u, hwrite, hsample, hread, hmoves, hlog, hlog', ?_, ?_⟩
  · rw [hlog'', hlog', ← hvalue]
    rfl
  · rw [htaken, ← hincoming, htaken', List.append_assoc]

end Sys2Proof.Proofs

/-! PROOFS. The statements of `30_encoding.md`: the frame lengths, and that the decoder and the encoder undo each
other. -/

namespace Sys2Proof.Proofs

open Sys2Proof.Machine Sys2Proof.Safety

/-! ### From a request to its bytes -/

/-- Settles O8: the length inference finds the end of the frame, and the fields are read back. -/
theorem decodeOfEncode : Obligations.DecodeOfEncode :=
  fun _ rest hw => decode_encode hw rest

/-- Bytes that are the encoding of a well-formed request are read as that request. -/
theorem decode_of_eq_encode {bytes : List Byte} {i : Instr} (hw : i.wellFormed = true) (hbytes : bytes = encode i) :
    decode bytes = .ok (i, []) := by
  rw [hbytes, ← decode_encode hw [], List.append_nil]

set_option maxRecDepth 100000 in
/-- Settles O5: each word is the encoding of its request, CRC included, so it is read back as that request. -/
theorem specWordsDecode : Obligations.SpecWordsDecode := by
  refine ⟨?_, ?_, ?_, ?_, ?_, ?_, ?_, ?_, ?_, ?_, ?_⟩ <;> exact decode_of_eq_encode rfl (by decide)

/-- A code outside the rows of RQ4, RQM, RQK and RQW is in none of the first ten rows (`30_encoding.md` R62). -/
theorem not_mem_listedCodes {fc : Byte} (hrq4 : fc ∉ ([0x01, 0x02, 0x03, 0x04, 0x05, 0x06] : List Byte))
    (hrqm : fc ∉ ([0x0F, 0x10] : List Byte)) (hrqk : fc ≠ 0x16) (hrqw : fc ≠ 0x17) : fc ∉ listedCodes := by
  have hrows : listedCodes = [0x01, 0x02, 0x03, 0x04, 0x05, 0x06] ++ [0x0F, 0x10] ++ [0x16] ++ [0x17] := rfl
  simp only [hrows, List.mem_append, List.mem_singleton, hrq4, hrqm, hrqk, hrqw, or_self, not_false_eq_true]

/-- The byte count of format RQM is the last of its metadata (`30_encoding.md` R55). -/
theorem declaredCount_rqm {frame : List Byte} (hcode : byteAt frame 1 ∈ ([0x0F, 0x10] : List Byte)) :
    declaredCount frame = (byteAt frame 6).toNat :=
  if_neg fun h => absurd (h ▸ hcode) (by decide)

/-- The byte count of format RQW is the last of its metadata (`30_encoding.md` R57). -/
theorem declaredCount_rqw {frame : List Byte} (hcode : byteAt frame 1 = 0x17) :
    declaredCount frame = (byteAt frame 10).toNat :=
  if_pos hcode

/-- The inferred length is column 5 of `30_encoding.md` R53, for any bytes. -/
theorem totalLen_eq_formatLength (frame : List Byte) :
    totalLen frame = formatLength (byteAt frame 1) (declaredCount frame) := by
  rw [formatLength]
  split_ifs with hrq4 hrqm hrqk hrqw
  · simp only [List.mem_cons, List.not_mem_nil, or_false] at hrq4
    rw [totalLen, dataLen]
    rcases hrq4 with h | h | h | h | h | h <;> rw [h] <;> rfl
  · have hlen : totalLen frame = 2 + 5 + (byteAt frame 6).toNat + 2 := by
      simp only [List.mem_cons, List.not_mem_nil, or_false] at hrqm
      rw [totalLen, dataLen]
      rcases hrqm with h | h <;> rw [h] <;> rfl
    rw [hlen, declaredCount_rqm hrqm]
    omega
  · rw [totalLen, dataLen, hrqk]
    rfl
  · have hlen : totalLen frame = 2 + 9 + (byteAt frame 10).toNat + 2 := by
      rw [totalLen, dataLen, hrqw]
      rfl
    rw [hlen, declaredCount_rqw hrqw]
    omega
  · have hcode := not_mem_listedCodes hrq4 hrqm hrqk hrqw
    simp only [listedCodes, List.mem_cons, List.not_mem_nil, or_false, not_or] at hcode
    simp [totalLen, metaLen, dataLen, hcode]

/-- The second byte of an encoded request is its function code. -/
theorem byteAt_encode_one (i : Instr) : byteAt (encode i) 1 = i.code := by
  cases i <;> rfl

/-- Settles O6: the length the decoder infers is both the frame's own and its format's. -/
theorem frameLengthsByFormat : Obligations.FrameLengthsByFormat := by
  intro i hw
  have hlen : totalLen (encode i) = (encode i).length := by simpa using totalLen_encode hw []
  obtain ⟨hmeta, hmax⟩ := encode_length hw []
  refine ⟨?_, byteAt_encode_zero i, byteAt_encode_one i, by omega, hmax⟩
  rw [← hlen, totalLen_eq_formatLength, byteAt_encode_one]

/-! ### From bytes to the request they hold -/

/-- A byte inside the frame is a run of one byte. -/
theorem singleton_byteAt {frame : List Byte} {k : Nat} (h : k < frame.length) :
    [byteAt frame k] = (frame.drop k).take 1 := by
  rw [byteAt, List.getD_eq_getElem _ _ h, List.drop_eq_getElem_cons h]
  rfl

/-- A 16-bit field of the frame is its two bytes, high byte first (`20_memory.md` R37). -/
theorem beBytes_wordAt {frame : List Byte} {k : Nat} (h : k + 2 ≤ frame.length) :
    beBytes (wordAt frame k) = (frame.drop k).take 2 := by
  calc beBytes (wordAt frame k) = [byteAt frame k] ++ [byteAt frame (k + 1)] := by simp [beBytes, wordAt]
    _ = (frame.drop k).take 2 := by
      rw [singleton_byteAt (by omega), singleton_byteAt (by omega), ← List.drop_drop, ← List.take_add]

/-- A frame that validates is its body with the body's CRC appended (`40_checksum.md` R75). -/
theorem appendCrc_of_validate {frame : List Byte} (h : validate frame ≠ none) :
    appendCrc (frame.take (frame.length - 2)) = frame := by
  unfold validate at h
  split at h
  case isTrue => exact absurd rfl h
  case isFalse hlen =>
    split at h
    case isFalse => exact absurd rfl h
    case isTrue hcrc =>
      obtain ⟨hhi, hlo⟩ := hcrc
      have hlast : frame.length - 2 + 1 = frame.length - 1 := by omega
      have hfield : wordAt frame (frame.length - 2) = crc16 (frame.take (frame.length - 2)) := by
        rw [wordAt, hlast, hhi, hlo, be16_hi_lo]
      rw [appendCrc, ← hfield, beBytes_wordAt (by omega), ← List.take_add, List.take_of_length_le (by omega)]

/-- The request `i` is what the bytes of `frame` before its CRC field stand for. -/
def FrameHolds (frame : List Byte) (i : Instr) : Prop :=
  i.wellFormed = true ∧ encodeBody i = frame.take (frame.length - 2)

/-- The address byte and the function code begin the frame (`30_encoding.md` R51). -/
theorem header_eq_take {frame : List Byte} (h : 2 ≤ frame.length) :
    [byteAt frame 0, byteAt frame 1] = frame.take 2 := by
  have hword : beBytes (wordAt frame 0) = (frame.drop 0).take 2 := beBytes_wordAt (by omega)
  rwa [beBytes, wordAt, hi_be16, lo_be16] at hword

/-- The header, the address and the value or quantity, as formats RQ4 and RQM begin (`30_encoding.md` R54, R55). -/
theorem fields_eq_take {frame : List Byte} (h : 6 ≤ frame.length) :
    [byteAt frame 0, byteAt frame 1] ++ beBytes (wordAt frame 2) ++ beBytes (wordAt frame 4) = frame.take 6 := by
  rw [header_eq_take (by omega), beBytes_wordAt (by omega), beBytes_wordAt (by omega), ← List.take_add,
    ← List.take_add]

/-- Format RQ4 (`30_encoding.md` R54). -/
theorem frameHolds_parse_rq4 {frame : List Byte}
    (hcode : byteAt frame 1 ∈ ([0x01, 0x02, 0x03, 0x04, 0x05, 0x06] : List Byte)) (hlen : frame.length = 8) :
    FrameHolds frame (parse frame) := by
  have hbody := fields_eq_take (frame := frame) (by omega)
  simp only [List.mem_cons, List.not_mem_nil, or_false] at hcode
  rw [FrameHolds, hlen, ← hbody, parse]
  rcases hcode with h | h | h | h | h | h <;> rw [h] <;> exact ⟨rfl, rfl⟩

/-- Format RQM (`30_encoding.md` R55). -/
theorem frameHolds_parse_rqm {frame : List Byte} (hcode : byteAt frame 1 ∈ ([0x0F, 0x10] : List Byte))
    (hlen : frame.length = 9 + (byteAt frame 6).toNat) (hmax : frame.length ≤ 260) :
    FrameHolds frame (parse frame) := by
  have hbody : [byteAt frame 0, byteAt frame 1] ++ beBytes (wordAt frame 2) ++ beBytes (wordAt frame 4)
      ++ [byteAt frame 6] ++ (frame.drop 7).take (byteAt frame 6).toNat = frame.take (frame.length - 2) := by
    rw [fields_eq_take (by omega), singleton_byteAt (by omega), ← List.take_add, ← List.take_add]
    congr 1
    omega
  have hwf : Instr.wellFormedRqm (byteAt frame 6) ((frame.drop 7).take (byteAt frame 6).toNat) = true := by
    simp only [Instr.wellFormedRqm, List.length_take, List.length_drop, Bool.and_eq_true, beq_iff_eq,
      decide_eq_true_eq]
    omega
  simp only [List.mem_cons, List.not_mem_nil, or_false] at hcode
  rw [FrameHolds, ← hbody, parse]
  rcases hcode with h | h <;> rw [h] <;> exact ⟨hwf, rfl⟩

/-- Format RQK (`30_encoding.md` R56). -/
theorem frameHolds_parse_rqk {frame : List Byte} (hcode : byteAt frame 1 = 0x16) (hlen : frame.length = 10) :
    FrameHolds frame (parse frame) := by
  have hbody : [byteAt frame 0, byteAt frame 1] ++ (frame.drop 2).take 6 = frame.take 8 := by
    rw [header_eq_take (by omega), ← List.take_add]
  have hwf : Instr.wellFormedRqk ((frame.drop 2).take 6) = true := by simp [Instr.wellFormedRqk, hlen]
  rw [FrameHolds, hlen, ← hbody, parse, hcode]
  exact ⟨hwf, rfl⟩

/-- Format RQW (`30_encoding.md` R57). -/
theorem frameHolds_parse_rqw {frame : List Byte} (hcode : byteAt frame 1 = 0x17)
    (hlen : frame.length = 13 + (byteAt frame 10).toNat) (hmax : frame.length ≤ 260) :
    FrameHolds frame (parse frame) := by
  have hbody : [byteAt frame 0, byteAt frame 1] ++ (frame.drop 2).take 9
      ++ (frame.drop 11).take (byteAt frame 10).toNat = frame.take (frame.length - 2) := by
    rw [header_eq_take (by omega), ← List.take_add, ← List.take_add]
    congr 1
    omega
  have hcount : ((frame.drop 2).take 9).getD 8 0 = byteAt frame 10 := by
    simp [byteAt, List.getD_eq_getElem?_getD]
  have hwf : Instr.wellFormedRqw ((frame.drop 2).take 9) ((frame.drop 11).take (byteAt frame 10).toNat) = true := by
    simp only [Instr.wellFormedRqw, hcount, List.length_take, List.length_drop, Bool.and_eq_true, beq_iff_eq,
      decide_eq_true_eq]
    omega
  rw [FrameHolds, ← hbody, parse, hcode]
  exact ⟨hwf, rfl⟩

/-- Format RQ0 (`30_encoding.md` R58). -/
theorem frameHolds_parse_rq0 {frame : List Byte} (hcode : byteAt frame 1 ∉ listedCodes) (hlen : frame.length = 4) :
    FrameHolds frame (parse frame) := by
  have hwf : Instr.wellFormedRq0 (byteAt frame 1) = true := by simp [Instr.wellFormedRq0, hcode]
  have hparse : parse frame = .other (byteAt frame 0) (byteAt frame 1) := by
    simp only [listedCodes, List.mem_cons, List.not_mem_nil, or_false, not_or] at hcode
    simp [parse, hcode]
  rw [hparse, FrameHolds, hlen, ← header_eq_take (by omega)]
  exact ⟨hwf, rfl⟩

/-- A frame of the length its format gives it, within `MAX_ADU`, holds the request that is read from it. -/
theorem frameHolds_parse {frame : List Byte} (hlen : totalLen frame = frame.length) (hmax : frame.length ≤ 260) :
    FrameHolds frame (parse frame) := by
  rw [totalLen_eq_formatLength, formatLength] at hlen
  split_ifs at hlen with hrq4 hrqm hrqk hrqw
  · exact frameHolds_parse_rq4 hrq4 hlen.symm
  · exact frameHolds_parse_rqm hrqm (declaredCount_rqm hrqm ▸ hlen.symm) hmax
  · exact frameHolds_parse_rqk hrqk hlen.symm
  · exact frameHolds_parse_rqw hrqw (declaredCount_rqw hrqw ▸ hlen.symm) hmax
  · exact frameHolds_parse_rq0 (not_mem_listedCodes hrq4 hrqm hrqk hrqw) hlen.symm

/-- Everything a decode that succeeds has checked, and what it answers. -/
theorem decode_ok {bytes rest : List Byte} {i : Instr} (h : decode bytes = .ok (i, rest)) :
    2 + metaLen (byteAt bytes 1) ≤ bytes.length ∧ totalLen bytes ≤ 260 ∧ totalLen bytes ≤ bytes.length
    ∧ validate (bytes.take (totalLen bytes)) ≠ none ∧ parse (bytes.take (totalLen bytes)) = i
    ∧ bytes.drop (totalLen bytes) = rest := by
  unfold decode Config.maxAdu at h
  split_ifs at h with hheader hmeta hmax hwhole hvalid
  simp only [Except.ok.injEq, Prod.mk.injEq] at h
  obtain ⟨hparse, hrest⟩ := h
  exact ⟨by omega, by omega, by omega, hvalid, hparse, hrest⟩

/-- The length inference reads the frame only, not the bytes after it. -/
theorem totalLen_take (bytes : List Byte) : totalLen (bytes.take (totalLen bytes)) = totalLen bytes := by
  have hsame : ∀ k, k < totalLen bytes → byteAt (bytes.take (totalLen bytes)) k = byteAt bytes k :=
    fun k hk => (byteAt_of_take rfl hk).symm
  have hlen : totalLen bytes = 2 + metaLen (byteAt bytes 1) + dataLen bytes + 2 := rfl
  rw [totalLen, hsame 1 (by omega), dataLen_congr fun k hk => hsame k (by omega)]
  exact hlen.symm

/-- Settles O9: the bytes taken are a frame of the length of its format, whose body holds the request and whose CRC
field is the one of that body. -/
theorem encodeOfDecode : Obligations.EncodeOfDecode := by
  intro bytes rest i h
  obtain ⟨-, hmax, hwhole, hvalid, rfl, rfl⟩ := decode_ok h
  have hlen : (bytes.take (totalLen bytes)).length = totalLen bytes := List.length_take_of_le hwhole
  obtain ⟨hwf, hbody⟩ := frameHolds_parse ((totalLen_take bytes).trans hlen.symm) (hlen.trans_le hmax)
  refine ⟨hwf, ?_⟩
  rw [encode, hbody, appendCrc_of_validate hvalid, List.take_append_drop]

end Sys2Proof.Proofs

/-! PROOFS. The statements of `40_checksum.md`: what validates, that one changed byte is detected, the wire order of the
CRC, and the responses sent. -/

namespace Sys2Proof.Proofs

open Sys2Proof.Machine Sys2Proof.Safety

/-! ### What validates -/

/-- The frames that validate are the bodies with their CRC appended, and the result is the full length
(`40_checksum.md` R75). -/
theorem validate_eq_some_iff {frame : List Byte} {n : Nat} :
    validate frame = some n ↔ ∃ body, frame = appendCrc body ∧ n = body.length + 2 := by
  constructor
  · intro h
    have hframe := appendCrc_of_validate (h ▸ Option.some_ne_none n)
    rw [← hframe, validate_appendCrc, Option.some.injEq] at h
    exact ⟨_, hframe.symm, h.symm⟩
  · rintro ⟨body, rfl, rfl⟩
    exact validate_appendCrc body

/-- Settles O1: a frame that validates is a body with its CRC appended, high byte first. -/
theorem validateComparesTrailingCrc : Obligations.ValidateComparesTrailingCrc := by
  intro frame n
  rw [validate_eq_some_iff]
  constructor
  · rintro ⟨body, rfl, rfl⟩
    exact ⟨(appendCrc_length body).symm, by omega, body, _, _, rfl, rfl, rfl⟩
  · rintro ⟨hn, -, body, _, _, hframe, rfl, rfl⟩
    exact ⟨body, hframe, by simp [hn, hframe]⟩

/-! ### The wire order -/

/-- The CRC field holds the low byte of the conventional register first (`40_checksum.md` R78). -/
theorem appendCrc_eq (body : List Byte) : appendCrc body = body ++ [lo (crcStd body), hi (crcStd body)] := by
  rw [appendCrc, crc16, beBytes, hi_be16, lo_be16]

set_option maxRecDepth 4000 in
/-- Settles O3: the two bytes of `crc16` are those of the register exchanged, and the check value is computed. -/
theorem crcWireOrder : Obligations.CrcWireOrder :=
  ⟨appendCrc_eq, by decide⟩

/-! ### The register as a function of the bytes

Every shift step can be undone, since bit 15 of its result is the bit shifted out. So the register after a sequence of
bytes determines each byte, when the others are known; after a frame that validates the register is 0. -/

/-- Bit `k` of a shift step: bit `k + 1`, inverted where the polynomial is subtracted and has the bit. -/
theorem crcShift_getLsbD (c : Word) (k : Nat) :
    (crcShift c).getLsbD k = (c.getLsbD (k + 1) ^^ (c.getLsbD 0 && (0xA001#16).getLsbD k)) := by
  unfold crcShift
  split
  case isTrue h => rw [BitVec.getLsbD_xor, BitVec.getLsbD_ushiftRight, h, Bool.true_and, Nat.add_comm]
  case isFalse h =>
    rw [BitVec.getLsbD_ushiftRight, Bool.eq_false_of_not_eq_true h, Bool.false_and, Bool.xor_false, Nat.add_comm]

theorem crcShift_injective : Function.Injective crcShift := by
  intro c d h
  have hbit (k : Nat) := congrArg (BitVec.getLsbD · k) h
  simp only [crcShift_getLsbD] at hbit
  have hlow : c.getLsbD 0 = d.getLsbD 0 := by simpa using hbit 15
  apply BitVec.eq_of_getLsbD_eq
  intro k _
  cases k with
  | zero => exact hlow
  | succ k =>
    have hsucc := hbit k
    rwa [hlow, Bool.xor_left_inj] at hsucc

/-- A byte of the CRC is eight shift steps, as an iterate. -/
theorem crcByte_eq_iterate (c : Word) (d : Byte) : crcByte c d = crcShift^[8] (c ^^^ d.zeroExtend 16) := rfl

theorem crcByte_left_injective (d : Byte) : Function.Injective (crcByte · d) := by
  intro c c' h
  exact BitVec.xor_left_inj _ |>.1 (crcShift_injective.iterate 8 h)

theorem crcByte_right_injective (c : Word) : Function.Injective (crcByte c) := by
  intro d d' h
  have hword := BitVec.xor_right_inj _ |>.1 (crcShift_injective.iterate 8 h)
  simpa using congrArg (BitVec.setWidth 8) hword

theorem foldl_crcByte_injective (post : List Byte) : Function.Injective (post.foldl crcByte) := by
  induction post with
  | nil => exact Function.injective_id
  | cons d post ih => exact ih.comp (crcByte_left_injective d)

theorem crcStd_append (xs ys : List Byte) : crcStd (xs ++ ys) = ys.foldl crcByte (crcStd xs) :=
  List.foldl_append

/-- The register determines each byte, when the bytes before and after it are known. -/
theorem eq_of_crcStd_eq {pre post : List Byte} {b c : Byte}
    (h : crcStd (pre ++ b :: post) = crcStd (pre ++ c :: post)) : b = c := by
  rw [crcStd_append, crcStd_append] at h
  exact crcByte_right_injective (crcStd pre) (foldl_crcByte_injective post h)

/-- Shift steps that shift out zeros only are a plain shift. -/
theorem crcShift_iterate_of_low_zeros {n : Nat} {c : Word} (h : ∀ k < n, c.getLsbD k = false) :
    crcShift^[n] c = c >>> n := by
  induction n generalizing c with
  | zero => rfl
  | succ n ih =>
    have hstep : crcShift c = c >>> 1 := if_neg (by rw [h 0 (by omega)]; exact Bool.false_ne_true)
    rw [Function.iterate_succ_apply, hstep, ih, ← BitVec.shiftRight_add, Nat.add_comm]
    intro k hk
    rw [BitVec.getLsbD_ushiftRight]
    exact h _ (by omega)

/-- Taking in the register's own low byte moves its high byte down. -/
theorem crcByte_lo (c : Word) : crcByte c (lo c) = (hi c).zeroExtend 16 := by
  have hlow : ∀ k < 8, (c ^^^ (lo c).zeroExtend 16).getLsbD k = false := by
    intro k hk
    have hk' : k < 16 := by omega
    simp [lo, hk, hk']
  rw [crcByte_eq_iterate, crcShift_iterate_of_low_zeros hlow]
  apply BitVec.eq_of_getLsbD_eq
  intro k hk
  have htop : c.getLsbD (8 + k) = true → k < 8 := fun h => by
    have hbound := BitVec.lt_of_getLsbD h
    omega
  simpa [lo, hi, hk] using htop

/-- The register is 0 after a body and its CRC field. -/
theorem crcStd_appendCrc (body : List Byte) : crcStd (appendCrc body) = 0 := by
  rw [appendCrc_eq, crcStd_append, List.foldl_cons, List.foldl_cons, List.foldl_nil, crcByte_lo, crcByte_eq_iterate,
    BitVec.xor_self]
  decide

/-- Settles O4: the register is 0 after the frame and would be 0 after the changed one, so the byte is unchanged. -/
theorem crcDetectsOneChangedByte : Obligations.CrcDetectsOneChangedByte := by
  intro pre post b c n hne hvalid
  obtain ⟨body, hframe, -⟩ := validate_eq_some_iff.1 hvalid
  by_contra hchanged
  obtain ⟨m, hm⟩ := Option.ne_none_iff_exists'.1 hchanged
  obtain ⟨body', hframe', -⟩ := validate_eq_some_iff.1 hm
  apply hne
  apply eq_of_crcStd_eq (pre := pre) (post := post)
  rw [hframe, hframe', crcStd_appendCrc, crcStd_appendCrc]

/-! ### The responses sent -/

/-- A response that is sent is its body with the CRC appended (`42_reply_engine.md` R107). -/
theorem eq_appendCrc_of_respond_txLog {slave : Byte} {body adu : List Byte} {s : State}
    (hlog : (respond slave body s).txLog = s.txLog ++ [adu]) : adu = appendCrc body := by
  obtain ⟨rsp, heq, -⟩ := respond_eq slave body s
  rw [heq, List.append_cancel_left_eq, responseWrites] at hlog
  split at hlog
  case isTrue => cases hlog
  case isFalse => exact (List.singleton_inj.1 hlog).symm

/-- What a request sends is the body its handler answers, or an exception, with the CRC appended
(`42_reply_engine.md` R107, R112). -/
theorem exec_sent {i : Instr} {s t : State} {adu : List Byte} (h : exec i s = .next t)
    (hlog : t.txLog = s.txLog ++ [adu]) :
    ∃ body, adu = appendCrc body
      ∧ ((∃ m, handlerOf s i = .ok (m, body)) ∨ ∃ e, body = exceptionBody i.slave i.code e) := by
  rw [exec_eq] at h
  obtain ⟨-, rfl⟩ | ⟨-, m, body, hok, rfl⟩ | ⟨-, e, -, rfl⟩ := engine_cases h
  · simp at hlog
  · exact ⟨body, eq_appendCrc_of_respond_txLog hlog, .inl ⟨m, hok⟩⟩
  · exact ⟨_, eq_appendCrc_of_respond_txLog hlog, .inr ⟨e, rfl⟩⟩

theorem writeSingleCoil_body {slave : Byte} {addr val : Word} {s : State} {m : RegMap} {body : List Byte}
    (h : writeSingleCoil slave addr val s = .ok (m, body)) : body = echoBody slave fcWriteSingleCoil addr val := by
  unfold writeSingleCoil at h
  split at h
  · cases h
  · split at h
    · cases h
    · split at h <;> cases h
      rfl

theorem writeSingleRegister_body {slave : Byte} {addr val : Word} {s : State} {m : RegMap} {body : List Byte}
    (h : writeSingleRegister slave addr val s = .ok (m, body)) :
    body = echoBody slave fcWriteSingleRegister addr val := by
  unfold writeSingleRegister at h
  split at h
  · cases h
  · split at h <;> cases h
    rfl

/-- Where the handler answers the request's own body, a response with the request's function code is the request, CRC
included: an exception has bit 7 of its code set. -/
theorem sent_eq_encode {i : Instr} {s t : State} {adu : List Byte} (h : exec i s = .next t)
    (hlog : t.txLog = s.txLog ++ [adu]) (hfc : byteAt adu 1 = i.code) (hcode : i.code ||| exceptionBit ≠ i.code)
    (hecho : ∀ m body, handlerOf s i = .ok (m, body) → body = encodeBody i) : adu = encode i := by
  obtain ⟨body, rfl, ⟨m, hok⟩ | ⟨e, rfl⟩⟩ := exec_sent h hlog
  · rw [encode, hecho m body hok]
  · exact absurd hfc hcode

/-- Settles O2: what is sent is a body with its CRC appended, and the body of an accepted single write is the
request's. -/
theorem crcRoundTrip : Obligations.CrcRoundTrip := by
  refine ⟨validate_appendCrc, ?_, ?_, ?_⟩
  · intro i s t adu h hlog
    obtain ⟨body, rfl, -⟩ := exec_sent h hlog
    rw [validate_appendCrc, appendCrc_length]
  · intro slave addr val s t adu h hlog hfc
    have hcode : (0x05 : Byte) ||| exceptionBit ≠ 0x05 := by decide
    exact sent_eq_encode h hlog hfc hcode fun _ _ => writeSingleCoil_body
  · intro slave addr val s t adu h hlog hfc
    have hcode : (0x06 : Byte) ||| exceptionBit ≠ 0x06 := by decide
    exact sent_eq_encode h hlog hfc hcode fun _ _ => writeSingleRegister_body

end Sys2Proof.Proofs

/-! PROOFS. The statements of `41_receiver.md`: the length inference, the wait for one byte, the receiver as the spec's
counter loop, and how a receive ends for what stands in the queue. -/

namespace Sys2Proof.Proofs

open Sys2Proof.Machine Sys2Proof.Safety

/-! ### Length inference -/

/-- Settles O7: the codes are written by number in the statement and by name in the model. -/
theorem lengthInference : Obligations.LengthInference := by
  simp only [Obligations.LengthInference, List.mem_cons, List.not_mem_nil, or_false]
  exact ⟨fun _ => rfl, fun _ => rfl⟩

/-! ### The wait for one byte -/

/-- Everything a poll does: the next batch of the script joins the queue (`60_exceptions.md` R151). -/
theorem poll_eq (s : State) :
    poll s = { s with queue := s.queue ++ s.arrivals.headD [], arrivals := s.arrivals.tail } := by
  cases harrivals : s.arrivals with
  | nil =>
    simp only [poll, harrivals, List.headD_nil, List.append_nil, List.tail_nil]
    rw [← harrivals]
  | cons batch later => simp [poll, harrivals]

/-- A poll that finds nothing leaves the queue empty and uses one batch of the script. -/
theorem poll_eq_of_nil {s : State} (h : (poll s).queue = []) :
    poll s = { s with queue := [], arrivals := s.arrivals.tail } := by
  simpa [poll_eq] using h

/-- A poll that finds a byte ends the wait. -/
theorem acquireLoop_byte {s : State} {b : Byte} {q : List Byte} (h : (poll s).queue = b :: q) (left : Nat) :
    acquireLoop left s = .byte b { poll s with queue := q } := by
  unfold acquireLoop
  rw [h]

/-- A poll that finds nothing is followed by a delay, as long as one is left. -/
theorem acquireLoop_retry {s : State} (h : (poll s).queue = []) (left : Nat) :
    acquireLoop (left + 1) s = acquireLoop left { delay (poll s) with tries := s.tries + 1 } := by
  rw [acquireLoop, h]

/-- A poll that finds nothing ends the wait when no delay is left. -/
theorem acquireLoop_gap {s : State} (h : (poll s).queue = []) : acquireLoop 0 s = .gap (poll s) := by
  unfold acquireLoop
  rw [h]

/-- `s` after `n` polls that found nothing, each with the delay that follows it (`41_receiver.md` R83). -/
def waited (n : Nat) (s : State) : State :=
  { s with queue := [], arrivals := s.arrivals.drop n, tries := s.tries + n,
           delayLog := s.delayLog ++ List.replicate n s.cfg.rxQuantumMs }

/-- The queue stays empty at a poll whose batch is empty. -/
theorem poll_queue_nil {s : State} (hqueue : s.queue = []) (hbatch : ∀ batch ∈ s.arrivals.take 1, batch = []) :
    (poll s).queue = [] := by
  cases harrivals : s.arrivals with
  | nil => simp [poll_eq, hqueue, harrivals]
  | cons batch later => simpa [poll_eq, hqueue, harrivals] using hbatch batch (by simp [harrivals])

/-- While nothing arrives, one delay is spent for each poll. -/
theorem acquireLoop_waited {n : Nat} {s : State} (hqueue : s.queue = [])
    (hsilent : ∀ batch ∈ s.arrivals.take n, batch = []) (left : Nat) :
    acquireLoop (left + n) s = acquireLoop left (waited n s) := by
  induction n generalizing s with
  | zero => simp [waited, ← hqueue]
  | succ n ih =>
    have hpoll : (poll s).queue = [] :=
      poll_queue_nil hqueue fun batch h => hsilent batch (List.take_subset_take_left _ (by omega) h)
    have hnext : waited n { delay (poll s) with tries := s.tries + 1 } = waited (n + 1) s := by
      simp [waited, poll_eq, delay, List.replicate_succ, Nat.add_comm, Nat.add_left_comm]
    rw [← Nat.add_assoc, acquireLoop_retry hpoll, ih, hnext]
    · exact hpoll
    · intro batch h
      refine hsilent batch (List.mem_of_mem_drop (i := 1) ?_)
      simpa [List.drop_take] using h

/-- When RX_RETRIES + 1 polls find nothing, the byte is given up after RX_RETRIES delays (`41_receiver.md` R83). -/
theorem acquireByte_gap {s : State} (hqueue : s.queue = [])
    (hsilent : ∀ batch ∈ s.arrivals.take (s.cfg.rxRetries + 1), batch = []) :
    acquireByte s = .gap { s with queue := [], arrivals := s.arrivals.drop (s.cfg.rxRetries + 1),
                                  tries := s.cfg.rxRetries,
                                  delayLog := s.delayLog
                                    ++ List.replicate s.cfg.rxRetries s.cfg.rxQuantumMs } := by
  rw [List.take_add, List.forall_mem_append] at hsilent
  obtain ⟨hsilent, hsilentLast⟩ := hsilent
  have hwait := acquireLoop_waited (s := { s with tries := 0 }) hqueue hsilent 0
  have hlast : (poll (waited s.cfg.rxRetries { s with tries := 0 })).queue = [] := poll_queue_nil rfl hsilentLast
  rw [Nat.zero_add, acquireLoop_gap hlast, poll_eq_of_nil hlast] at hwait
  rw [acquireByte, hwait]
  simp [waited]

/-- A byte that arrives at poll `j + 1` is taken after `j` delays (`41_receiver.md` R83). -/
theorem acquireByte_arrival {s : State} {j : Nat} {b : Byte} {q : List Byte} {later : List (List Byte)}
    (hqueue : s.queue = []) (harrivals : s.arrivals = List.replicate j [] ++ (b :: q) :: later)
    (hj : j ≤ s.cfg.rxRetries) :
    acquireByte s = .byte b { s with queue := q, arrivals := later, tries := j,
                                     delayLog := s.delayLog ++ List.replicate j s.cfg.rxQuantumMs } := by
  have hwait := acquireLoop_waited (n := j) (s := { s with tries := 0 }) hqueue
    (by simp [harrivals]) (s.cfg.rxRetries - j)
  have hdrop : s.arrivals.drop j = (b :: q) :: later := by simp [harrivals]
  have hpoll : (poll (waited j { s with tries := 0 })).queue = b :: q := by simp [poll_eq, waited, hdrop]
  rw [Nat.sub_add_cancel hj] at hwait
  rw [acquireByte, hwait, acquireLoop_byte hpoll, poll_eq]
  simp [waited, hdrop]

/-- Settles O27: a byte in the queue is found by the first poll; otherwise each poll that finds nothing costs one
delay, until one finds the byte or no delay is left. -/
theorem byteWaitIsBounded : Obligations.ByteWaitIsBounded := by
  refine ⟨fun s b q hqueue => ?_, fun s j b q later hqueue harrivals hj => ?_, fun s hqueue hsilent => ?_⟩
  · obtain ⟨t, -, hbyte, -, -, hdelays, htries, -⟩ := acquireByte_queued hqueue
    exact ⟨t, hbyte, htries, hdelays⟩
  · exact ⟨_, acquireByte_arrival hqueue harrivals hj, rfl, rfl, rfl, rfl⟩
  · exact ⟨_, acquireByte_gap hqueue hsilent, rfl, rfl, rfl, rfl⟩

/-! ### The phases of a receive, and the loop of the spec -/

/-- How a phase goes on after its bytes: by `next` when they all came, with `RX_TIMEOUT` when a gap ended them. -/
def afterRead (next : State → State) : Received → State
  | .all t => next t
  | .gap t => rxReturn rxTimeout t

/-- The HEADER phase of a receive. -/
theorem receive_eq (s : State) :
    receive s = afterRead endHeader (readBytes 2 (startHeader s)) := by
  unfold receive afterRead
  rw [startHeader_need]
  cases readBytes 2 (startHeader s) <;> rfl

/-- The address filter, and the META phase (`41_receiver.md` R87). -/
theorem endHeader_eq (s : State) : endHeader s =
    if Foreign s.cfg (byteAt s.rxbuf 0) then rxReturn rxNotAddressed (flush Config.maxAdu s)
    else afterRead endMeta (readBytes (startMeta s).need (startMeta s)) := by
  unfold endHeader afterRead
  cases readBytes (startMeta s).need (startMeta s) <;> rfl

/-- The oversize check, and the DATA phase (`41_receiver.md` R89, R91). -/
theorem endMeta_eq (s : State) : endMeta s =
    if s.rxlen + (startData s).need > Config.maxAdu then rxReturn rxInvalid (startData s)
    else afterRead endData (readBytes (startData s).need (startData s)) := by
  unfold endMeta afterRead
  cases readBytes (startData s).need (startData s) <;> rfl

/-- What `41_receiver.md` R94 does after a byte is stored: its two tests, and the rounds that are left. -/
def loopTests (fuel : Nat) (s : State) : State :=
  match loopHeader s with
  | none => rxReturn rxNotAddressed (flush 260 s)
  | some u =>
    if u.need = 0 ∧ u.phase = .metadata ∧ u.rxlen + (loopMeta u).need > 260 then rxReturn rxInvalid (loopMeta u)
    else loop fuel (loopMeta u)

/-- A round of the loop in which the byte comes. -/
theorem loop_of_byte {s t : State} {b : Byte} (hneed : s.need ≠ 0) (hbyte : acquireByte s = .byte b t) (fuel : Nat) :
    loop (fuel + 1) s = loopTests fuel (storeByte b t) := by
  rw [loop, if_neg hneed, hbyte]
  rfl

/-- A round of the loop in which the byte does not come. -/
theorem loop_of_gap {s t : State} (hneed : s.need ≠ 0) (hgap : acquireByte s = .gap t) (fuel : Nat) :
    loop (fuel + 1) s = rxReturn rxTimeout t := by
  rw [loop, if_neg hneed, hgap]

/-- A frame that validates validates with its own length (`40_checksum.md` R75). -/
theorem length_of_validate {frame : List Byte} {n : Nat} (h : validate frame = some n) : n = frame.length := by
  obtain ⟨body, rfl, rfl⟩ := validate_eq_some_iff.1 h
  exact (appendCrc_length body).symm

/-- Where nothing more is needed, the loop ends with the check of the CRC. -/
theorem loop_end {s : State} (hneed : s.need = 0) (hroom : s.rxlen ≤ s.rxbuf.length) (fuel : Nat) :
    loop (fuel + 1) s = endData s := by
  rw [loop, if_pos hneed, endData]
  cases hv : validate (s.rxbuf.take s.rxlen) with
  | none => rfl
  | some n =>
    have hlen := length_of_validate hv
    rw [List.length_take_of_le hroom] at hlen
    rw [hlen]

/-- Both tests fail while bytes are still needed. -/
theorem loopTests_of_need {s : State} (h : s.need ≠ 0) (fuel : Nat) : loopTests fuel s = loop fuel s := by
  simp [loopTests, loopHeader, loopMeta, h]

/-- Both tests fail in the DATA phase. -/
theorem loopTests_of_data {s : State} (h : s.phase = .data) (fuel : Nat) : loopTests fuel s = loop fuel s := by
  simp [loopTests, loopHeader, loopMeta, h]

/-- The second test, at the end of the META phase. -/
theorem loopTests_of_metadata {s : State} (hneed : s.need = 0) (hphase : s.phase = .metadata) (fuel : Nat) :
    loopTests fuel s =
      if s.rxlen + (startData s).need > Config.maxAdu then rxReturn rxInvalid (startData s)
      else loop fuel (startData s) := by
  have hdata : loopMeta s = startData s := if_pos ⟨hneed, hphase⟩
  simp [loopTests, loopHeader, hneed, hphase, hdata, Config.maxAdu]

/-- The first test, at the end of the HEADER phase; the second one follows it in the same round. -/
theorem loopTests_of_header {s : State} (hneed : s.need = 0) (hphase : s.phase = .header) (fuel : Nat) :
    loopTests fuel s =
      if Foreign s.cfg (byteAt s.rxbuf 0) then rxReturn rxNotAddressed (flush Config.maxAdu s)
      else loopTests fuel (startMeta s) := by
  have hheader : loopHeader s = if Foreign s.cfg (byteAt s.rxbuf 0) then none else some (startMeta s) :=
    if_pos ⟨hneed, hphase⟩
  split_ifs at hheader ⊢
  · rw [loopTests, hheader, Config.maxAdu]
  · have hpast : loopHeader (startMeta s) = some (startMeta s) := if_neg (by simp)
    rw [loopTests, loopTests, hheader, hpast]

/-- The rounds of the loop up to the end of a phase read what the phase needs. -/
theorem loopTests_readBytes (s : State) (fuel : Nat) :
    loopTests (fuel + s.need) s = afterRead (loopTests fuel) (readBytes s.need s) := by
  induction hn : s.need generalizing s with
  | zero => rfl
  | succ n ih =>
    have hneed : s.need ≠ 0 := by omega
    rw [loopTests_of_need hneed, ← Nat.add_assoc, readBytes]
    rcases acquireLoop_cases s.cfg.rxRetries { s with tries := 0 } with ⟨b, t, hbyte, ht, -⟩ | ⟨t, hgap, -⟩
    · replace hbyte : acquireByte s = .byte b t := hbyte
      have hneed' : (storeByte b t).need = n := by
        rw [storeByte_need, ht]
        exact congrArg (· - 1) hn
      rw [loop_of_byte hneed hbyte, hbyte]
      exact ih _ hneed'
    · replace hgap : acquireByte s = .gap t := hgap
      rw [loop_of_gap hneed hgap, hgap, afterRead]

/-- Two ways to go on after a phase agree when they agree wherever its reading can end. -/
theorem afterRead_congr {f g : State → State} {n : Nat} {s : State} (hroom : s.rxlen ≤ s.rxbuf.length)
    (h : ∀ t : State, t.phase = s.phase → t.need = s.need - n → t.rxlen = s.rxlen + n → t.rxlen ≤ t.rxbuf.length →
      f t = g t) :
    afterRead f (readBytes n s) = afterRead g (readBytes n s) := by
  rcases readBytes_cases n s hroom with
    ⟨_, t, hread, -, -, -, hphase, -, hrxlen, hneed, hroom', -⟩ | ⟨_, t, hread, -⟩
  · rw [hread]
    exact h t hphase hneed hrxlen hroom'
  · rw [hread]
    rfl

/-- From the end of the META phase on, the loop is the receiver's. -/
theorem loopTests_eq_endMeta {s : State} {fuel : Nat} (hneed : s.need = 0) (hphase : s.phase = .metadata)
    (hroom : s.rxlen ≤ s.rxbuf.length) (hfuel : 261 ≤ fuel + s.rxlen) : loopTests fuel s = endMeta s := by
  rw [loopTests_of_metadata hneed hphase, endMeta_eq]
  split
  · rfl
  · next hfits =>
    rw [Config.maxAdu] at hfits
    have hsplit : fuel = fuel - (startData s).need - 1 + 1 + (startData s).need := by omega
    conv_lhs => rw [hsplit, ← loopTests_of_data rfl, loopTests_readBytes]
    refine afterRead_congr hroom fun t hphase' hneed' _ hroom' => ?_
    rw [loopTests_of_data hphase', loop_end (by omega) hroom']

/-- From the end of the HEADER phase on, the loop is the receiver's. -/
theorem loopTests_eq_endHeader {s : State} {fuel : Nat} (hneed : s.need = 0) (hphase : s.phase = .header)
    (hrxlen : s.rxlen = 2) (hroom : s.rxlen ≤ s.rxbuf.length) (hfuel : 259 ≤ fuel) :
    loopTests fuel s = endHeader s := by
  have hmeta := metaLen_le (byteAt s.rxbuf 1)
  rw [loopTests_of_header hneed hphase, endHeader_eq]
  split
  · rfl
  · have hsplit : fuel = fuel - (startMeta s).need + (startMeta s).need := by
      rw [startMeta_need]
      omega
    conv_lhs => rw [hsplit, loopTests_readBytes]
    refine afterRead_congr hroom fun t hphase' hneed' hrxlen' hroom' => ?_
    rw [startMeta_rxlen, startMeta_need] at hrxlen'
    exact loopTests_eq_endMeta (by omega) hphase' hroom' (by rw [startMeta_need]; omega)

/-- Settles O36: phase by phase, the loop's rounds read the bytes the phase needs, and its two tests after the last of
them are the end of the phase. The rounds suffice, since a frame within `MAX_ADU` takes 260 of them and the check of its
CRC one. -/
theorem receiveIsTheCounterLoop : Obligations.ReceiveIsTheCounterLoop := by
  intro s
  calc receive s = afterRead endHeader (readBytes 2 (startHeader s)) := receive_eq s
    _ = afterRead (loopTests 259) (readBytes 2 (startHeader s)) := by
      refine afterRead_congr (Nat.zero_le _) fun t hphase hneed hrxlen hroom => ?_
      rw [startHeader_rxlen] at hrxlen
      exact (loopTests_eq_endHeader hneed hphase hrxlen hroom le_rfl).symm
    _ = loopTests 261 (startHeader s) := (loopTests_readBytes (startHeader s) 259).symm
    _ = loop 261 (startHeader s) := loopTests_of_need (by simp) 261

/-! ### Frames that stand in the queue -/

/-- The receiver's filter keeps what is addressed to the block (`30_encoding.md` R65). -/
theorem not_foreign_iff {c : Cfg} {slave : Byte} : ¬ Foreign c slave ↔ Accepted c slave := by
  rw [Foreign, Config.broadcastAddr, not_and_or, not_not, not_not]

/-- A frame that has been read to its end stands whole in the buffer, and only its bytes were taken. -/
theorem FrameRead.whole {s t : State} {frame rest : List Byte} (h : FrameRead s t frame rest frame.length) :
    t.rxbuf.take frame.length = frame ∧ incoming s = frame ++ incoming t ∧ ∃ more, t.queue = rest ++ more := by
  have hstored := h.stored
  have htaken := h.taken
  have hleft := h.queued
  rw [List.take_length] at hstored htaken
  rw [List.drop_length] at hleft
  exact ⟨hstored, htaken, hleft⟩

/-- Settles O28: the phases find each byte in the queue, and the CRC field is the right one. -/
theorem receiveAcceptsRequests : Obligations.ReceiveAcceptsRequests := by
  intro i s rest hw haccepted hqueue
  obtain ⟨hread, hphase, hneed, hstatus⟩ := receive_encode hqueue hw (not_foreign_iff.2 haccepted)
  obtain ⟨hstored, htaken, hleft⟩ := hread.whole
  exact ⟨hstatus, hread.rxlen, hneed, hphase, by rw [hread.rxlen, hstored], htaken, hleft⟩

/-- Settles O33: the frame has the length of the request with the right CRC, so it is read whole, and its CRC field does
not match. -/
theorem wrongCrcInvalid : Obligations.WrongCrcInvalid := by
  intro i s h l rest hw haccepted hne hqueue
  have hlen : (encodeBody i ++ [h, l]).length = (encode i).length := by
    rw [encode, appendCrc_length, List.length_append]
    rfl
  have haddr : byteAt (encodeBody i ++ [h, l]) 0 = i.slave := by cases i <;> rfl
  obtain ⟨-, hmax⟩ := encode_length hw []
  obtain ⟨htotal, -⟩ := frameShape i hw [h, l]
  obtain ⟨t, hreceive, hread, -, -⟩ :=
    receive_queued hqueue (by simpa using htotal) (by omega) (by rwa [haddr, not_foreign_iff])
  have hcrc : validate (encodeBody i ++ [h, l]) = none := by
    by_contra hvalid
    have hframe := appendCrc_of_validate hvalid
    rw [List.length_append, List.length_cons, List.length_singleton, Nat.add_sub_cancel, List.take_left] at hframe
    exact hne hframe
  obtain ⟨hstored, htaken, hleft⟩ := hread.whole
  have hinvalid : receive s = rxReturn rxInvalid t := by
    rw [hreceive, endData, hread.rxlen, hstored, hcrc]
  rw [hinvalid]
  exact ⟨rfl, hread.rxlen.trans hlen, htaken, hleft⟩

/-- At the start of a receive nothing is read yet (`41_receiver.md` R82). -/
theorem frameRead_startHeader {s : State} {frame rest : List Byte} (hqueue : s.queue = frame ++ rest) :
    FrameRead s (startHeader s) frame rest 0 :=
  ⟨rfl, rfl, ⟨[], by simp [hqueue]⟩, rfl, rfl, Nat.zero_le _, rfl⟩

/-- Bytes that stand in the queue are read with one poll each. -/
theorem readBytes_arrivals {bs rest : List Byte} {s t : State} (hqueue : s.queue = bs ++ rest)
    (hread : readBytes bs.length s = .all t) : t.arrivals = s.arrivals.drop bs.length := by
  induction bs generalizing s rest with
  | nil =>
    cases hread
    rfl
  | cons b bs ih =>
    have hpoll : (poll { s with tries := 0 }).queue = b :: (bs ++ (rest ++ s.arrivals.headD [])) := by
      simp [poll_eq, hqueue]
    rw [List.length_cons, readBytes, acquireByte, acquireLoop_byte hpoll] at hread
    simpa using ih rfl hread

/-- The two header bytes of a frame that stand in the queue are read, with one poll each. -/
theorem receive_header {s : State} {frame rest : List Byte} (hqueue : s.queue = frame ++ rest)
    (hlen : 2 ≤ frame.length) :
    ∃ t, receive s = endHeader t ∧ FrameRead s t frame rest 2 ∧ t.arrivals = s.arrivals.drop 2 := by
  obtain ⟨t, hread, ht, -⟩ := (frameRead_startHeader hqueue).readBytes (k := 2) (by omega)
  have hheader : (frame.take 2).length = 2 := List.length_take_of_le hlen
  have hsplit : (startHeader s).queue = frame.take 2 ++ (frame.drop 2 ++ rest) := by
    rw [← List.append_assoc, List.take_append_drop]
    exact hqueue
  have hpolls := readBytes_arrivals hsplit (hheader.symm ▸ hread)
  rw [hheader] at hpolls
  exact ⟨t, by rw [receive_eq, hread, afterRead], ht, hpolls⟩

/-- A frame for the block whose header stands in the queue: its metadata is asked for. -/
theorem receive_startMeta {s : State} {frame rest : List Byte} (hqueue : s.queue = frame ++ rest)
    (hlen : 2 ≤ frame.length) (hown : ¬ Foreign s.cfg (byteAt frame 0)) :
    ∃ t, receive s = afterRead endMeta (readBytes (metaLen (byteAt frame 1)) t) ∧ FrameRead s t frame rest 2 := by
  obtain ⟨t, hreceive, ht, -⟩ := receive_header hqueue hlen
  have haddr : ¬ Foreign t.cfg (byteAt t.rxbuf 0) := by
    rwa [ht.frameOnly.cfg, ht.byteAt_rxbuf (by omega)]
  refine ⟨startMeta t, ?_, ht.congr rfl⟩
  rw [hreceive, endHeader_eq, if_neg haddr, startMeta_need, ht.byteAt_rxbuf (by omega)]

/-- A frame for the block whose header and metadata stand in the queue: the oversize check is next. -/
theorem receive_endMeta {s : State} {frame rest : List Byte} (hqueue : s.queue = frame ++ rest)
    (hlen : 2 + metaLen (byteAt frame 1) ≤ frame.length) (hown : ¬ Foreign s.cfg (byteAt frame 0)) :
    ∃ t, receive s = endMeta t ∧ FrameRead s t frame rest (2 + metaLen (byteAt frame 1)) := by
  obtain ⟨t, hreceive, ht⟩ := receive_startMeta hqueue (by omega) hown
  obtain ⟨u, hread, hu, -⟩ := ht.readBytes hlen
  exact ⟨u, by rw [hreceive, hread, afterRead], hu⟩

/-- What the end of the META phase asks for, in terms of the frame. -/
theorem FrameRead.startData_need {s t : State} {frame rest : List Byte}
    (h : FrameRead s t frame rest (2 + metaLen (byteAt frame 1))) : (startData t).need = dataLen frame + 2 := by
  rw [Machine.startData_need, dataLen_congr fun k hk => h.byteAt_rxbuf hk]

/-- The metadata of formats RQM and RQW with a byte count that is too large is complete, and tells so. -/
theorem oversized_of_count {slave fc n : Byte} {front : List Byte}
    (h : (fc = 0x0F ∨ fc = 0x10) ∧ front.length = 4 ∧ 252 ≤ n.toNat
      ∨ fc = 0x17 ∧ front.length = 8 ∧ 248 ≤ n.toNat) :
    2 + metaLen (byteAt ([slave, fc] ++ front ++ [n]) 1) = ([slave, fc] ++ front ++ [n]).length
      ∧ 260 < totalLen ([slave, fc] ++ front ++ [n]) := by
  have hcode : byteAt ([slave, fc] ++ front ++ [n]) 1 = fc := rfl
  have hcount : byteAt ([slave, fc] ++ front ++ [n]) (front.length + 2) = n := by
    simp [byteAt, List.getD_eq_getElem?_getD]
  have hmeta : metaLen fc = front.length + 1 := by
    rcases h with ⟨rfl | rfl, hfront, -⟩ | ⟨rfl, hfront, -⟩ <;> rw [hfront] <;> rfl
  have hdata : dataLen ([slave, fc] ++ front ++ [n]) = n.toNat := by
    rw [dataLen, hcode]
    rcases h with ⟨rfl | rfl, hfront, -⟩ | ⟨rfl, hfront, -⟩ <;> rw [hfront] at hcount <;>
      exact congrArg BitVec.toNat hcount
  have hlen : ([slave, fc] ++ front ++ [n]).length = front.length + 3 := by simp
  rw [totalLen, hcode, hmeta, hdata, hlen]
  omega

/-- Settles O32: the projected length of such a frame exceeds `MAX_ADU`, which the metadata tells. -/
theorem oversizedFrameInvalid : Obligations.OversizedFrameInvalid := by
  intro s slave fc n front rest haccepted hformat hqueue
  obtain ⟨hmeta, htotal⟩ := oversized_of_count (slave := slave) hformat
  obtain ⟨t, hreceive, ht⟩ := receive_endMeta hqueue hmeta.le (not_foreign_iff.2 haccepted)
  have hover : t.rxlen + (startData t).need > Config.maxAdu := by
    rw [ht.startData_need, ht.rxlen, Config.maxAdu, ← Nat.add_assoc]
    exact htotal
  have hinvalid : receive s = rxReturn rxInvalid (startData t) := by rw [hreceive, endMeta, if_pos hover]
  rw [hmeta] at ht
  obtain ⟨-, htaken, hleft⟩ := ht.whole
  rw [hinvalid]
  exact ⟨rfl, ht.rxlen.trans (by simp), htaken, hleft⟩

/-- Settles O31: the two header bytes are read with one poll each, and the rest is the flush. -/
theorem foreignFrameFlushed : Obligations.ForeignFrameFlushed := by
  intro s a fc rest hforeign hqueue
  obtain ⟨t, hreceive, ht, hpolls⟩ := receive_header (frame := [a, fc]) hqueue le_rfl
  have haddr : Foreign t.cfg (byteAt t.rxbuf 0) := by
    rw [ht.frameOnly.cfg, ht.byteAt_rxbuf (by omega)]
    exact not_not.1 (mt not_foreign_iff.1 hforeign)
  have hflushed : receive s = rxReturn rxNotAddressed (flush 260 t) := by
    rw [hreceive, endHeader, if_pos haddr, Config.maxAdu]
  obtain ⟨discarded, hmax, htaken, hflush, hstop, hpolls'⟩ := flush_cases 260 t
  have hrxlen : (receive s).rxlen = 2 := by rw [hflushed, rxReturn_rxlen, hflush, ht.rxlen]
  have hdelays : (receive s).delayLog = s.delayLog := by rw [hflushed, rxReturn_delayLog, hflush, ht.delays]
  have htaken' : incoming s = a :: fc :: discarded ++ incoming (receive s) := by
    rw [ht.taken, htaken, hflushed]
    rfl
  have hstop' : discarded.length = 260 ∨ (receive s).queue = [] := by rwa [hflushed]
  have harrivals : (receive s).arrivals = s.arrivals.drop (2 + min 260 (discarded.length + 1)) := by
    rw [hflushed, rxReturn_arrivals, hpolls', hpolls, List.drop_drop]
  refine ⟨⟨discarded, htaken', hmax, hstop', harrivals⟩, fun hnone => ?_, by rw [hflushed]; rfl, hrxlen, hdelays⟩
  have hrest : rest = discarded ++ (receive s).queue := by
    simpa [incoming, hqueue, hnone, harrivals] using htaken'
  obtain hfull | hempty := hstop'
  · rw [hrest, ← hfull, List.drop_left]
  · rw [hempty, List.append_nil] at hrest
    rw [hempty, hrest, List.drop_eq_nil_of_le hmax]

/-! ### Whatever stands in the queue -/

/-- A frame of the inferred length, within `MAX_ADU` and with the right CRC, is the encoding of a request. -/
theorem encode_parse {frame : List Byte} (hlen : totalLen frame = frame.length) (hmax : frame.length ≤ 260)
    (hvalid : validate frame ≠ none) : (parse frame).wellFormed = true ∧ encode (parse frame) = frame := by
  obtain ⟨hwf, hbody⟩ := frameHolds_parse hlen hmax
  exact ⟨hwf, by rw [encode, hbody, appendCrc_of_validate hvalid]⟩

/-- Settles O29: of the ways a receive can end one only accepts, and there the stored bytes are a frame. -/
theorem receiveStatusMeaning : Obligations.ReceiveStatusMeaning := by
  intro s
  obtain ⟨bs, more, -, htaken, hlen, hstored, -, -, -, hend⟩ := receive_cases s
  cases hend with
  | headerGap status => exact .inl status
  | metaGap status => exact .inl status
  | dataGap status => exact .inl status
  | foreign status => exact .inr (.inl status)
  | oversize status => exact .inr (.inr (.inl status))
  | badCrc status => exact .inr (.inr (.inl status))
  | accepted status flushed _ stored _ total crc address =>
    obtain ⟨hwf, hencode⟩ := encode_parse stored.symm (stored.trans_le total) crc
    have hslave : (parse bs).slave = byteAt bs 0 := by rw [← byteAt_encode_zero, hencode]
    refine .inr (.inr (.inr ⟨parse bs, hwf, ?_, ?_, ?_, ?_, ?_⟩))
    · rwa [hslave, ← not_foreign_iff]
    · rw [hencode, status, rxAccepted]
    · rw [hencode, hlen]
    · rw [hencode, hstored]
    · rw [hencode, htaken, flushed, List.append_nil]

/-- Settles O34: of the ways a receive can end one only flushes, with its own status; every other stores at most
`MAX_ADU` bytes. -/
theorem receiverFrame : Obligations.ReceiverFrame := by
  intro s
  obtain ⟨bs, more, hframe, htaken, hlen, -, -, -, -, hend⟩ := receive_cases s
  obtain ⟨hmax, -⟩ := receiveEnd_counters hend hlen
  have hflush : more = [] ∨ more.length ≤ 260 ∧ bs.length = 2 ∧ (receive s).rxStatus = 0 := by
    cases hend with
    | foreign status flushed _ stored => exact .inr ⟨flushed, stored, status⟩
    | headerGap _ flushed => exact .inl flushed
    | metaGap _ flushed => exact .inl flushed
    | dataGap _ flushed => exact .inl flushed
    | oversize _ flushed => exact .inl flushed
    | badCrc _ flushed => exact .inl flushed
    | accepted _ flushed => exact .inl flushed
  refine ⟨bs ++ more, hframe, htaken, ?_⟩
  rw [List.length_append]
  obtain rfl | ⟨hmore, hbs, hstatus⟩ := hflush
  · rw [List.length_nil]
    exact ⟨by omega, fun _ => by omega⟩
  · exact ⟨by omega, fun h => absurd hstatus h⟩

/-! ### Silence after the beginning of a frame -/

/-- After some bytes have been read, the reading of more goes on from there. -/
theorem readBytes_add {n : Nat} {s t : State} (h : readBytes n s = .all t) (k : Nat) :
    readBytes (n + k) s = readBytes k t := by
  induction n generalizing s with
  | zero =>
    cases h
    rw [Nat.zero_add]
  | succ n ih =>
    rw [readBytes] at h
    rw [Nat.succ_add, readBytes]
    cases hacquired : acquireByte s with
    | byte b u =>
      rw [hacquired] at h
      exact ih h
    | gap u =>
      rw [hacquired] at h
      cases h

/-- In `u` the bytes `pre`, all that came since `s`, have been read, and one more was waited for until it was given
up. -/
def GapAfter (s u : State) (pre : List Byte) : Prop :=
  u.queue = [] ∧ u.rxlen = pre.length ∧ u.rxbuf.take pre.length = pre
    ∧ u.delayLog = s.delayLog ++ List.replicate s.cfg.rxRetries s.cfg.rxQuantumMs

/-- A read of more bytes than come ends in a gap after the last of them. -/
theorem FrameRead.gap {s t : State} {pre : List Byte} {n k : Nat} (h : FrameRead s t pre [] n)
    (hsilent : incoming s = pre) (hn : n ≤ pre.length) (hk : pre.length < n + k) :
    ∃ u, Machine.readBytes k t = .gap u ∧ GapAfter s u pre := by
  obtain ⟨u, hread, hu, -⟩ := h.readBytes (k := pre.length - n) (by omega)
  rw [Nat.add_sub_cancel' hn] at hu
  obtain ⟨hstored, htaken, -⟩ := hu.whole
  have hcame : pre ++ incoming u = pre := htaken.symm.trans hsilent
  obtain ⟨hqueue, hscript⟩ := List.append_eq_nil_iff.1 (List.append_right_eq_self.1 hcame)
  have hgap := acquireByte_gap hqueue fun batch hbatch =>
    List.flatten_eq_nil_iff.1 hscript batch (List.mem_of_mem_take hbatch)
  obtain ⟨m, rfl⟩ : ∃ m, k = pre.length - n + (m + 1) := ⟨k - (pre.length - n) - 1, by omega⟩
  have hread' := readBytes_add hread (m + 1)
  rw [Machine.readBytes, hgap] at hread'
  exact ⟨_, hread', rfl, hu.rxlen, hstored, by rw [hu.delays, hu.frameOnly.cfg]⟩

/-- The length inference reads the metadata only, not the bytes after it. -/
theorem totalLen_append {pre : List Byte} (h : 2 + metaLen (byteAt pre 1) ≤ pre.length) (tail : List Byte) :
    totalLen (pre ++ tail) = totalLen pre := by
  have hsame : ∀ k, k < pre.length → byteAt (pre ++ tail) k = byteAt pre k :=
    fun k hk => byteAt_of_take List.take_left hk
  rw [totalLen, totalLen, hsame 1 (by omega), dataLen_congr fun k hk => hsame k (by omega)]

/-- When all that comes is shorter than a header, or than the frame for the block that it begins, the receive ends in
`RX_TIMEOUT` (`41_receiver.md` R87). -/
theorem receive_silence {s : State} {pre : List Byte} (hqueue : s.queue = pre) (hnone : s.arrivals = [])
    (hshort : pre.length < 2 ∨ ¬ Foreign s.cfg (byteAt pre 0)
      ∧ (2 + metaLen (byteAt pre 1) ≤ pre.length → pre.length < totalLen pre ∧ totalLen pre ≤ 260)) :
    ∃ u, receive s = rxReturn rxTimeout u ∧ GapAfter s u pre := by
  have hsilent : incoming s = pre := by simp [incoming, hqueue, hnone]
  have hqueue' : s.queue = pre ++ [] := by rw [List.append_nil, hqueue]
  by_cases hheader : pre.length < 2
  · obtain ⟨u, hread, hu⟩ := (frameRead_startHeader hqueue').gap hsilent (Nat.zero_le _) (k := 2) (by omega)
    exact ⟨u, by rw [receive_eq, hread, afterRead], hu⟩
  obtain ⟨hown, hdata⟩ := hshort.resolve_left hheader
  by_cases hmeta : pre.length < 2 + metaLen (byteAt pre 1)
  · obtain ⟨t, hreceive, ht⟩ := receive_startMeta hqueue' (by omega) hown
    obtain ⟨u, hread, hu⟩ := ht.gap hsilent (by omega) hmeta
    exact ⟨u, by rw [hreceive, hread, afterRead], hu⟩
  · obtain ⟨hlen, hmax⟩ := hdata (by omega)
    have htotal : totalLen pre = 2 + metaLen (byteAt pre 1) + (dataLen pre + 2) := rfl
    obtain ⟨t, hreceive, ht⟩ := receive_endMeta hqueue' (by omega) hown
    have hfits : ¬ t.rxlen + (startData t).need > Config.maxAdu := by
      rw [ht.startData_need, ht.rxlen, Config.maxAdu]
      omega
    have hstart : FrameRead s (startData t) pre [] (2 + metaLen (byteAt pre 1)) := ht.congr rfl
    obtain ⟨u, hread, hu⟩ := hstart.gap hsilent (by omega) (k := dataLen pre + 2) (by omega)
    exact ⟨u, by rw [hreceive, endMeta_eq, if_neg hfits, ht.startData_need, hread, afterRead], hu⟩

/-- Settles O30: a proper beginning of a frame, once it holds the metadata, tells the length of the whole frame, which
is more than what came. -/
theorem silenceAfterPartialFrameTimesOut : Obligations.SilenceAfterPartialFrameTimesOut := by
  intro s pre hqueue hnone hpre
  have hshort : pre.length < 2 ∨ ¬ Foreign s.cfg (byteAt pre 0)
      ∧ (2 + metaLen (byteAt pre 1) ≤ pre.length → pre.length < totalLen pre ∧ totalLen pre ≤ 260) := by
    obtain ⟨i, tail, hw, haccepted, htail, hencode⟩ | hlone := hpre
    · rw [or_iff_not_imp_left]
      intro hheader
      have hslave : byteAt pre 0 = i.slave := by
        rw [← byteAt_encode_zero, hencode]
        exact (byteAt_of_take List.take_left (by omega)).symm
      refine ⟨by rwa [hslave, not_foreign_iff], fun hmeta => ?_⟩
      have htotal : totalLen pre = (encode i).length := by
        rw [← totalLen_append hmeta tail, ← hencode]
        simpa using totalLen_encode hw []
      have hlen : (encode i).length = pre.length + tail.length := by rw [hencode, List.length_append]
      have hpos : 0 < tail.length := List.length_pos_iff.2 htail
      obtain ⟨-, hmax⟩ := encode_length hw []
      omega
    · exact .inl (by omega)
  obtain ⟨u, hreceive, hu⟩ := receive_silence hqueue hnone hshort
  rw [hreceive]
  exact ⟨rfl, hu⟩

end Sys2Proof.Proofs

/-! PROOFS. The statements of `42_reply_engine.md`: the requests that are dropped, the frame of a request, its response
and the map it leaves, and the broadcast. -/

namespace Sys2Proof.Proofs

open Sys2Proof.Machine Sys2Proof.Safety

/-! ### The requests that are dropped -/

/-- A request for another address changes nothing (`42_reply_engine.md` R101). -/
theorem exec_foreign {i : Instr} {s : State} (h : ¬ Accepted s.cfg i.slave) : exec i s = .next s := by
  rw [exec_eq]
  exact if_pos (not_not.1 (mt not_foreign_iff.1 h))

/-- Settles O18: of the receive statuses only the length of a frame is positive, and that frame is for the block. -/
theorem foreignRequestDropped : Obligations.ForeignRequestDropped := by
  refine ⟨fun i s => exec_foreign, fun s hpositive => ?_⟩
  obtain hstatus | hstatus | hstatus | ⟨i, hw, haccepted, -, hlen, hstored, -⟩ := receiveStatusMeaning s
  · exact absurd (hstatus ▸ hpositive) (by decide)
  · exact absurd (hstatus ▸ hpositive) (by decide)
  · exact absurd (hstatus ▸ hpositive) (by decide)
  · obtain ⟨hmin, -⟩ := encode_length hw []
    rwa [byteAt_of_take hstored (by omega), byteAt_encode_zero]

/-! ### The frame of a request -/

/-- A response changes its buffer and the transmitted bytes, and nothing else but the map it is given. -/
theorem respond_onlyReplies (slave : Byte) (body : List Byte) (s : State) (m : RegMap) :
    OnlyReplies s (respond slave body { s with map := m }) := by
  obtain ⟨rsp, heq, -⟩ := respond_eq slave body { s with map := m }
  rw [heq]
  rfl

/-- A response adds the writes of `responseWrites` to the transmitted bytes. -/
theorem respond_txLog (slave : Byte) (body : List Byte) (s : State) :
    (respond slave body s).txLog = s.txLog ++ responseWrites s.cfg slave body := by
  obtain ⟨rsp, heq, -⟩ := respond_eq slave body s
  rw [heq]

/-- Settles O19: all a request does is a response on some map, in at most one write. -/
theorem requestFrame : Obligations.RequestFrame := by
  intro i s t h
  obtain rfl | ⟨m, body, rfl, -⟩ := exec_cases h
  · exact ⟨rfl, .inl rfl⟩
  · refine ⟨respond_onlyReplies i.slave body s m, ?_⟩
    rw [respond_txLog, responseWrites]
    split
    · exact .inl (List.append_nil _)
    · exact .inr ⟨appendCrc body, rfl⟩

/-! ### The response to a request -/

/-- What `respond` builds and sends (`42_reply_engine.md` R107, R108). -/
theorem respond_answers (slave : Byte) (body : List Byte) (s : State) :
    Answers s (respond slave body s) slave body := by
  obtain ⟨hlen, hbytes⟩ := respond_response slave body s
  rw [Answers, hbytes, hlen, respond_txLog, responseBytes, responseWrites, Config.broadcastAddr]
  split
  case isTrue => exact ⟨List.append_nil _, rfl, rfl⟩
  case isFalse => exact ⟨rfl, appendCrc_length body, rfl⟩

/-- A response that is sent is its body with the CRC appended, and stands in the response buffer. -/
theorem eq_appendCrc_of_answers {s t : State} {slave : Byte} {body adu : List Byte} (h : Answers s t slave body)
    (hlog : t.txLog = s.txLog ++ [adu]) :
    adu = appendCrc body ∧ t.rsplen = adu.length ∧ t.rsp.take t.rsplen = adu := by
  unfold Answers at h
  split at h
  case isTrue =>
    obtain ⟨hnone, -⟩ := h
    simp [hnone] at hlog
  case isFalse =>
    obtain ⟨hsent, hlen, hbytes⟩ := h
    obtain rfl : adu = appendCrc body := by simpa [hsent] using hlog.symm
    exact ⟨rfl, by rw [hlen, appendCrc_length], hbytes⟩

/-- An accepted request is answered with the body its handler answers, or with an exception on the old map
(`42_reply_engine.md` R106, R111, R112). -/
theorem exec_answers {i : Instr} {s t : State} (haccepted : Accepted s.cfg i.slave) (h : exec i s = .next t) :
    ∃ body, Answers s t i.slave body
      ∧ ((∃ m, handlerOf s i = .ok (m, body)) ∨ t.map = s.map ∧ ∃ e, body = exceptionBody i.slave i.code e) := by
  rw [exec_eq] at h
  obtain ⟨hforeign, -⟩ | ⟨-, m, body, hok, rfl⟩ | ⟨-, e, -, rfl⟩ := engine_cases h
  · exact absurd hforeign (not_foreign_iff.2 haccepted)
  · exact ⟨body, respond_answers i.slave body { s with map := m }, .inl ⟨m, hok⟩⟩
  · exact ⟨_, respond_answers i.slave _ s, .inr ⟨respond_map _ _ _, e, rfl⟩⟩

/-- The exception codes of `30_encoding.md` R66. -/
theorem exceptionCode_mem (e : ProtocolException) : exceptionCode e ∈ ([0x01, 0x02, 0x03] : List Byte) := by
  cases e <;> decide

/-- Settles O21: the handler's body begins with the request's own function code, and the exception leaves the map. -/
theorem exceptionLeavesMapUnchanged : Obligations.ExceptionLeavesMapUnchanged := by
  intro i s t haccepted h
  obtain ⟨body, hanswers, ⟨m, hok⟩ | ⟨hmap, e, rfl⟩⟩ := exec_answers haccepted h
  · obtain ⟨⟨tail, rfl, -⟩, -⟩ := handlerOf_ok hok
    exact .inl ⟨tail, hanswers⟩
  · exact .inr ⟨hmap, exceptionCode e, exceptionCode_mem e, hanswers⟩

/-- The body of a response, normal or exception, has 3 to 253 bytes, of which the first is the request's address byte
(`42_reply_engine.md` R109). -/
theorem exec_answers_shape {i : Instr} {s t : State} (haccepted : Accepted s.cfg i.slave) (h : exec i s = .next t) :
    ∃ rest, Answers s t i.slave (i.slave :: rest) ∧ 2 ≤ rest.length ∧ rest.length ≤ 252 := by
  obtain ⟨body, hanswers, ⟨m, hok⟩ | ⟨-, e, rfl⟩⟩ := exec_answers haccepted h
  · obtain ⟨⟨tail, rfl, hmin, hmax⟩, -⟩ := handlerOf_ok hok
    exact ⟨_, hanswers, Nat.succ_le_succ hmin, Nat.succ_le_succ hmax⟩
  · exact ⟨_, hanswers, by simp, by simp⟩

/-- Settles O22: only an accepted request sends anything, and what it sends is its body with the CRC appended. -/
theorem responseShape : Obligations.ResponseShape := by
  intro i s t adu h hlog
  have haccepted : Accepted s.cfg i.slave := by
    by_contra hforeign
    rw [exec_foreign hforeign, Host.Outcome.next.injEq] at h
    simp [← h] at hlog
  obtain ⟨rest, hanswers, hmin, hmax⟩ := exec_answers_shape haccepted h
  obtain ⟨rfl, hlen, hbytes⟩ := eq_appendCrc_of_answers hanswers hlog
  have hadu : (appendCrc (i.slave :: rest)).length = rest.length + 3 := appendCrc_length _
  exact ⟨by omega, by omega, rfl, ⟨_, rfl⟩, hlen, hbytes⟩

/-! ### The map after a request, and the broadcast -/

/-- The map that a request leaves when it is accepted: the one its handler answers, or the old one. -/
def mapAfter (s : State) (i : Instr) : RegMap :=
  match handlerOf s i with
  | .ok (m, _) => m
  | .error _ => s.map

theorem exec_mapAfter {i : Instr} {s t : State} (haccepted : Accepted s.cfg i.slave) (h : exec i s = .next t) :
    t.map = mapAfter s i := by
  rw [exec_eq] at h
  obtain ⟨hforeign, -⟩ | ⟨-, m, body, hok, rfl⟩ | ⟨-, e, herror, rfl⟩ := engine_cases h
  · exact absurd hforeign (not_foreign_iff.2 haccepted)
  · rw [respond_map, mapAfter, hok]
  · rw [takeException, respond_map, mapAfter, herror]

/-- No handler reads `BROADCAST_REPLY`. -/
theorem mapAfter_broadcastReply (s : State) (reply : Bool) (i : Instr) :
    mapAfter { s with cfg := { s.cfg with broadcastReply := reply } } i = mapAfter s i := by
  cases i <;> rfl

/-- What a handler answers, with another first byte in the response. -/
def withAddress (slave : Byte) (answer : RegMap × List Byte) : RegMap × List Byte :=
  (answer.1, slave :: answer.2.tail)

section
variable (slave slave' fc bytecount : Byte) (addr qty val : Word) (data : List Byte) (s : State)

theorem readBitsHandler_readdress (sp : BitSpace) :
    readBitsHandler sp slave' fc addr qty s = (readBitsHandler sp slave fc addr qty s).map (withAddress slave') := by
  unfold readBitsHandler
  cases translate s.cfg (.bits sp) addr qty.toNat <;> split_ifs <;> rfl

theorem readRegsHandler_readdress (sp : RegSpace) :
    readRegsHandler sp slave' fc addr qty s = (readRegsHandler sp slave fc addr qty s).map (withAddress slave') := by
  unfold readRegsHandler
  cases translate s.cfg (.regs sp) addr qty.toNat <;> split_ifs <;> rfl

theorem writeSingleCoil_readdress :
    writeSingleCoil slave' addr val s = (writeSingleCoil slave addr val s).map (withAddress slave') := by
  unfold writeSingleCoil
  cases translate s.cfg (.bits .coils) addr 1 <;> split_ifs <;> rfl

theorem writeSingleRegister_readdress :
    writeSingleRegister slave' addr val s = (writeSingleRegister slave addr val s).map (withAddress slave') := by
  unfold writeSingleRegister
  cases translate s.cfg (.regs .hold) addr 1 with
  | error => rfl
  | ok => split_ifs <;> rfl

theorem writeMultipleCoils_readdress :
    writeMultipleCoils slave' addr qty bytecount data s =
      (writeMultipleCoils slave addr qty bytecount data s).map (withAddress slave') := by
  unfold writeMultipleCoils
  cases translate s.cfg (.bits .coils) addr qty.toNat <;> split_ifs <;> rfl

theorem writeMultipleRegisters_readdress :
    writeMultipleRegisters slave' addr qty bytecount data s =
      (writeMultipleRegisters slave addr qty bytecount data s).map (withAddress slave') := by
  unfold writeMultipleRegisters
  cases translate s.cfg (.regs .hold) addr qty.toNat <;> split_ifs <;> rfl

end

/-- A handler uses the address byte for the first byte of its response, and for nothing else. -/
theorem handlerOf_readdress (slave : Byte) (s : State) (i : Instr) :
    handlerOf s (readdress slave i) = (handlerOf s i).map (withAddress slave) := by
  cases i with
  | rdcoils => exact readBitsHandler_readdress ..
  | rddisc => exact readBitsHandler_readdress ..
  | rdhold => exact readRegsHandler_readdress ..
  | rdinreg => exact readRegsHandler_readdress ..
  | wrcoil => exact writeSingleCoil_readdress ..
  | wrreg => exact writeSingleRegister_readdress ..
  | wrmcoils => exact writeMultipleCoils_readdress ..
  | wrmregs => exact writeMultipleRegisters_readdress ..
  | maskwr => rfl
  | wrrdregs => rfl
  | other => rfl

theorem mapAfter_readdress (slave : Byte) (s : State) (i : Instr) :
    mapAfter s (readdress slave i) = mapAfter s i := by
  rw [mapAfter, mapAfter, handlerOf_readdress]
  cases handlerOf s i <;> rfl

theorem readdress_slave (slave : Byte) (i : Instr) : (readdress slave i).slave = slave := by
  cases i <;> rfl

/-- Settles O23: the handler sees neither the address byte nor `BROADCAST_REPLY`, and the response is sent or not as
that register says. -/
theorem broadcastExecutedReplySwitched : Obligations.BroadcastExecutedReplySwitched := by
  intro i s hbroadcast
  have haccepted (c : Cfg) : Accepted c i.slave := .inr hbroadcast
  obtain ⟨silent, hsilent⟩ := exec_next i { s with cfg := { s.cfg with broadcastReply := false } }
  obtain ⟨answered, hanswered⟩ := exec_next i { s with cfg := { s.cfg with broadcastReply := true } }
  obtain ⟨unicast, hunicast⟩ := exec_next (readdress s.cfg.slaveId i) s
  have hmap : unicast.map = mapAfter s i :=
    (exec_mapAfter (.inl (readdress_slave _ i)) hunicast).trans (mapAfter_readdress _ s i)
  have hmapSilent : silent.map = mapAfter s i :=
    (exec_mapAfter (haccepted _) hsilent).trans (mapAfter_broadcastReply s false i)
  have hmapAnswered : answered.map = mapAfter s i :=
    (exec_mapAfter (haccepted _) hanswered).trans (mapAfter_broadcastReply s true i)
  obtain ⟨_, hnone, -⟩ := exec_answers_shape (haccepted _) hsilent
  obtain ⟨rest, hsent, -⟩ := exec_answers_shape (haccepted _) hanswered
  rw [Answers, if_pos ⟨hbroadcast, rfl⟩] at hnone
  rw [Answers, if_neg fun hoff => Bool.noConfusion hoff.2] at hsent
  obtain ⟨hlogSilent, -⟩ := hnone
  obtain ⟨hlogAnswered, -⟩ := hsent
  exact ⟨silent, answered, unicast, hsilent, hanswered, hunicast, hmapSilent.trans hmap.symm,
    hmapAnswered.trans hmap.symm, hlogSilent, _, hlogAnswered, hbroadcast⟩

end Sys2Proof.Proofs

/-! PROOFS. The statements of `43_read_functions.md`: what the bit reads and the register reads answer, for every
operand. -/

namespace Sys2Proof.Proofs

open Sys2Proof.Machine Sys2Proof.Safety

/-! ### What an accepted request is answered -/

/-- An accepted request whose handler succeeds leaves the handler's map and is answered with its body. -/
theorem engine_ok_answers {slave : Byte} {s : State} (haccepted : Accepted s.cfg slave) (fc : Byte) (m : RegMap)
    (body : List Byte) : ∃ t, engine slave fc (.ok (m, body)) s = .next t ∧ OnlyReplies s t ∧ t.map = m
      ∧ Answers s t slave body :=
  ⟨_, engine_ok (not_foreign_iff.2 haccepted), respond_onlyReplies slave body s m, respond_map ..,
    respond_answers slave body { s with map := m }⟩

/-- An accepted request whose handler raises an exception leaves the map and is answered with format RSX
(`42_reply_engine.md` R106). -/
theorem engine_error_answers {slave : Byte} {s : State} (haccepted : Accepted s.cfg slave) (fc : Byte)
    (e : ProtocolException) : ∃ t, engine slave fc (.error e) s = .next t ∧ OnlyReplies s t ∧ t.map = s.map
      ∧ Answers s t slave [slave, fc ||| 0x80, exceptionCode e] :=
  ⟨_, engine_error (not_foreign_iff.2 haccepted), respond_onlyReplies slave _ s s.map, respond_map ..,
    respond_answers ..⟩

/-- A read answers its two checks in the order of `43_read_functions.md` R115 and R117, the quantity first; `Read` is
what holds when both are passed. -/
theorem engine_read_answers {slave fc : Byte} {s : State} {body : List Byte} {badQty inside : Prop} [Decidable badQty]
    [Decidable inside] {Read : State → Prop} (haccepted : Accepted s.cfg slave)
    (hread : ∀ t, Answers s t slave body → Read t) :
    ∃ t, engine slave fc (if badQty then .error .illegalDataValue
        else if ¬ inside then .error .illegalDataAddress else .ok (s.map, body)) s = .next t
      ∧ OnlyReplies s t ∧ t.map = s.map
      ∧ if badQty then Answers s t slave [slave, fc ||| 0x80, 0x03]
        else if ¬ inside then Answers s t slave [slave, fc ||| 0x80, 0x02] else Read t := by
  by_cases hqty : badQty
  · simp only [if_pos hqty]
    exact engine_error_answers haccepted fc .illegalDataValue
  by_cases hin : inside
  · simp only [if_neg hqty, if_neg (not_not.2 hin)]
    obtain ⟨t, hnext, honly, hmap, hanswers⟩ := engine_ok_answers haccepted fc s.map body
    exact ⟨t, hnext, honly, hmap, hread t hanswers⟩
  · simp only [if_neg hqty, if_pos hin]
    exact engine_error_answers haccepted fc .illegalDataAddress

/-! ### Runs of elements and their payloads -/

@[simp] theorem readBits_length (m : RegMap) (sp : BitSpace) (i n : Nat) : (readBits m sp i n).length = n := by
  simp [readBits]

@[simp] theorem readRegs_length (m : RegMap) (sp : RegSpace) (i n : Nat) : (readRegs m sp i n).length = n := by
  simp [readRegs]

theorem readBits_getD (m : RegMap) (sp : BitSpace) (i n k : Nat) :
    (readBits m sp i n).getD k false = (decide (k < n) && readBit m sp (i + k)) := by
  by_cases hk : k < n <;> simp [readBits, List.getD_eq_getElem?_getD, hk]

theorem readRegs_getD (m : RegMap) (sp : RegSpace) (i : Nat) {n k : Nat} (hk : k < n) :
    (readRegs m sp i n).getD k 0#16 = readReg m sp (i + k) := by
  simp [readRegs, List.getD_eq_getElem?_getD, hk]

/-- The payload of format RSB holds the run of bits (`43_read_functions.md` R113). -/
theorem packedBits_readBits (m : RegMap) (sp : BitSpace) (i n : Nat) :
    PackedBits (packBits (readBits m sp i n)) n fun k => readBit m sp (i + k) :=
  ⟨by simp, fun k hk => (packBits_bit _ k hk).trans (readBits_getD m sp i n k)⟩

/-- The payload of format RSR holds the run of registers (`43_read_functions.md` R114). -/
theorem packedRegs_readRegs (m : RegMap) (sp : RegSpace) (i n : Nat) :
    PackedRegs (regBytes (readRegs m sp i n)) n fun k => readReg m sp (i + k) := by
  refine ⟨by simp, fun k hk => ?_⟩
  simpa only [readRegs_getD m sp i hk] using regBytes_pair (readRegs m sp i n) k (by simpa using hk)

/-! ### The bit reads -/

section
variable (sp : BitSpace) (slave fc : Byte) (addr qty : Word) (s : State)

theorem encode_readBitsInstr : encode (readBitsInstr sp slave addr qty) =
    appendCrc [slave, readBitsCode sp, hi addr, lo addr, hi qty, lo qty] := by
  cases sp <;> rfl

theorem exec_readBitsInstr : exec (readBitsInstr sp slave addr qty) s =
    engine slave (readBitsCode sp) (readBitsHandler sp slave (readBitsCode sp) addr qty s) s := by
  cases sp <;> rfl

/-- The checks of `ReadBits` in the order of `43_read_functions.md` R115, in natural numbers. -/
theorem readBitsHandler_eq : readBitsHandler sp slave fc addr qty s =
    if qty.toNat < 1 ∨ 2000 < qty.toNat then .error .illegalDataValue
    else if ¬ InExtent s.cfg (.bits sp) addr qty.toNat then .error .illegalDataAddress
    else .ok (s.map,
      [slave, fc, BitVec.ofNat 8 (packBits (readBits s.map sp (index s.cfg (.bits sp) addr) qty.toNat)).length]
        ++ packBits (readBits s.map sp (index s.cfg (.bits sp) addr) qty.toNat)) := by
  rw [readBitsHandler, translate_eq, ite_not]
  by_cases hin : InExtent s.cfg (.bits sp) addr qty.toNat
  · rw [if_pos hin, if_pos hin]
    rfl
  · rw [if_neg hin, if_neg hin]
    rfl

end

/-- Settles O11: the read answers its two checks in order, and the payload holds the run of bits. -/
theorem readBitsAnswer : Obligations.ReadBitsAnswer := by
  intro sp slave addr qty s haccepted
  refine ⟨encode_readBitsInstr sp slave addr qty, ?_⟩
  rw [exec_readBitsInstr, readBitsHandler_eq]
  exact engine_read_answers haccepted fun _ hanswers => ⟨_, packedBits_readBits s.map sp _ _, hanswers⟩

/-! ### The register reads -/

section
variable (sp : RegSpace) (slave fc : Byte) (addr qty : Word) (s : State)

theorem encode_readRegsInstr : encode (readRegsInstr sp slave addr qty) =
    appendCrc [slave, readRegsCode sp, hi addr, lo addr, hi qty, lo qty] := by
  cases sp <;> rfl

theorem exec_readRegsInstr : exec (readRegsInstr sp slave addr qty) s =
    engine slave (readRegsCode sp) (readRegsHandler sp slave (readRegsCode sp) addr qty s) s := by
  cases sp <;> rfl

/-- The checks of `ReadRegs` in the order of `43_read_functions.md` R117, in natural numbers. -/
theorem readRegsHandler_eq : readRegsHandler sp slave fc addr qty s =
    if qty.toNat < 1 ∨ 125 < qty.toNat then .error .illegalDataValue
    else if ¬ InExtent s.cfg (.regs sp) addr qty.toNat then .error .illegalDataAddress
    else .ok (s.map, [slave, fc, BitVec.ofNat 8 (2 * qty.toNat)]
      ++ regBytes (readRegs s.map sp (index s.cfg (.regs sp) addr) qty.toNat)) := by
  rw [readRegsHandler, translate_eq, ite_not]
  by_cases hin : InExtent s.cfg (.regs sp) addr qty.toNat
  · rw [if_pos hin, if_pos hin]
    rfl
  · rw [if_neg hin, if_neg hin]
    rfl

end

/-- Settles O12: the read answers its two checks in order, and the payload holds the run of registers. -/
theorem readRegsAnswer : Obligations.ReadRegsAnswer := by
  intro sp slave addr qty s haccepted
  refine ⟨encode_readRegsInstr sp slave addr qty, ?_⟩
  rw [exec_readRegsInstr, readRegsHandler_eq]
  exact engine_read_answers haccepted fun _ hanswers => ⟨_, packedRegs_readRegs s.map sp _ _, hanswers⟩

end Sys2Proof.Proofs

/-! PROOFS. The statements of `44_write_functions.md`: what the four writes leave in the Register Map and answer, for
every operand, and that the reads answer what the multiple writes wrote. -/

namespace Sys2Proof.Proofs

open Sys2Proof.Machine Sys2Proof.Safety

/-! ### The checks and the write at their end -/

section
variable {slave fc : Byte} {s : State}

/-- One check in front of a handler: the exception when it fails, what is said of the rest of the handler when it is
passed (`42_reply_engine.md` R103, R111). -/
theorem engine_check_answers {bad : Prop} {_ : Decidable bad} {handled : Handled} {Rest : State → Prop}
    (haccepted : Accepted s.cfg slave) (e : ProtocolException)
    (hrest : ∃ t, engine slave fc handled s = .next t ∧ OnlyReplies s t ∧ Rest t) :
    ∃ t, engine slave fc (if bad then .error e else handled) s = .next t ∧ OnlyReplies s t
      ∧ if bad then t.map = s.map ∧ Answers s t slave [slave, fc ||| 0x80, exceptionCode e] else Rest t := by
  by_cases hbad : bad
  · simp only [if_pos hbad]
    exact engine_error_answers haccepted fc e
  · simp only [if_neg hbad]
    exact hrest

/-- A write that has passed its checks leaves its map and is answered with the echo; `Written` is what then holds. -/
theorem engine_write_answers {m : RegMap} {body : List Byte} {Written : State → Prop} (haccepted : Accepted s.cfg slave)
    (hwritten : ∀ t, t.map = m → Answers s t slave body → Written t) :
    ∃ t, engine slave fc (.ok (m, body)) s = .next t ∧ OnlyReplies s t ∧ Written t := by
  obtain ⟨t, hnext, honly, hmap, hanswers⟩ := engine_ok_answers haccepted fc m body
  exact ⟨t, hnext, honly, hwritten t hmap hanswers⟩

end

section
variable {c : Cfg} {sp : Space} {addr : Word} {n : Nat}

theorem translate_of_inExtent (hin : InExtent c sp addr n) : translate c sp addr n = .ok (index c sp addr) := by
  rw [translate_eq, if_pos hin, index]

theorem translate_of_not_inExtent (hout : ¬ InExtent c sp addr n) :
    translate c sp addr n = .error .illegalDataAddress := by
  rw [translate_eq, if_neg hout]

end

section
variable (slave bytecount : Byte) (addr qty val : Word) (data : List Byte) (s : State)

theorem exec_wrcoil : exec (.wrcoil slave addr val) s = engine slave 0x05 (writeSingleCoil slave addr val s) s := rfl

/-- The checks of WRCOIL in the order of `44_write_functions.md` R120, in natural numbers. -/
theorem writeSingleCoil_eq : writeSingleCoil slave addr val s =
    if val ≠ 0x0000 ∧ val ≠ 0xFF00 then .error .illegalDataValue
    else if ¬ InExtent s.cfg (.bits .coils) addr 1 then .error .illegalDataAddress
    else if s.rxStatus ≠ 8 then .error .illegalDataValue
    else .ok (writeBit s.map .coils (index s.cfg (.bits .coils) addr) (decide (val = 0xFF00)),
      echoBody slave fcWriteSingleCoil addr val) := by
  unfold writeSingleCoil
  by_cases hin : InExtent s.cfg (.bits .coils) addr 1
  · rw [translate_of_inExtent hin, if_neg (not_not.2 hin)]
    rfl
  · rw [translate_of_not_inExtent hin, if_pos hin]
    rfl

theorem exec_wrreg : exec (.wrreg slave addr val) s = engine slave 0x06 (writeSingleRegister slave addr val s) s := rfl

/-- The checks of WRREG in the order of `44_write_functions.md` R121, in natural numbers. -/
theorem writeSingleRegister_eq : writeSingleRegister slave addr val s =
    if ¬ InExtent s.cfg (.regs .hold) addr 1 then .error .illegalDataAddress
    else if s.rxStatus ≠ 8 then .error .illegalDataValue
    else .ok (writeReg s.map .hold (index s.cfg (.regs .hold) addr) val,
      echoBody slave fcWriteSingleRegister addr val) := by
  unfold writeSingleRegister
  by_cases hin : InExtent s.cfg (.regs .hold) addr 1
  · rw [translate_of_inExtent hin, if_neg (not_not.2 hin)]
    rfl
  · rw [translate_of_not_inExtent hin, if_pos hin]

theorem exec_wrmcoils : exec (.wrmcoils slave addr qty bytecount data) s =
    engine slave 0x0F (writeMultipleCoils slave addr qty bytecount data s) s := rfl

/-- The checks of WRMCOILS in the order of `44_write_functions.md` R122, in natural numbers. -/
theorem writeMultipleCoils_eq : writeMultipleCoils slave addr qty bytecount data s =
    if qty.toNat < 1 ∨ 1968 < qty.toNat ∨ bytecount.toNat * 8 < qty.toNat then .error .illegalDataValue
    else if ¬ InExtent s.cfg (.bits .coils) addr qty.toNat then .error .illegalDataAddress
    else .ok (writeBits s.map .coils (index s.cfg (.bits .coils) addr) (unpackBits data qty.toNat),
      echoBody slave fcWriteMultipleCoils addr qty) := by
  unfold writeMultipleCoils
  simp only [ite_or]
  by_cases hin : InExtent s.cfg (.bits .coils) addr qty.toNat
  · rw [translate_of_inExtent hin, if_neg (not_not.2 hin)]
    rfl
  · rw [translate_of_not_inExtent hin, if_pos hin]
    rfl

theorem exec_wrmregs : exec (.wrmregs slave addr qty bytecount data) s =
    engine slave 0x10 (writeMultipleRegisters slave addr qty bytecount data s) s := rfl

/-- The checks of WRMREGS in the order of `44_write_functions.md` R123, in natural numbers. -/
theorem writeMultipleRegisters_eq : writeMultipleRegisters slave addr qty bytecount data s =
    if qty.toNat < 1 ∨ 123 < qty.toNat ∨ bytecount.toNat ≠ 2 * qty.toNat then .error .illegalDataValue
    else if ¬ InExtent s.cfg (.regs .hold) addr qty.toNat then .error .illegalDataAddress
    else .ok (writeRegs s.map .hold (index s.cfg (.regs .hold) addr) (unpackRegs data qty.toNat),
      echoBody slave fcWriteMultipleRegisters addr qty) := by
  unfold writeMultipleRegisters
  simp only [ite_or]
  by_cases hin : InExtent s.cfg (.regs .hold) addr qty.toNat
  · rw [translate_of_inExtent hin, if_neg (not_not.2 hin)]
    rfl
  · rw [translate_of_not_inExtent hin, if_pos hin]
    rfl

end

/-! ### The single writes -/

/-- Settles O13: the three checks in order, then one coil is written and the request echoed. -/
theorem writeSingleCoilEffect : Obligations.WriteSingleCoilEffect := by
  intro slave addr val s haccepted
  refine ⟨rfl, ?_⟩
  rw [exec_wrcoil, writeSingleCoil_eq]
  refine engine_check_answers haccepted .illegalDataValue <| engine_check_answers haccepted .illegalDataAddress <|
    engine_check_answers haccepted .illegalDataValue <| engine_write_answers haccepted fun t hmap hanswers => ?_
  rw [hmap]
  exact ⟨by rw [readBit_writeBit, if_pos ⟨rfl, rfl⟩], writeBit_onlyBits s.map .coils _ _, hanswers⟩

/-- Settles O14: the two checks in order, then one register is written whole and the request echoed. -/
theorem writeSingleRegisterEffect : Obligations.WriteSingleRegisterEffect := by
  intro slave addr val s haccepted
  refine ⟨rfl, ?_⟩
  rw [exec_wrreg, writeSingleRegister_eq]
  refine engine_check_answers haccepted .illegalDataAddress <| engine_check_answers haccepted .illegalDataValue <|
    engine_write_answers haccepted fun t hmap hanswers => ?_
  rw [hmap]
  exact ⟨by rw [readReg_writeReg, if_pos ⟨rfl, rfl⟩], writeReg_onlyRegs s.map .hold _ _, hanswers⟩

/-! ### The multiple writes -/

/-- A run of bits that is written from a packed payload reads as its bits (`44_write_functions.md` R119). -/
theorem readBit_writeBits_unpackBits (m : RegMap) (sp : BitSpace) (i : Nat) (data : List Byte) {n k : Nat}
    (hk : k < n) : readBit (writeBits m sp i (unpackBits data n)) sp (i + k) =
      (byteAt data (k / 8)).getLsbD (k % 8) := by
  rw [readBit_writeBits, if_pos ⟨rfl, by omega, by simpa using hk⟩, Nat.add_sub_cancel_left, unpackBits_getD _ _ _ hk,
    unpackBit]

/-- A run of registers that is written from a payload of big-endian pairs reads as its pairs. -/
theorem readReg_writeRegs_unpackRegs (m : RegMap) (sp : RegSpace) (i : Nat) (data : List Byte) {n k : Nat}
    (hk : k < n) : readReg (writeRegs m sp i (unpackRegs data n)) sp (i + k) =
      be16 (byteAt data (2 * k)) (byteAt data (2 * k + 1)) := by
  rw [readReg_writeRegs, if_pos ⟨rfl, by omega, by simpa using hk⟩, Nat.add_sub_cancel_left, unpackRegs_getD _ _ _ hk,
    wordAt]

theorem writeBits_onlyBits (m : RegMap) (sp : BitSpace) (i : Nat) (vs : List Bool) :
    OnlyBits m (writeBits m sp i vs) sp i vs.length := by
  refine ⟨fun sp' j hj => ?_, fun r j => readReg_writeBits sp vs m i r j⟩
  rw [readBit_writeBits, if_neg]
  rintro ⟨rfl, hfirst, hlast⟩
  have houtside := hj.resolve_left (not_not.2 rfl)
  omega

theorem writeRegs_onlyRegs (m : RegMap) (sp : RegSpace) (i : Nat) (vs : List Word) :
    OnlyRegs m (writeRegs m sp i vs) sp i vs.length := by
  refine ⟨fun sp' j hj => ?_, fun b j => readBit_writeRegs sp vs m i b j⟩
  rw [readReg_writeRegs, if_neg]
  rintro ⟨rfl, hfirst, hlast⟩
  have houtside := hj.resolve_left (not_not.2 rfl)
  omega

/-- Settles O15: the checks in order, then the run of coils is written from the payload. -/
theorem writeMultipleCoilsEffect : Obligations.WriteMultipleCoilsEffect := by
  intro slave addr qty bytecount data s haccepted
  refine ⟨rfl, ?_⟩
  rw [exec_wrmcoils, writeMultipleCoils_eq]
  refine engine_check_answers haccepted .illegalDataValue <| engine_check_answers haccepted .illegalDataAddress <|
    engine_write_answers haccepted fun t hmap hanswers => ?_
  rw [hmap]
  exact ⟨fun _ => readBit_writeBits_unpackBits s.map .coils _ data,
    by simpa using writeBits_onlyBits s.map .coils _ (unpackBits data qty.toNat), hanswers⟩

/-- Settles O16: the checks in order, then the run of registers is written from the payload. -/
theorem writeMultipleRegistersEffect : Obligations.WriteMultipleRegistersEffect := by
  intro slave addr qty bytecount data s haccepted
  refine ⟨rfl, ?_⟩
  rw [exec_wrmregs, writeMultipleRegisters_eq]
  refine engine_check_answers haccepted .illegalDataValue <| engine_check_answers haccepted .illegalDataAddress <|
    engine_write_answers haccepted fun t hmap hanswers => ?_
  rw [hmap]
  exact ⟨fun _ => readReg_writeRegs_unpackRegs s.map .hold _ data,
    by simpa using writeRegs_onlyRegs s.map .hold _ (unpackRegs data qty.toNat), hanswers⟩

/-! ### What was written is read back -/

theorem cfg_of_onlyReplies {s t : State} (h : OnlyReplies s t) : t.cfg = s.cfg := by
  rw [h]

/-- A packed payload is judged by the elements it holds, and by no others. -/
theorem packedBits_congr {packed : List Byte} {q : Nat} {f g : Nat → Bool} (h : PackedBits packed q f)
    (hfg : ∀ k, k < q → f k = g k) : PackedBits packed q g := by
  obtain ⟨hlen, hbit⟩ := h
  refine ⟨hlen, fun k hk => (hbit k hk).trans ?_⟩
  by_cases hq : k < q
  · rw [hfg k hq]
  · simp [hq]

/-- A payload that holds the big-endian pairs of `data` is `data`. -/
theorem eq_data_of_packedRegs {bytes data : List Byte} {q : Nat} {f : Nat → Word} (h : PackedRegs bytes q f)
    (hdata : data.length = 2 * q) (hf : ∀ k, k < q → f k = be16 (byteAt data (2 * k)) (byteAt data (2 * k + 1))) :
    bytes = data := by
  obtain ⟨hlen, hpair⟩ := h
  have hbyte (i : Nat) (hi : i < 2 * q) : byteAt bytes i = byteAt data i := by
    obtain ⟨hhi, hlo⟩ := hpair (i / 2) (by omega)
    rw [hf (i / 2) (by omega)] at hhi hlo
    obtain heven | hodd := Nat.mod_two_eq_zero_or_one i
    · rwa [hi_be16, show 2 * (i / 2) = i by omega] at hhi
    · rwa [lo_be16, show 2 * (i / 2) + 1 = i by omega] at hlo
  refine List.ext_getElem (hlen.trans hdata.symm) fun i hi hi' => ?_
  simpa [byteAt, hi, hi'] using hbyte i (hlen ▸ hi)

/-- Settles O25: RDCOILS packs the elements that WRMCOILS wrote from the payload's bits. -/
theorem writeCoilsReadBack : Obligations.WriteCoilsReadBack := by
  intro slave addr qty bytecount data s haccepted hmin hmax hcount hin
  obtain ⟨-, t, hwrite, honly, heffect⟩ := writeMultipleCoilsEffect slave addr qty bytecount data s haccepted
  rw [if_neg (by omega), if_neg (not_not.2 hin), ← cfg_of_onlyReplies honly] at heffect
  rw [← cfg_of_onlyReplies honly] at haccepted hin
  obtain ⟨hcoils, -⟩ := heffect
  obtain ⟨-, u, hread, -, -, hanswer⟩ := readBitsAnswer .coils slave addr qty t haccepted
  rw [if_neg (by omega), if_neg (not_not.2 hin)] at hanswer
  obtain ⟨packed, hpacked, hanswers⟩ := hanswer
  exact ⟨t, u, packed, hwrite, hread, packedBits_congr hpacked hcoils, hanswers⟩

/-- Settles O26: RDHOLD answers the registers that WRMREGS wrote, whose pairs are the payload. -/
theorem writeRegistersReadBack : Obligations.WriteRegistersReadBack := by
  intro slave addr qty bytecount data s haccepted hmin hmax hcount hdata hin
  obtain ⟨-, t, hwrite, honly, heffect⟩ := writeMultipleRegistersEffect slave addr qty bytecount data s haccepted
  rw [if_neg (by omega), if_neg (not_not.2 hin), ← cfg_of_onlyReplies honly] at heffect
  rw [← cfg_of_onlyReplies honly] at haccepted hin
  obtain ⟨hregs, -⟩ := heffect
  obtain ⟨-, u, hread, -, -, hanswer⟩ := readRegsAnswer .hold slave addr qty t haccepted
  rw [if_neg (by omega), if_neg (not_not.2 hin), ← hcount, BitVec.ofNat_toNat, BitVec.setWidth_eq] at hanswer
  obtain ⟨bytes, hbytes, hanswers⟩ := hanswer
  obtain rfl : bytes = data := eq_data_of_packedRegs hbytes (hdata.trans hcount) hregs
  exact ⟨t, u, hwrite, hread, hanswers⟩

end Sys2Proof.Proofs

/-! PROOFS. The statement of `45_unsupported_functions.md`: a function code the block does not support is answered with
the illegal-function exception, whatever its operands. -/

namespace Sys2Proof.Proofs

open Sys2Proof.Machine Sys2Proof.Safety

/-- An accepted request whose handler raises the illegal-function exception, with no look at the map or the operands,
is answered with it under the request's own function code (`42_reply_engine.md` R106). -/
theorem answersIllegalFunction_of_handlerOf {i : Instr} {s : State} (haccepted : Accepted s.cfg i.slave)
    (hhandler : handlerOf s i = .error .illegalFunction) : AnswersIllegalFunction i s := by
  rw [AnswersIllegalFunction, exec_eq, hhandler]
  exact engine_error_answers haccepted i.code .illegalFunction

/-- Settles O17: the handler of each of the three requests raises the illegal-function exception in every state. -/
theorem unsupportedAnswerIllegalFunction : Obligations.UnsupportedAnswerIllegalFunction := by
  intro slave fc mdata data s haccepted
  have hmaskwr : AnswersIllegalFunction (.maskwr slave mdata) s := answersIllegalFunction_of_handlerOf haccepted rfl
  have hwrrdregs : AnswersIllegalFunction (.wrrdregs slave mdata data) s :=
    answersIllegalFunction_of_handlerOf haccepted rfl
  have hother : AnswersIllegalFunction (.other slave fc) s := answersIllegalFunction_of_handlerOf haccepted rfl
  have hmaskwrCode : fcMaskWriteRegister ||| 0x80 = 0x96 := by decide
  have hwrrdregsCode : fcWriteAndReadRegisters ||| 0x80 = 0x97 := by decide
  exact ⟨rfl, rfl, rfl, hmaskwr, hwrrdregs, hother, hmaskwrCode, hwrrdregsCode⟩

end Sys2Proof.Proofs

/-! PROOFS. The statements of `46_session_loop.md`: that a step depends on no transient, that every move completes, the
contracts of the writes and of the coil samples, and what a tick does. -/

namespace Sys2Proof.Proofs

open Sys2Proof.Machine Sys2Proof.Safety

/-! ### A receive depends on no transient

A receive reads the buffer only where it has stored a byte itself, and the response not at all. So it commutes with
`cut`, which takes the rest of both away. -/

/-- `s` without what a receive under way does not read: the buffer beyond the stored bytes, the old status, the
response. -/
def cut (s : State) : State := { s with rxbuf := s.rxbuf.take s.rxlen, rxStatus := 0, rsp := [], rsplen := 0 }

/-- `cut` after the status has been returned. -/
def cutReturned (s : State) : State := { cut s with rxStatus := s.rxStatus }

/-- `cut` on the result of waiting for a byte. -/
def cutAcquired : Acquired → Acquired
  | .byte b t => .byte b (cut t)
  | .gap t => .gap (cut t)

/-- `cut` on the result of reading a number of bytes. -/
def cutReceived : Received → Received
  | .all t => .all (cut t)
  | .gap t => .gap (cut t)

@[simp] theorem cut_cfg (s : State) : (cut s).cfg = s.cfg := rfl
@[simp] theorem cut_rxlen (s : State) : (cut s).rxlen = s.rxlen := rfl
@[simp] theorem cut_need (s : State) : (cut s).need = s.need := rfl
@[simp] theorem cut_queue (s : State) : (cut s).queue = s.queue := rfl

@[simp] theorem cutReturned_rxbuf (s : State) : (cutReturned s).rxbuf = s.rxbuf.take s.rxlen := rfl
@[simp] theorem cutReturned_rxStatus (s : State) : (cutReturned s).rxStatus = s.rxStatus := rfl

theorem poll_cut (s : State) : poll (cut s) = cut (poll s) := by
  rw [poll_eq, poll_eq]
  rfl

/-- A poll finds the same bytes. -/
theorem poll_cut_queue (s : State) : (poll (cut s)).queue = (poll s).queue := by
  rw [poll_cut, cut_queue]

theorem acquireLoop_cut (left : Nat) (s : State) : acquireLoop left (cut s) = cutAcquired (acquireLoop left s) := by
  induction left generalizing s with
  | zero =>
    cases hqueue : (poll s).queue with
    | nil => rw [acquireLoop_gap ((poll_cut_queue s).trans hqueue), acquireLoop_gap hqueue, poll_cut, cutAcquired]
    | cons b q =>
      rw [acquireLoop_byte ((poll_cut_queue s).trans hqueue), acquireLoop_byte hqueue, poll_cut]
      rfl
  | succ left ih =>
    cases hqueue : (poll s).queue with
    | nil =>
      rw [acquireLoop_retry ((poll_cut_queue s).trans hqueue), acquireLoop_retry hqueue, poll_cut]
      exact ih { delay (poll s) with tries := s.tries + 1 }
    | cons b q =>
      rw [acquireLoop_byte ((poll_cut_queue s).trans hqueue), acquireLoop_byte hqueue, poll_cut]
      rfl

theorem acquireByte_cut (s : State) : acquireByte (cut s) = cutAcquired (acquireByte s) :=
  acquireLoop_cut s.cfg.rxRetries { s with tries := 0 }

theorem storeByte_cut {s : State} (hroom : s.rxlen ≤ s.rxbuf.length) (b : Byte) :
    storeByte b (cut s) = cut (storeByte b s) := by
  have hbuf : bufSet (s.rxbuf.take s.rxlen) s.rxlen b = (bufSet s.rxbuf s.rxlen b).take (s.rxlen + 1) := by
    have htail : (s.rxbuf.take s.rxlen).drop (s.rxlen + 1) = [] := List.drop_eq_nil_of_le (by simp)
    rw [bufSet_take _ _ _ hroom, bufSet, List.take_take, Nat.min_self, htail]
  simp only [storeByte, cut, hbuf]

theorem readBytes_cut {n : Nat} {s : State} (hroom : s.rxlen ≤ s.rxbuf.length) :
    readBytes n (cut s) = cutReceived (readBytes n s) := by
  induction n generalizing s with
  | zero => rfl
  | succ n ih =>
    rw [readBytes, readBytes, acquireByte_cut]
    rcases acquireLoop_cases s.cfg.rxRetries { s with tries := 0 } with ⟨b, t, hbyte, ht, -⟩ | ⟨t, hgap, -⟩
    · replace hbyte : acquireByte s = .byte b t := hbyte
      have hroom' : t.rxlen ≤ t.rxbuf.length := by rwa [ht]
      rw [hbyte, cutAcquired]
      simp only [storeByte_cut hroom']
      exact ih (bufSet_length_ge t.rxbuf t.rxlen b hroom')
    · replace hgap : acquireByte s = .gap t := hgap
      rw [hgap]
      rfl

theorem flush_cut (left : Nat) (s : State) : flush left (cut s) = cut (flush left s) := by
  induction left generalizing s with
  | zero => rfl
  | succ left ih =>
    rw [flush, flush, poll_cut]
    cases hqueue : (poll s).queue with
    | nil => rw [cut_queue, hqueue]
    | cons b q =>
      rw [cut_queue, hqueue]
      exact ih { poll s with queue := q }

/-- A byte that has been stored is not cut off. -/
theorem byteAt_cut {s : State} {k : Nat} (hk : k < s.rxlen) : byteAt (cut s).rxbuf k = byteAt s.rxbuf k :=
  (byteAt_of_take rfl hk).symm

/-- A phase ends cut when what follows its last byte does. -/
theorem afterRead_cut {next : State → State} {n : Nat} {s : State} (hroom : s.rxlen ≤ s.rxbuf.length)
    (hnext : ∀ t : State, t.rxlen = s.rxlen + n → t.rxlen ≤ t.rxbuf.length →
      (∀ k < s.rxlen, byteAt t.rxbuf k = byteAt s.rxbuf k) → next (cut t) = cutReturned (next t)) :
    afterRead next (readBytes n (cut s)) = cutReturned (afterRead next (readBytes n s)) := by
  rw [readBytes_cut hroom]
  rcases readBytes_cases n s hroom with
    ⟨bs, t, hread, -, -, -, -, -, hrxlen, -, hroom', hstored, -⟩ | ⟨bs, t, hread, -⟩
  · rw [hread]
    refine hnext t hrxlen hroom' fun k hk => ?_
    have hkept : t.rxbuf.take s.rxlen = s.rxbuf.take s.rxlen := by
      have hlen : (s.rxbuf.take s.rxlen).length = s.rxlen := List.length_take_of_le hroom
      have hbefore := congrArg (List.take s.rxlen) hstored
      rwa [List.take_take, Nat.min_eq_left (by omega), List.take_left' hlen] at hbefore
    rw [byteAt_of_take hkept hk, ← byteAt_of_take rfl hk]
  · rw [hread]
    rfl

/-- The end of the DATA phase checks the stored bytes (`41_receiver.md` R92). -/
theorem endData_cut (s : State) : endData (cut s) = cutReturned (endData s) := by
  have hframe : (cut s).rxbuf.take (cut s).rxlen = s.rxbuf.take s.rxlen := by simp [cut]
  rw [endData, endData, hframe]
  cases validate (s.rxbuf.take s.rxlen) <;> rfl

/-- The end of the META phase reads the header and the metadata (`41_receiver.md` R89, R90). -/
theorem endMeta_cut {s : State} (hroom : s.rxlen ≤ s.rxbuf.length)
    (hmeta : 2 + metaLen (byteAt s.rxbuf 1) ≤ s.rxlen) : endMeta (cut s) = cutReturned (endMeta s) := by
  have hdata : dataLen (cut s).rxbuf = dataLen s.rxbuf :=
    dataLen_congr fun k hk => byteAt_cut (hk.trans_le hmeta)
  have hstart : startData (cut s) = cut (startData s) := by
    rw [startData, hdata]
    rfl
  rw [endMeta_eq, endMeta_eq, hstart, apply_ite cutReturned]
  exact ite_congr rfl (fun _ => rfl) fun _ => afterRead_cut hroom fun t _ _ _ => endData_cut t

/-- The end of the HEADER phase reads the two header bytes (`41_receiver.md` R87). -/
theorem endHeader_cut {s : State} (hroom : s.rxlen ≤ s.rxbuf.length) (hheader : s.rxlen = 2) :
    endHeader (cut s) = cutReturned (endHeader s) := by
  have haddr : byteAt (cut s).rxbuf 0 = byteAt s.rxbuf 0 := byteAt_cut (by omega)
  have hcode : byteAt (cut s).rxbuf 1 = byteAt s.rxbuf 1 := byteAt_cut (by omega)
  have hstart : startMeta (cut s) = cut (startMeta s) := by
    rw [startMeta, hcode]
    rfl
  rw [endHeader_eq, endHeader_eq, hstart, haddr, flush_cut, apply_ite cutReturned]
  refine ite_congr rfl (fun _ => rfl) fun _ => afterRead_cut hroom fun t hrxlen hroom' hkept => endMeta_cut hroom' ?_
  simp only [cut_need, startMeta_rxlen, startMeta_need, startMeta_rxbuf] at hrxlen hkept
  rw [hkept 1 (by omega), hrxlen, hheader]

/-- The receive from a state without transients. -/
theorem receive_forget (s : State) : receive (forget s) = cutReturned (receive s) := by
  have hstart : readBytes 2 (startHeader (forget s)) = readBytes 2 (cut (startHeader s)) := rfl
  rw [receive_eq, receive_eq, hstart]
  refine afterRead_cut (Nat.zero_le _) fun t hrxlen hroom _ => endHeader_cut hroom ?_
  rw [hrxlen, startHeader_rxlen]

/-! ### A step depends on no transient -/

/-- What a response leaves, but for the transients. -/
theorem forget_respond (slave : Byte) (body : List Byte) (s : State) :
    forget (respond slave body s) = { forget s with txLog := s.txLog ++ responseWrites s.cfg slave body } := by
  obtain ⟨rsp, heq, -⟩ := respond_eq slave body s
  rw [heq]
  rfl

theorem engine_forget (slave fc : Byte) (handled : Handled) (s : State) :
    forgetOutcome (engine slave fc handled (forget s)) = forgetOutcome (engine slave fc handled s) := by
  by_cases hforeign : Foreign s.cfg slave
  · have hdropped {t : State} (h : Foreign t.cfg slave) : engine slave fc handled t = .next t := if_pos h
    rw [hdropped hforeign, hdropped (t := forget s) hforeign]
    rfl
  · have hown : ¬ Foreign (forget s).cfg slave := hforeign
    cases handled with
    | ok answer =>
      rw [engine_ok hown, engine_ok hforeign, forgetOutcome, forgetOutcome, forget_respond, forget_respond]
      rfl
    | error e =>
      rw [engine_error hown, engine_error hforeign, forgetOutcome, forgetOutcome, takeException, takeException,
        forget_respond, forget_respond]
      rfl

section
variable {s t : State}

/-- A request reads no transient but the frame length (`42_reply_engine.md` R110). -/
theorem exec_forget_congr (h : forget t = forget s) (hstatus : t.rxStatus = s.rxStatus) (i : Instr) :
    forgetOutcome (exec i t) = forgetOutcome (exec i s) := by
  have hcfg : (forget t).cfg = (forget s).cfg := congrArg State.cfg h
  have hmap : (forget t).map = (forget s).map := congrArg State.map h
  rw [exec_eq, exec_eq, handlerOf_congr (s := s) (t := t) hcfg hmap hstatus, ← engine_forget, h, engine_forget]

/-- The Reply Engine reads the accepted frame and its length, and no other transient. -/
theorem reply_forget_congr (h : forget t = forget s) (hstatus : t.rxStatus = s.rxStatus)
    (hframe : t.rxbuf.take t.rxStatus.toNat = s.rxbuf.take s.rxStatus.toNat) :
    forgetOutcome (reply t) = forgetOutcome (reply s) := by
  rw [reply, reply, hframe]
  cases decode (s.rxbuf.take s.rxStatus.toNat) with
  | ok request => exact exec_forget_congr h hstatus request.1
  | error => rfl

theorem afterReply_forget (o : Host.Outcome State Fault Refusal) :
    forgetOutcome (afterReply o) = afterReply (forgetOutcome o) := by
  cases o <;> rfl

/-- A status that is not positive ends the tick (`46_session_loop.md` R130). -/
theorem afterReceive_of_failure (h : rxPositive s.rxStatus = false) : afterReceive s = .next (endTick s) :=
  if_neg (Bool.eq_false_iff.1 h)

/-- On a positive status the Reply Engine runs (`46_session_loop.md` R130). -/
theorem afterReceive_of_frame (h : rxPositive s.rxStatus = true) :
    afterReceive s = afterReply (reply { s with ctrl := .replying }) :=
  if_pos h

theorem afterReceive_forget_congr (h : forget t = forget s) (hstatus : t.rxStatus = s.rxStatus)
    (hframe : rxPositive s.rxStatus = true →
      t.rxbuf.take t.rxStatus.toNat = s.rxbuf.take s.rxStatus.toNat) :
    forgetOutcome (afterReceive t) = forgetOutcome (afterReceive s) := by
  cases hpositive : rxPositive s.rxStatus with
  | false =>
    rw [afterReceive_of_failure hpositive, afterReceive_of_failure (hstatus ▸ hpositive)]
    exact congrArg (fun u => Host.Outcome.next (endTick u)) h
  | true =>
    have hreplying : forget { t with ctrl := .replying } = forget { s with ctrl := .replying } :=
      congrArg (fun u : State => { u with ctrl := .replying }) h
    rw [afterReceive_of_frame hpositive, afterReceive_of_frame (hstatus ▸ hpositive), afterReply_forget,
      afterReply_forget, reply_forget_congr hreplying hstatus (hframe hpositive)]

end

/-- A receive fails, or it accepts a well-formed request, which stands in the buffer (`41_receiver.md` R93). -/
theorem receive_fails_or_accepts (s : State) :
    rxPositive (receive s).rxStatus = false
    ∨ ∃ i : Instr, i.wellFormed = true ∧ (receive s).rxStatus = rxAccepted (encode i).length
      ∧ (receive s).rxlen = (encode i).length ∧ (receive s).rxbuf.take (encode i).length = encode i := by
  obtain hstatus | hstatus | hstatus | ⟨i, hw, -, hstatus, hlen, hstored, -⟩ := receiveStatusMeaning s
  · exact .inl (hstatus ▸ by decide)
  · exact .inl (hstatus ▸ by decide)
  · exact .inl (hstatus ▸ by decide)
  · exact .inr ⟨i, hw, hstatus, hlen, hlen ▸ hstored⟩

/-- An accepted frame lies within the stored bytes. -/
theorem receive_frame_stored {s : State} (h : rxPositive (receive s).rxStatus = true) :
    (receive s).rxStatus.toNat ≤ (receive s).rxlen := by
  obtain hfailed | ⟨i, -, hstatus, hlen, -⟩ := receive_fails_or_accepts s
  · exact absurd (hfailed.symm.trans h) Bool.false_ne_true
  · rw [hstatus, hlen, rxAccepted, BitVec.toNat_ofNat]
    exact Nat.mod_le _ _

theorem afterReceive_receive_forget (s : State) :
    forgetOutcome (afterReceive (receive (forget s))) = forgetOutcome (afterReceive (receive s)) := by
  rw [receive_forget]
  refine afterReceive_forget_congr rfl rfl fun hpositive => ?_
  rw [cutReturned_rxbuf, cutReturned_rxStatus, List.take_take, Nat.min_eq_left (receive_frame_stored hpositive)]

theorem iteration_forget (s : State) : forgetOutcome (iteration (forget s)) = forgetOutcome (iteration s) := by
  have hpoll : poll (forget s) = forget (poll s) := by
    rw [poll_eq, poll_eq]
    rfl
  rw [iteration, iteration, hpoll, apply_ite forgetOutcome, apply_ite forgetOutcome]
  exact ite_congr rfl (fun _ => rfl) fun _ => afterReceive_receive_forget { poll s with ctrl := .receiving }

/-- The choice of the next move reads no transient. -/
theorem schedule_forget (s : State) : schedule (forget s) = ((schedule s).1, forget (schedule s).2) := by
  unfold schedule
  simp only [forget]
  split <;> rfl

theorem perform_forget (m : HostMove) (s : State) :
    forgetOutcome (perform m (forget s)) = forgetOutcome (perform m s) := by
  cases m with
  | tick => exact iteration_forget s
  | sample => rfl
  | loadDinput k v =>
    rw [perform, perform, loadDinput, loadDinput, apply_ite forgetOutcome, apply_ite forgetOutcome]
    rfl
  | loadInreg k v =>
    rw [perform, perform, loadInreg, loadInreg, apply_ite forgetOutcome, apply_ite forgetOutcome]
    rfl
  | reset => rfl

theorem step_forget (s : State) : forgetOutcome (step (forget s)) = forgetOutcome (step s) := by
  have hnext : nextMove (forget s) = nextMove s := by rw [nextMove, schedule_forget, nextMove]
  have hconsumed : consumed (forget s) = forget (consumed s) := by
    rw [consumed, schedule_forget, hnext]
    rfl
  rw [step, step, advance, advance, hnext, hconsumed]
  simp only [apply_ite forgetOutcome, perform_forget]
  rfl

/-- Settles O41: a step from a state is, but for the transients, the step from that state without its transients. -/
theorem noStateAcrossTicks : Obligations.NoStateAcrossTicks := by
  intro s s' h
  rw [← step_forget s, h, step_forget]

/-! ### Every move completes -/

/-- What follows a receive comes to its end, whatever the status. -/
theorem afterReceive_next (s : State) : ∃ t, afterReceive (receive s) = .next t ∧ t.ctrl = .idle := by
  obtain hfailed | ⟨i, hw, hstatus, -, hstored⟩ := receive_fails_or_accepts s
  · exact ⟨_, afterReceive_of_failure hfailed, rfl⟩
  · obtain ⟨t, ht⟩ := exec_next i { receive s with ctrl := .replying }
    exact ⟨endTick t, by rw [afterReceive_encode hw hstatus hstored, ht, afterReply], rfl⟩

/-- An iteration comes to its end, whatever bytes come (`46_session_loop.md` R134). -/
theorem iteration_next (s : State) : ∃ t, iteration s = .next t ∧ t.ctrl = .idle := by
  unfold iteration
  split
  · exact ⟨_, rfl, rfl⟩
  · exact afterReceive_next _

/-- Settles O45, by the moves of the environment: an iteration comes to its end, and of the other moves only a load can
fail. -/
theorem everyMoveButBadLoadCompletes : Obligations.EveryMoveButBadLoadCompletes := by
  intro s hlegal hidle hload
  obtain ⟨hdinput, hinreg⟩ := hload
  have hctrl : (consumed s).ctrl = .idle := by rw [consumed_ctrl, hidle]
  rw [step_eq hlegal hidle]
  cases hnext : nextMove s with
  | tick => exact iteration_next (consumed s)
  | sample => exact ⟨_, rfl, hctrl⟩
  | loadDinput k v =>
    obtain ⟨rest, hagenda, -⟩ := schedule_other hnext (by simp) (by simp)
    have hk : k < (consumed s).cfg.dinputCount := (consumed_cfg s).symm ▸ hdinput k v rest hagenda
    exact ⟨_, if_pos hk, hctrl⟩
  | loadInreg k v =>
    obtain ⟨rest, hagenda, -⟩ := schedule_other hnext (by simp) (by simp)
    have hk : k < (consumed s).cfg.inregCount := (consumed_cfg s).symm ▸ hinreg k v rest hagenda
    exact ⟨_, if_pos hk, hctrl⟩
  | reset => exact ⟨_, rfl, rfl⟩

/-! ### The writes of a step -/

/-- A receive writes nothing (`41_receiver.md` R98). -/
theorem receive_txLog (s : State) : (receive s).txLog = s.txLog := by
  obtain ⟨bs, more, hframe, -⟩ := receive_cases s
  rw [hframe]

/-- From `s` to `t` nothing was written, or one complete ADU that validates. -/
def WritesOneAdu (s t : State) : Prop :=
  t.txLog = s.txLog ∨ ∃ adu, t.txLog = s.txLog ++ [adu] ∧ 5 ≤ adu.length ∧ adu.length ≤ 255
    ∧ validate adu = some adu.length

/-- A request makes at most one write, and what it writes is its response. -/
theorem exec_writesOneAdu {i : Instr} {s t : State} (h : exec i s = .next t) : WritesOneAdu s t := by
  obtain ⟨-, hnone | ⟨adu, hlog⟩⟩ := requestFrame i s t h
  · exact .inl hnone
  · obtain ⟨hmin, hmax, -⟩ := responseShape i s t adu h hlog
    obtain ⟨-, hvalid, -⟩ := crcRoundTrip
    exact .inr ⟨adu, hlog, hmin, hmax, hvalid i s t adu h hlog⟩

/-- An iteration runs at most one request. -/
theorem iteration_writesOneAdu {s t : State} (h : iteration s = .next t) : WritesOneAdu s t := by
  have hreceive : (receive { poll s with ctrl := .receiving }).txLog = s.txLog := (receive_txLog _).trans (poll_txLog s)
  obtain ⟨-, rfl⟩ | ⟨-, hafter⟩ := iteration_cases h
  · exact .inl (poll_txLog s)
  · obtain ⟨-, rfl⟩ | ⟨i, rest, u, -, -, hu, rfl⟩ := afterReceive_cases hafter
    · exact .inl hreceive
    · have hwrites : WritesOneAdu { receive { poll s with ctrl := .receiving } with ctrl := .replying } u :=
        exec_writesOneAdu hu
      rwa [WritesOneAdu, hreceive] at hwrites

/-- Settles O40: of the moves only a tick writes. -/
theorem atMostOneWritePerStep : Obligations.AtMostOneWritePerStep := by
  intro s t h
  obtain ⟨-, -, htick | hsample | hdinput | hinreg | hreset⟩ := step_cases h
  · obtain ⟨-, hiter⟩ := htick
    have hwrites := iteration_writesOneAdu hiter
    rwa [WritesOneAdu, consumed_txLog] at hwrites
  · obtain ⟨-, rfl⟩ := hsample
    exact .inl (consumed_txLog s)
  · obtain ⟨_, _, _, -, -, -, rfl⟩ := hdinput
    exact .inl rfl
  · obtain ⟨_, _, _, -, -, -, rfl⟩ := hinreg
    exact .inl rfl
  · obtain ⟨_, -, -, rfl⟩ := hreset
    exact .inl rfl

/-! ### The coil samples -/

/-- No move but a sample delivers one. -/
theorem step_snapshot {s t : State} (h : step s = .next t) (hne : nextMove s ≠ .sample) :
    t.snapshot = s.snapshot := by
  obtain ⟨-, -, htick | hsample | hdinput | hinreg | hreset⟩ := step_cases h
  · obtain ⟨-, hiter⟩ := htick
    obtain ⟨-, -, hsnapshot, -⟩ := iteration_frame hiter
    rw [hsnapshot, consumed_snapshot]
  · obtain ⟨hnext, -⟩ := hsample
    exact absurd hnext hne
  · obtain ⟨_, _, _, -, -, -, rfl⟩ := hdinput
    rfl
  · obtain ⟨_, _, _, -, -, -, rfl⟩ := hinreg
    rfl
  · obtain ⟨_, -, -, rfl⟩ := hreset
    rfl

/-- A step leaves the mapper where its move puts it. -/
theorem step_mapper {s t : State} (h : step s = .next t) : t.mapper = mapperAfter (nextMove s) s.mapper := by
  obtain ⟨-, -, htick | hsample | hdinput | hinreg | hreset⟩ := step_cases h
  · obtain ⟨-, hiter⟩ := htick
    obtain ⟨-, hmapper, -⟩ := iteration_frame hiter
    rw [hmapper, consumed_mapper]
  · obtain ⟨-, rfl⟩ := hsample
    rfl
  · obtain ⟨_, _, _, hnext, -, -, rfl⟩ := hdinput
    rw [hnext, mapperAfter]
  · obtain ⟨_, _, _, hnext, -, -, rfl⟩ := hinreg
    rw [hnext, mapperAfter]
  · obtain ⟨_, hnext, -, rfl⟩ := hreset
    rw [hnext]
    rfl

/-- How many samples the mapper is ahead of the ticks. -/
def lead : Mapper → Int
  | .even => 0
  | .early => 1
  | .late => -1

/-- How many samples more than ticks there are among the moves. -/
def excess (moves : List HostMove) : Int := (moves.count .sample : Int) - moves.count .tick

theorem lead_bounds (m : Mapper) : -1 ≤ lead m ∧ lead m ≤ 1 := by
  cases m <;> decide

/-- A move that the mapper's contract allows adds its own excess to the lead. -/
theorem lead_mapperAfter {m : HostMove} {p : Mapper} (htick : p = .late → m ≠ .tick)
    (hsample : p = .early → m ≠ .sample) : lead (mapperAfter m p) = lead p + excess [m] := by
  cases m with
  | tick =>
    cases p with
    | late => exact absurd rfl (htick rfl)
    | _ => rfl
  | sample =>
    cases p with
    | early => exact absurd rfl (hsample rfl)
    | _ => rfl
  | loadDinput | loadInreg | reset => simp [mapperAfter, excess]

theorem excess_cons (m : HostMove) (moves : List HostMove) : excess (m :: moves) = excess [m] + excess moves := by
  simp only [excess, List.count_cons, List.count_nil]
  push_cast
  ring

/-- Over any run the mapper's lead, together with what the run adds to it, stays within one sample. -/
theorem lead_movesOf (n : Nat) (s : State) :
    -1 ≤ lead s.mapper + excess (movesOf n s) ∧ lead s.mapper + excess (movesOf n s) ≤ 1 := by
  induction n generalizing s with
  | zero => simpa [movesOf, excess] using lead_bounds s.mapper
  | succ n ih =>
    cases hstep : step s with
    | next t =>
      obtain ⟨htick, hsample⟩ := nextMove_contract s
      have hrun := ih t
      rw [step_mapper hstep, lead_mapperAfter htick hsample] at hrun
      have hmoves : movesOf (n + 1) s = nextMove s :: movesOf n t := by rw [movesOf, hstep]
      rw [hmoves, excess_cons]
      omega
    | fault | refused => simpa [movesOf, hstep, excess] using lead_bounds s.mapper

/-- Settles O49: each tick and each sample moves the mapper's record by one, and the contract keeps that record within
one of even. -/
theorem coilSnapshotOncePerTick : Obligations.CoilSnapshotOncePerTick := by
  refine ⟨fun s hlegal hidle hnext => ?_, fun s t => step_snapshot, fun n s heven => ?_⟩
  · have hcoils : coilSnapshot (consumed s) = readBits s.map .coils 0 (min 3 s.cfg.coilCount) := by
      rw [coilSnapshot, consumed_map, consumed_cfg]
    rw [step_eq hlegal hidle, hnext, perform, sampleCoils, hcoils]
  · obtain ⟨hlate, hearly⟩ := lead_movesOf n s
    rw [heven, lead, excess] at hlate hearly
    omega

/-! ### What a tick does -/

/-- Settles O37: the bytes are the encoding of the request, which the iteration receives and executes. -/
theorem stepRunsDecodedInstruction : Obligations.StepRunsDecodedInstruction := by
  intro s i rest hlegal hidle htick hdecode hw haccepted
  obtain ⟨-, hqueue⟩ := encodeOfDecode s.queue rest i hdecode
  obtain ⟨r, hiteration, hr, hstored, htaken, hleft⟩ :=
    iteration_encode (s := consumed s) (by rwa [consumed_queue]) hw (by rwa [consumed_cfg, not_foreign_iff])
  obtain ⟨t, ht⟩ := exec_next i r
  have hincoming : incoming (consumed s) = incoming s := by rw [incoming, consumed_queue, consumed_arrivals, incoming]
  exact ⟨r, t, ht, by rw [step_of_tick hlegal hidle htick, hiteration, ht, afterReply], hr, hstored,
    hincoming ▸ htaken, hleft⟩

/-- Settles O38: the poll finds nothing, and the block is idle before and after. -/
theorem tickWithoutBytesDoesNothing : Obligations.TickWithoutBytesDoesNothing := by
  intro s hlegal hidle htick hqueue hbatch
  have hempty : (consumed s).queue = [] := by rw [consumed_queue, hqueue]
  have hctrl : (consumed s).ctrl = .idle := by rw [consumed_ctrl, hidle]
  have hnone : (poll (consumed s)).queue = [] := by
    rw [poll_eq, hempty, consumed_arrivals, List.headD_eq_head?_getD, hbatch]
    rfl
  rw [step_of_tick hlegal hidle htick, iteration, if_pos hnone, poll_eq_of_nil hnone, endTick, ← hempty, ← hctrl,
    consumed_arrivals]

end Sys2Proof.Proofs

/-! PROOFS. The statement of `60_exceptions.md`: a tick whose receive fails. -/

namespace Sys2Proof.Proofs

open Sys2Proof.Machine Sys2Proof.Safety

/-- A receive leaves the response buffer alone (`41_receiver.md` R98). -/
theorem receive_rsp (s : State) : (receive s).rsp = s.rsp := by
  obtain ⟨bs, more, hframe, -⟩ := receive_cases s
  rw [hframe]

/-- Taking the next move off the agenda does not change what a poll finds. -/
theorem poll_consumed_queue (s : State) : (poll (consumed s)).queue = (poll s).queue := by
  rw [poll_eq, poll_eq, consumed_queue, consumed_arrivals]

/-- An iteration whose poll finds a byte and whose receive fails is that receive, after which the tick ends
(`46_session_loop.md` R130). -/
theorem iteration_of_failure {s : State} (hbyte : (poll s).queue ≠ [])
    (hfailed : rxPositive (receive { poll s with ctrl := .receiving }).rxStatus = false) :
    iteration s = .next (endTick (receive { poll s with ctrl := .receiving })) := by
  rw [iteration, if_neg hbyte, afterReceive_of_failure hfailed]

/-- Settles O39: the step is the failed receive and the end of the tick, and a receive touches neither the map nor the
response nor the bytes transmitted. -/
theorem receiveFailuresAreSilent : Obligations.ReceiveFailuresAreSilent := by
  intro s hlegal hidle htick hbyte hfailed
  have hfound : (poll (consumed s)).queue ≠ [] := by rwa [poll_consumed_queue]
  have hstep : step s = .next (endTick (receive { poll (consumed s) with ctrl := .receiving })) := by
    rw [step_of_tick hlegal hidle htick, iteration_of_failure hfound hfailed]
  refine ⟨_, hstep, ?map, ?txLog, ?rsp, rfl, rfl⟩
  case map => exact (receive_map _).trans (by rw [poll_map, consumed_map])
  case txLog => exact (receive_txLog _).trans (by rw [poll_txLog, consumed_txLog])
  case rsp => exact (receive_rsp _).trans (by rw [poll_rsp, consumed_rsp])

end Sys2Proof.Proofs

/-! PROOFS. The statements of `70_reset_and_hazards.md` and `93_implementation_defined.md`: what a RESET leaves, a RESET
before a coil sample, and the steps outside the contract. -/

namespace Sys2Proof.Proofs

open Sys2Proof.Machine Sys2Proof.Safety

/-! ### The zeroed map and the RESET -/

@[simp] theorem readBit_zero (sp : BitSpace) (k : Nat) : readBit RegMap.zero sp k = false := by
  cases sp <;> rfl

@[simp] theorem readReg_zero (sp : RegSpace) (k : Nat) : readReg RegMap.zero sp k = 0 := by
  cases sp <;> rfl

theorem readBits_zero (sp : BitSpace) (i n : Nat) : readBits RegMap.zero sp i n = List.replicate n false := by
  simp [readBits]

/-- A RESET at the head of the agenda is the next move, whatever the mapper owes. -/
theorem step_reset {s : State} {rest : List HostMove} (hlegal : s.cfg.Legal) (hidle : s.ctrl = .idle)
    (hagenda : s.agenda = .reset :: rest) : step s = .next (resetMove { s with agenda := rest }) := by
  obtain ⟨hnext, hconsumed⟩ := schedule_head hagenda (by simp) (by simp)
  rw [step_eq hlegal hidle, hnext, hconsumed, perform, mapperAfter]

/-- Settles O48: start-up and a RESET both leave the zeroed map, in which every element reads as zero. -/
theorem resetZeroesMap : Obligations.ResetZeroesMap := by
  constructor
  case left => exact fun c b r k => ⟨readBit_zero b k, readReg_zero r k, rfl, rfl⟩
  case right =>
    intro s rest hlegal hidle hagenda
    exact ⟨_, step_reset hlegal hidle hagenda, rfl, rfl, fun b r k => ⟨readBit_zero b k, readReg_zero r k⟩⟩

/-! ### A RESET between an iteration and its sample -/

/-- A sample at the head of the agenda, which the mapper has not had yet, delivers the coils as they stand. -/
theorem step_sample_eq {s : State} {rest : List HostMove} (hlegal : s.cfg.Legal) (hidle : s.ctrl = .idle)
    (hmapper : s.mapper ≠ .early) (hagenda : s.agenda = .sample :: rest) :
    step s = .next (sampleCoils { s with agenda := rest, mapper := mapperAfter .sample s.mapper }) := by
  obtain ⟨hnext, hconsumed⟩ := schedule_head hagenda (by simp) (fun _ => hmapper)
  rw [step_eq hlegal hidle, hnext, hconsumed, perform]

theorem coilSnapshot_of_zero {s : State} (h : s.map = RegMap.zero) :
    coilSnapshot s = List.replicate (min 3 s.cfg.coilCount) false := by
  rw [coilSnapshot, h, readBits_zero]

/-- A RESET and then the sample that the last tick is still owed: every coil is off in it. -/
theorem step_reset_sample {s : State} {rest : List HostMove} (hlegal : s.cfg.Legal) (hidle : s.ctrl = .idle)
    (hmapper : s.mapper = .late) (hagenda : s.agenda = .reset :: .sample :: rest) :
    ∃ m u, step s = .next m ∧ step m = .next u ∧ u.agenda = rest ∧ u.mapper = .even
      ∧ u.snapshot = List.replicate (min 3 s.cfg.coilCount) false := by
  exact ⟨_, _, step_reset hlegal hidle hagenda, step_sample_eq hlegal rfl (by simp [hmapper]) rfl, rfl,
    congrArg (mapperAfter .sample) hmapper, coilSnapshot_of_zero rfl⟩

/-- Settles O50: the iteration leaves the rest of the agenda and a mapper that is owed its sample, the RESET keeps both,
and so the sample is taken of the zeroed map. -/
theorem resetMayPrecedeSample : Obligations.ResetMayPrecedeSample := by
  intro s moves hlegal hidle heven hagenda
  obtain ⟨htick, hconsumed⟩ := schedule_head hagenda (by simp [heven]) (by simp)
  obtain ⟨t, hiteration, hctrl⟩ := iteration_next (consumed s)
  have hstep : step s = .next t := (step_of_tick hlegal hidle htick).trans hiteration
  obtain ⟨hmoves, -, -, -, hcfg, -⟩ := iteration_frame hiteration
  rw [consumed_cfg] at hcfg
  rw [hconsumed] at hmoves
  have howed : t.mapper = .late := by rw [step_mapper hstep, htick, heven]; rfl
  obtain ⟨m, u, hreset, hsample, hrest, hmapper, hsnapshot⟩ :=
    step_reset_sample (hcfg ▸ hlegal) hctrl howed hmoves
  exact ⟨t, m, u, hiteration, hstep, hreset, hsample, hrest, hmapper, hcfg ▸ hsnapshot⟩

/-! ### Outside the contract -/

/-- The identities 0 and 247 to 255 are none of this hardware (`10_state.md` R18). -/
theorem not_legal_of_slaveId {c : Cfg} (h : c.slaveId = 0 ∨ 246 < c.slaveId.toNat) : ¬ c.Legal := by
  rintro ⟨hmin, hmax⟩
  obtain hzero | hlarge := h
  · rw [hzero] at hmin
    exact absurd hmin (by decide)
  · exact absurd hmax (Nat.not_le.2 hlarge)

/-- Settles O51: a step looks at the configuration first and at the control state next, before any move. -/
theorem outsideContractRefused : Obligations.OutsideContractRefused := by
  refine ⟨fun s hslave => ?_, fun s hlegal hbusy => ?_⟩
  · rw [step, advance, if_pos (not_legal_of_slaveId hslave)]
  · rw [step, advance, if_neg (not_not.2 hlegal), if_pos hbusy]

end Sys2Proof.Proofs
